-- ==== Sys2Proof/Word.lean ====
section
/-! DEFINITION. The word types of the HBA: what a command, a read-port transfer and an output byte
are made of (spec/00_scope.md R8, R9). Every value is unsigned and bit 0 is the least significant. -/

namespace Sys2Proof

/-- A 64-bit command word (R8, R56). -/
abbrev CmdWord := BitVec 64

/-- A 32-bit word of the read port, address or data (R8, R36). -/
abbrev ReadWord := BitVec 32

/-- One byte: an input symbol, a table index or an output octet (R8). -/
abbrev Byte := BitVec 8

end Sys2Proof
end

