-- ==== Sys2Proof/Config.lean ====
section
/-! DEFINITION. What the build fixes (spec/00_scope.md R7) and the free values: what the spec leaves
unspecified, named here as constants without a body, so that no proof can use a value of theirs. -/

namespace Sys2Proof

/-- The three build parameters of R7. They are configuration, not state: no command changes them
(R13). `outCap` has 28 bits because R7 bounds OUT_CAP by 2^28 - 1. -/
structure Config where
  /-- `OUT_CAP`, the output buffer's capacity in bytes; legal from 1 (R7). -/
  outCap : BitVec 28
  /-- `STRICT_CODE`: TBLW rejects a code that does not fit its length (R69). -/
  strictCode : Bool
  /-- `MASK_EXTRA_BIT`: SYM reproduces the reference's `length + 1` mask (R80). -/
  maskExtraBit : Bool
deriving DecidableEq, Repr

/-- The build that `State.reset` carries. STRICT_CODE and MASK_EXTRA_BIT are R7's defaults. R7 gives
OUT_CAP no default; 64 is the value the conventions of spec/95_test_vectors.md use.
DESIGN CHOICE, unsafe for a claim that rests on the number 64: notes/assumptions/1.md. -/
def Config.default : Config := { outCap := 64, strictCode := false, maskExtraBit := false }

/-- Free value: bits 7:0 of a read of `OUT[k]` with OUT_LEN ≤ k < OUT_CAP (R39), drawn afresh at each
read: its argument is the model's draw counter. Safe: notes/assumptions/3.md. -/
opaque Config.freeByte : Nat → BitVec 8

/-- Free value: the LEN bits of a TBL_LEN word whose entry has V = 0 (R27), drawn afresh at each read.
Safe: notes/assumptions/3.md. -/
opaque Config.freeLen : Nat → BitVec 6

/-- Free value: the TBL_CODE word of an entry with V = 0 (R27), drawn afresh at each read.
Safe: notes/assumptions/3.md. -/
opaque Config.freeCode : Nat → BitVec 32

/-- Free value: what output byte `k` holds while nothing has written it since reset (R35, entry 9 of
spec/93_implementation_defined.md). No state that satisfies R33 lets a command or a read see it.
Safe: notes/assumptions/4.md. -/
opaque Config.outUnwritten : Nat → BitVec 8

end Sys2Proof
end

