-- ==== Sys2Proof/Syntax.lean ====
section
/-! DEFINITION. The commands of HBA-1 (spec/30_encoding.md R57 to R60), one constructor per row of
spec/opcode_table.json, and the lines of the assembler's language (R64, R65). -/

namespace Sys2Proof

/-- A command of HBA-1. Each operand has exactly its field's width (R58, R59), so every term is a
command that some word encodes. -/
inductive Instr where
  /-- `nop` (R87). -/
  | nop
  /-- `tblw idx, len, code`: write one table entry (R68). -/
  | tblw (idx : BitVec 8) (len : BitVec 6) (code : BitVec 32)
  /-- `start`: open an encode call (R76). -/
  | start
  /-- `sym byte`: append the code of one input byte (R77). -/
  | sym (byte : BitVec 8)
  /-- `fin`: pad with ones and close the call (R81). -/
  | fin
  /-- `clr`: clear the fault record and the call in progress (R88). -/
  | clr
deriving DecidableEq, Repr

/-- One line of assembler source: operands are numbers as they were written, so that one out of range
can be told and refused (R64). The last two are the pseudo-instructions of R65. -/
inductive AsmLine where
  | nop
  | tblw (idx len code : Nat)
  | start
  | sym (byte : Nat)
  | fin
  | clr
  /-- `new <L0..L255>, <C0..C255>`. -/
  | newTable (lens codes : List Nat)
  /-- `encode <b1>, ..., <bn>`. -/
  | encodeCall (bytes : List Nat)
deriving DecidableEq, Repr

end Sys2Proof
end

