-- ==== Sys2Proof/WellFormed.lean ====
section
/-! DEFINITION. The checks that refuse a term before anything runs: the legal build parameters (R7)
and the operand ranges of the assembler's language (R64, R65; entries 6 and 7 of
spec/93_implementation_defined.md). `Instr` needs no check of its own: its operand types are exactly
as wide as their fields. -/

namespace Sys2Proof

/-- R7: 1 ≤ OUT_CAP ≤ 2^28 - 1. The upper bound is the type's. -/
def Config.wf (c : Config) : Bool := decide (1 ≤ c.outCap.toNat)

/-- A table index or an input byte: 0..255 (R64). -/
def wfByte (n : Nat) : Bool := decide (n < 256)

/-- A code length: 0..63 (R64). -/
def wfLen (n : Nat) : Bool := decide (n < 64)

/-- A code value: 0..2^32 - 1 (R64). -/
def wfCode (n : Nat) : Bool := decide (n < 4294967296)

/-- R64: an operand out of range is an assembler error. R65: `new` takes 256 lengths and 256 codes. -/
def AsmLine.wf : AsmLine → Bool
  | .nop => true
  | .tblw idx len code => wfByte idx && wfLen len && wfCode code
  | .start => true
  | .sym byte => wfByte byte
  | .fin => true
  | .clr => true
  | .newTable lens codes =>
    decide (lens.length = 256) && decide (codes.length = 256) && lens.all wfLen && codes.all wfCode
  | .encodeCall bytes => bytes.all wfByte

end Sys2Proof
end

