-- ==== Sys2Proof/Decode.lean ====
section
/-! DEFINITION. The binary encoding of HBA-1 (spec/30_encoding.md): the field extractors of R58, the
total decoder of R61, the encoder, the opcode map of R60, and the assembler's expansion of a source
line into command words (R64, R65). -/

namespace Sys2Proof

/-! The fields of a command word (R58). -/

/-- `OP = w[63:60]`. -/
def fieldOp (w : CmdWord) : BitVec 4 := w.extractLsb' 60 4
/-- `IDX = w[59:52]`. -/
def fieldIdx (w : CmdWord) : BitVec 8 := w.extractLsb' 52 8
/-- `LEN_F = w[51:46]`. -/
def fieldLen (w : CmdWord) : BitVec 6 := w.extractLsb' 46 6
/-- `CODE_F = w[31:0]`. -/
def fieldCode (w : CmdWord) : BitVec 32 := w.extractLsb' 0 32
/-- `BYTE = w[7:0]`. -/
def fieldByte (w : CmdWord) : BitVec 8 := w.extractLsb' 0 8
/-- `RSV = w[59:0]` in format N. -/
def fieldRsvN (w : CmdWord) : BitVec 60 := w.extractLsb' 0 60
/-- `RSV = w[45:32]` in format T. -/
def fieldRsvT (w : CmdWord) : BitVec 14 := w.extractLsb' 32 14
/-- `RSV = w[59:8]` in format S. -/
def fieldRsvS (w : CmdWord) : BitVec 52 := w.extractLsb' 8 52

/-- Why a word is illegal (R62). -/
inductive Illegal where
  /-- Opcode 0x6 to 0xF. -/
  | reservedOpcode
  /-- Opcode 0x0 to 0x5 with a reserved field that is not 0. -/
  | reservedBits
deriving DecidableEq, Repr

/-- The result of decoding a word: a command, or R61's ILLEGAL with its reason. -/
inductive Decoded where
  | cmd (i : Instr)
  | illegal (why : Illegal)
deriving DecidableEq, Repr

/-- A command of format N: the reserved bits 59:0 must be 0 (R57). -/
def decodeN (i : Instr) (w : CmdWord) : Decoded :=
  if fieldRsvN w = 0 then .cmd i else .illegal .reservedBits

/-- Format T: the reserved bits 45:32 must be 0 (R57). -/
def decodeT (w : CmdWord) : Decoded :=
  if fieldRsvT w = 0 then .cmd (.tblw (fieldIdx w) (fieldLen w) (fieldCode w)) else .illegal .reservedBits

/-- Format S: the reserved bits 59:8 must be 0 (R57). -/
def decodeS (w : CmdWord) : Decoded :=
  if fieldRsvS w = 0 then .cmd (.sym (fieldByte w)) else .illegal .reservedBits

/-- R61: decoding is total on every 64-bit word, and the same in every state (R63). -/
def decode (w : CmdWord) : Decoded :=
  match (fieldOp w).toNat with
  | 0 => decodeN .nop w
  | 1 => decodeT w
  | 2 => decodeN .start w
  | 3 => decodeS w
  | 4 => decodeN .fin w
  | 5 => decodeN .clr w
  | _ => .illegal .reservedOpcode

/-- The one word of a command: its fields in the order of R57, every reserved bit 0. -/
def encode : Instr → CmdWord
  | .nop => 0x0#4 ++ 0#60
  | .tblw idx len code => 0x1#4 ++ idx ++ len ++ 0#14 ++ code
  | .start => 0x2#4 ++ 0#60
  | .sym byte => 0x3#4 ++ 0#52 ++ byte
  | .fin => 0x4#4 ++ 0#60
  | .clr => 0x5#4 ++ 0#60

/-- A row of the opcode map (R60). -/
structure OpRow where
  mnemonic : String
  mask : CmdWord
  pattern : CmdWord
deriving DecidableEq, Repr

/-- The opcode map of R60: a word selects a row when `(w & mask) = match`. -/
def opcodeMap : List OpRow :=
  [ ⟨"NOP", 0xFFFFFFFFFFFFFFFF#64, 0x0000000000000000#64⟩,
    ⟨"TBLW", 0xF0003FFF00000000#64, 0x1000000000000000#64⟩,
    ⟨"START", 0xFFFFFFFFFFFFFFFF#64, 0x2000000000000000#64⟩,
    ⟨"SYM", 0xFFFFFFFFFFFFFF00#64, 0x3000000000000000#64⟩,
    ⟨"FIN", 0xFFFFFFFFFFFFFFFF#64, 0x4000000000000000#64⟩,
    ⟨"CLR", 0xFFFFFFFFFFFFFFFF#64, 0x5000000000000000#64⟩ ]

/-- R60: `w` selects the row. -/
def OpRow.selects (r : OpRow) (w : CmdWord) : Bool := (w &&& r.mask) == r.pattern

/-- The mnemonic of a command, as spec/opcode_table.json spells it. -/
def mnemonicOf : Instr → String
  | .nop => "NOP"
  | .tblw _ _ _ => "TBLW"
  | .start => "START"
  | .sym _ => "SYM"
  | .fin => "FIN"
  | .clr => "CLR"

/-- The instruction read from a word given as the opcode table numbers its bits: bit 0 least
significant, all bits from `nbits` up 0. A command is one whole 64-bit word with no byte order (R43,
R56), so the number is the word. -/
def decodeTableWord (nbits w : Nat) : Option Instr :=
  match decode (BitVec.ofNat 64 (w % 2 ^ nbits)) with
  | .cmd i => some i
  | .illegal _ => none

/-! The assembler (R64, R65): from a line's operands to command words. -/

/-- The 256 `tblw i, Li, Ci` of R65's `new`, from index `i` on. -/
def newTableCommands : Nat → List Nat → List Nat → List Instr
  | i, l :: ls, c :: cs =>
    .tblw (BitVec.ofNat 8 i) (BitVec.ofNat 6 l) (BitVec.ofNat 32 c) :: newTableCommands (i + 1) ls cs
  | _, _, _ => []

/-- R65's `encode`: `start`, one `sym` per byte in order, `fin` (R6). -/
def callCommands (bytes : List Byte) : List Instr :=
  .start :: (bytes.map Instr.sym ++ [.fin])

/-- The commands of a line whose operands are in range. -/
def AsmLine.commands : AsmLine → List Instr
  | .nop => [.nop]
  | .tblw idx len code => [.tblw (BitVec.ofNat 8 idx) (BitVec.ofNat 6 len) (BitVec.ofNat 32 code)]
  | .start => [.start]
  | .sym byte => [.sym (BitVec.ofNat 8 byte)]
  | .fin => [.fin]
  | .clr => [.clr]
  | .newTable lens codes => newTableCommands 0 lens codes
  | .encodeCall bytes => callCommands (bytes.map (BitVec.ofNat 8))

/-- R64: the words a line assembles to; an operand out of range is an error and produces no word. -/
def assemble (l : AsmLine) : Option (List CmdWord) :=
  if l.wf then some (l.commands.map encode) else none

end Sys2Proof
end

