-- ==== Sys2Proof/Machine/State.lean ====
section
/-! DEFINITION. The state of the HBA (spec/10_state.md R13, R34, R35), the transactions the host may
put to its three run-time interfaces (R14), and the reasons a step can stop. -/

namespace Sys2Proof.Machine

/-- `STATE`, the sequencing state (R22). -/
inductive SeqState where
  | idle
  | active
  | done
  | fault
deriving DecidableEq, Repr

/-- The fault codes a command can raise (R91). -/
inductive ErrCode where
  /-- `E_ILL`: reserved opcode or non-zero reserved bits (R92). -/
  | ill
  /-- `E_SEQ`: the command is not legal in the current STATE (R93). -/
  | seq
  /-- `E_NOENT`: the entry a SYM uses was never written (R94). -/
  | noent
  /-- `E_CODE`: the code does not fit its length, STRICT_CODE = 1 (R95). -/
  | code
  /-- `E_OVF`: the output would pass OUT_CAP (R96). -/
  | ovf
  /-- `E_COMPAT`: extra mask bit with no earlier stream bit, MASK_EXTRA_BIT = 1 (R97). -/
  | compat
deriving DecidableEq, Repr

/-- What a written table entry holds (R28). Its `V` bit is that the table lists it. -/
structure TblEntry where
  len : BitVec 6
  code : BitVec 32
deriving DecidableEq, Repr

/-- Cells by index, strictly rising, a cell listed exactly when something has written it since reset. -/
abbrev Cells (α : Type) := List (Nat × α)

/-- The code table `TBL` (R28): entry `i` has `V = 1` exactly when index `i` is listed (R54); the LEN
and CODE of an entry that is not listed are unspecified (R35) and so are not held. -/
abbrev Table := Cells TblEntry

/-- The output buffer `OUT` (R31): byte index and byte. A byte that is not listed has not been written
since reset and is unspecified (R35). -/
abbrev Memory := List Host.Cell

/-- One transaction of the host on an interface of the block (R14). -/
inductive Transaction where
  /-- The command port: deliver one command word. -/
  | command (w : CmdWord)
  /-- The read port: read the word at a word address (R37). -/
  | read (addr : ReadWord)
  /-- The reset interface (R111). -/
  | reset
deriving DecidableEq, Repr

/-- The machine. The first block is R13's state, the second its build parameters (R7), the third the
ghost bit of R34, the fourth the host's side: R21's index into the command sequence, the transactions
the host has put to the block and it has not yet taken, and the words the read port has returned. The
last is the model's own counter of free draws (R39), no state of the block. -/
@[ext]
structure State where
  /-- `TBL[0..255]` (R28). -/
  tbl : Table
  /-- `STATE` (R22). -/
  state : SeqState
  /-- `ERR` (R23). -/
  err : BitVec 4
  /-- `ERRCMD` (R24). -/
  errcmd : CmdWord
  /-- `ACC`, the residual bits (R16). -/
  acc : BitVec 7
  /-- `NBITS`, how many bits of ACC are valid (R17). -/
  nbits : BitVec 3
  /-- `TOTAL`, data bits appended in the call (R18). -/
  total : BitVec 32
  /-- `PAD`, padding bits FIN appended (R19). -/
  pad : BitVec 3
  /-- `OUT_LEN`, bytes of the call written to OUT (R20). -/
  outLen : BitVec 32
  /-- `OUT[0..OUT_CAP-1]` (R31). -/
  out : Memory
  /-- The build parameters (R7, R13). -/
  cfg : Config
  /-- The ghost bit `faulted` (R34). -/
  faulted : Bool
  /-- The host's index into its sequence of command words (R21). -/
  pc : Nat
  /-- The host's transactions not yet performed, the next first (R14). -/
  port : List Transaction
  /-- The words the read port has returned, the oldest first (R37). -/
  replies : List ReadWord
  /-- How many free draws reads have taken; the model's own. -/
  draws : Nat
deriving DecidableEq, Repr

/-- Why the machine stops with a fault. None of these is a fault of the block: the faults of
spec/60_exceptions.md lead to a next state (R100). -/
inductive Fault where
  /-- Raised by SYM with MASK_EXTRA_BIT = 1 where R77 names `OUT[OUT_LEN - 1]` while OUT_LEN = 0, a byte
  index that does not exist. R33 (I4) rules such a state out. Safe: the model stops. -/
  | outIndexMissing
deriving DecidableEq, Repr

/-- Why the model gives an instruction no meaning. -/
inductive Refusal where
  /-- Raised by the arm of an instruction that has no meaning yet. Safe: the model stops. No arm of
  this model raises it. -/
  | notModelled (mnemonic : String)
deriving DecidableEq, Repr

/-- The outcome of a step of this machine. -/
abbrev Result := Host.Outcome State Fault Refusal

/-- The machine right after reset, for a given build (R35): IDLE, no fault recorded, every table entry
with V = 0, every output byte unspecified, and no transaction yet. -/
def State.resetWith (c : Config) : State :=
  { tbl := []
    state := .idle
    err := 0
    errcmd := 0
    acc := 0
    nbits := 0
    total := 0
    pad := 0
    outLen := 0
    out := []
    cfg := c
    faulted := false
    pc := 0
    port := []
    replies := []
    draws := 0 }

/-- The machine right after reset, built with `Config.default`. -/
def State.reset : State := State.resetWith Config.default

end Sys2Proof.Machine
end

