-- ==== Sys2Proof/Machine/Ops.lean ====
section
/-! DEFINITION. The named operations over the state: cells by index (the output buffer and the code
table), the append primitive, fault entry and the return from a fault, and taking the host's next
transaction. -/

namespace Sys2Proof.Machine

/-! Cells by index. -/

/-- What is listed at `k`; nothing where no write has gone there since reset. -/
def cellRead {α : Type} : Cells α → Nat → Option α
  | [], _ => none
  | (a, v) :: rest, k => if a = k then some v else cellRead rest k

/-- Write `v` at `k`, keeping the list strictly rising. -/
def cellWrite {α : Type} : Cells α → Nat → α → Cells α
  | [], k, v => [(k, v)]
  | (a, u) :: rest, k, v =>
    if k < a then (k, v) :: (a, u) :: rest
    else if k = a then (k, v) :: rest
    else (a, u) :: cellWrite rest k v

/-- The canonical form: indices strictly rising. -/
abbrev cellsWf {α : Type} (m : Cells α) : Prop := m.Pairwise (fun p q => p.1 < q.1)

/-- The canonical form of the output buffer. No entry can equal what an unlisted byte reads as, since
an unlisted byte reads as no stated value. -/
abbrev Memory.wf (m : Memory) : Prop := cellsWf m

/-- The byte `OUT[k]`: the one written there, else the unspecified byte of R35. -/
def outByte (s : State) (k : Nat) : Byte := (cellRead s.out k).getD (Config.outUnwritten k)

/-- `OUT[k] <- v` (R11). -/
def setOut (k : Nat) (v : Byte) (s : State) : State := { s with out := cellWrite s.out k v }

/-- `TBL[idx]`: the entry that the last TBLW to `idx` wrote, or nothing (V = 0) where none has run since
reset (R54). -/
def tblEntry (s : State) (idx : Byte) : Option TblEntry := cellRead s.tbl idx.toNat

/-- `TBL[idx] <- (V = 1, LEN, CODE)` (R68). -/
def setTbl (idx : Byte) (e : TblEntry) (s : State) : State :=
  { s with tbl := cellWrite s.tbl idx.toNat e }

/-- R55: `OUT[OUT_LEN] <- v; OUT_LEN <- OUT_LEN + 1`. The capacity check stands before the first
`emit` of a command (R96). -/
def emit (v : Byte) (s : State) : State :=
  { setOut s.outLen.toNat v s with outLen := s.outLen + 1 }

/-- Several bytes, in order. -/
def emitAll : List Byte → State → State
  | [], s => s
  | v :: vs, s => emitAll vs (emit v s)

/-! Taking a fault and returning from one. -/

/-- The number of a fault code in `ERR` (R91). -/
def errBits : ErrCode → BitVec 4
  | .ill => 1
  | .seq => 2
  | .noent => 3
  | .code => 4
  | .ovf => 5
  | .compat => 6

/-- R100: `raise E_X(w)`. Exactly STATE, ERR, ERRCMD and the ghost bit change. -/
def raise (e : ErrCode) (w : CmdWord) (s : State) : State :=
  { s with state := .fault, err := errBits e, errcmd := w, faulted := true }

/-- The datapath at the beginning of a call (R76) and after CLR (R88): every register 0. OUT keeps its
bytes, which are stale from here on (R39). -/
def clearCall (s : State) : State :=
  { s with acc := 0, nbits := 0, total := 0, pad := 0, outLen := 0 }

/-- R88, R102: the way out of FAULT and out of a call. The table and the ghost bit are kept. -/
def clearToIdle (s : State) : State :=
  { clearCall s with state := .idle, err := 0, errcmd := 0 }

/-- R111: a reset transaction puts every piece of the block's state to its value of R35. The build
parameters are not changed, and the host's side is not the block's. -/
def resetBlock (s : State) : State :=
  { clearToIdle s with tbl := [], out := [], faulted := false }

/-! The host's side. -/

/-- The host's next transaction, and the state in which the block performs it. A command advances R21's
index by one as it is delivered, whatever then becomes of it. -/
def takeTransaction (s : State) : Option (Transaction × State) :=
  match s.port with
  | [] => none
  | .command w :: rest => some (.command w, { s with port := rest, pc := s.pc + 1 })
  | .read addr :: rest => some (.read addr, { s with port := rest })
  | .reset :: rest => some (.reset, { s with port := rest })

end Sys2Proof.Machine
end

