-- ==== Sys2Proof/Machine/Operands.lean ====
section
/-! DEFINITION. The arithmetic of the datapath (spec/41_encode.md R77 to R82) on unbounded naturals,
as R11 has it: the masked code, the extra mask bit, the barrel shifter's word, its octets and
residual, and the padding. -/

namespace Sys2Proof.Machine

/-- `mask(n) = 2^n - 1` (R11). -/
def mask (n : Nat) : Nat := 2 ^ n - 1

/-- `v[lo + width - 1 : lo]`, 0 when the width is 0 (R9). -/
def slice (v lo width : Nat) : Nat := v / 2 ^ lo % 2 ^ width

/-- `m <- zext_64(e.CODE) & mask(L)` (R77). -/
def maskedCode (e : TblEntry) : Nat := e.code.toNat &&& mask e.len.toNat

/-- `x`, the extra mask bit: `e.CODE[L]` when MASK_EXTRA_BIT = 1, and 0 for L ≥ 32 (R77). -/
def extraBit (c : Config) (e : TblEntry) : Bool := c.maskExtraBit && e.code.getLsbD e.len.toNat

/-- `W <- (a << L) | m` (R77, R78). -/
def shifterWord (a len m : Nat) : Nat := (a <<< len) ||| m

/-- Octet `j` of an `n`-bit word, most significant first: `W[n-1-8j : n-8-8j]` (R77). -/
def octet (w n j : Nat) : Byte := BitVec.ofNat 8 (slice w (n - 8 - 8 * j) 8)

/-- The `n div 8` whole octets of an `n`-bit word, in the order they are emitted (R77). -/
def octets (w n : Nat) : List Byte := (List.range (n / 8)).map (octet w n)

/-- `W[NBITS-1 : 0]` with NBITS = n mod 8, the residual (R77). -/
def residual (w n : Nat) : BitVec 7 := BitVec.ofNat 7 (slice w 0 (n % 8))

/-- `p <- (8 - NBITS) mod 8` (R81). -/
def padCount (nbits : BitVec 3) : Nat := (8 - nbits.toNat) % 8

/-- `((ACC << p) | mask(p))[7:0]` (R81). -/
def padByte (acc : BitVec 7) (p : Nat) : Byte := BitVec.ofNat 8 (slice ((acc.toNat <<< p) ||| mask p) 0 8)

end Sys2Proof.Machine
end

