-- ==== Sys2Proof/Machine/Flags.lean ====
section
/-! DEFINITION. The status the spec computes: which command is legal in which STATE (R93), the checks a
command makes in the order of R99, and the words the host reads the small registers through (R25,
R26). HBA-1 has no flag that a successful command sets (R23). -/

namespace Sys2Proof.Machine

/-- A cell of the legality table of R93. -/
inductive Legality where
  /-- The command is performed by its rule. -/
  | ok
  /-- The command raises `E_SEQ`. -/
  | errSeq
  /-- The command has no effect (R101). -/
  | ignored
deriving DecidableEq, Repr

/-- R93, row by row. -/
def legality : Instr → SeqState → Legality
  | .nop, .idle => .ok
  | .nop, .active => .ok
  | .nop, .done => .ok
  | .nop, .fault => .ignored
  | .tblw _ _ _, .idle => .ok
  | .tblw _ _ _, .active => .errSeq
  | .tblw _ _ _, .done => .ok
  | .tblw _ _ _, .fault => .ignored
  | .start, .idle => .ok
  | .start, .active => .errSeq
  | .start, .done => .ok
  | .start, .fault => .ignored
  | .sym _, .idle => .errSeq
  | .sym _, .active => .ok
  | .sym _, .done => .errSeq
  | .sym _, .fault => .ignored
  | .fin, .idle => .errSeq
  | .fin, .active => .ok
  | .fin, .done => .errSeq
  | .fin, .fault => .ignored
  | .clr, .idle => .ok
  | .clr, .active => .ok
  | .clr, .done => .ok
  | .clr, .fault => .ok

/-- The first checks of every command (R99, 1 to 3): ignored, refused with `E_SEQ`, or performed. The
command word that `E_SEQ` records is the one word that encodes the command. -/
def whenLegal (i : Instr) (s : State) (act : Result) : Result :=
  match legality i s.state with
  | .ok => act
  | .errSeq => .next (raise .seq (encode i) s)
  | .ignored => .next s

/-- The rest of a command: raise the fault its checks found, or perform it (R99: at most one fault). -/
def orRaise (f : Option ErrCode) (i : Instr) (s : State) (act : Result) : Result :=
  match f with
  | some e => .next (raise e (encode i) s)
  | none => act

/-- R69, R95: with STRICT_CODE = 1, the code does not fit its length. -/
def codeTooWide (len : BitVec 6) (code : BitVec 32) : Bool :=
  decide (len.toNat < 32) && code.toNat >>> len.toNat != 0

/-- TBLW's own check (R99, 4). -/
def tblwFault (len : BitVec 6) (code : BitVec 32) (s : State) : Option ErrCode :=
  if s.cfg.strictCode && codeTooWide len code then some .code else none

/-- R96: `k` more bytes would pass the buffer. -/
def bytesPassCap (s : State) (k : Nat) : Bool := decide (s.cfg.outCap.toNat < s.outLen.toNat + k)

/-- SYM's checks on its entry, in the order of R99, 5 and 6: the extra mask bit has a stream bit to go
to (R80), and the completed bytes fit (R96). -/
def symFault (e : TblEntry) (s : State) : Option ErrCode :=
  if extraBit s.cfg e && s.total == 0 then some .compat
  else if bytesPassCap s ((s.nbits.toNat + e.len.toNat) / 8) then some .ovf
  else none

/-- FIN's own check: a padded byte is needed and the buffer is full (R81, R96). -/
def finFault (s : State) : Option ErrCode :=
  if padCount s.nbits != 0 && bytesPassCap s 1 then some .ovf else none

/-! The packed register words (R25, R26). -/

/-- The number of a sequencing state (R22). -/
def stateBits : SeqState → BitVec 2
  | .idle => 0
  | .active => 1
  | .done => 2
  | .fault => 3

/-- STATUS (R25): bits 31:15, 11 and 3:2 read 0. -/
def statusWord (s : State) : ReadWord :=
  0#17 ++ s.pad ++ 0#1 ++ s.nbits ++ s.err ++ 0#2 ++ stateBits s.state

/-- CONFIG (R26): bit 0 STRICT_CODE, bit 1 MASK_EXTRA_BIT, bits 31:2 read 0. -/
def configWord (c : Config) : ReadWord :=
  0#30 ++ BitVec.ofBool c.maskExtraBit ++ BitVec.ofBool c.strictCode

end Sys2Proof.Machine
end

