-- ==== Sys2Proof/Machine/Construction.lean ====
section
/-! DEFINITION. Table construction: TBLW (spec/40_construction.md). -/

namespace Sys2Proof.Machine

/-- `tblw idx, len, code` (R68): write one table entry, in IDLE or DONE; with STRICT_CODE = 1 only a
code that fits (R69). Nothing else about the table is checked (R66). -/
def execTblw (idx : BitVec 8) (len : BitVec 6) (code : BitVec 32) (s : State) : Result :=
  whenLegal (.tblw idx len code) s
    (orRaise (tblwFault len code s) (.tblw idx len code) s (.next (setTbl idx ⟨len, code⟩ s)))

end Sys2Proof.Machine
end

