-- ==== Sys2Proof/Machine/Control.lean ====
section
/-! DEFINITION. Control: NOP and CLR (spec/42_control.md), and what performing an illegal word does
(R92). -/

namespace Sys2Proof.Machine

/-- `nop` (R87): no effect, in every state. -/
def execNop (s : State) : Result := whenLegal .nop s (.next s)

/-- `clr` (R88): back to IDLE from every state, FAULT among them; the table is kept. -/
def execClr (s : State) : Result := whenLegal .clr s (.next (clearToIdle s))

/-- A word that decodes as ILLEGAL raises `E_ILL` (R92), but in FAULT it is ignored (R101). -/
def execIllegal (w : CmdWord) (s : State) : Result :=
  match s.state with
  | .fault => .next s
  | .idle => .next (raise .ill w s)
  | .active => .next (raise .ill w s)
  | .done => .next (raise .ill w s)

end Sys2Proof.Machine
end

