-- ==== Sys2Proof/Machine/Encoding.lean ====
section
/-! DEFINITION. Encoding: START, SYM and FIN (spec/41_encode.md sections 2 to 4). -/

namespace Sys2Proof.Machine

/-- Open a call: clear the datapath, STATE <- ACTIVE (R76). -/
def openCall (s : State) : State := { clearCall s with state := .active }

/-- `start` (R76). -/
def execStart (s : State) : Result := whenLegal .start s (.next (openCall s))

/-- The extra mask bit, when it is 1, ORs 1 into stream position TOTAL - 1: `ACC[0]`, or bit 0 of
`OUT[OUT_LEN - 1]` when no bit is pending (R77, R80). -/
def applyExtraBit (x : Bool) (s : State) : Result :=
  if x = false then .next s
  else if s.nbits ≠ 0 then .next { s with acc := s.acc ||| 1 }
  else if s.outLen = 0 then .fault .outIndexMissing
  else .next (setOut (s.outLen.toNat - 1) (outByte s (s.outLen.toNat - 1) ||| 1) s)

/-- Append the `len` bits of the masked code `m`: shift, emit the whole octets, keep the residual, and
count the bits (R77, R78). -/
def appendCode (len m : Nat) (s : State) : State :=
  { emitAll (octets (shifterWord s.acc.toNat len m) (s.nbits.toNat + len)) s with
    nbits := BitVec.ofNat 3 ((s.nbits.toNat + len) % 8)
    acc := residual (shifterWord s.acc.toNat len m) (s.nbits.toNat + len)
    total := BitVec.ofNat 32 (s.total.toNat + len) }

/-- SYM's effect once every check has passed (R77, commit). -/
def commitSym (e : TblEntry) (s : State) : Result :=
  match applyExtraBit (extraBit s.cfg e) s with
  | .next s1 => .next (appendCode e.len.toNat (maskedCode e) s1)
  | .fault f => .fault f
  | .refused r => .refused r

/-- `sym byte` (R77): append the code of one input byte. The byte's entry must be written (R94); then
come the checks that use the entry. -/
def execSym (byte : BitVec 8) (s : State) : Result :=
  whenLegal (.sym byte) s
    (match tblEntry s byte with
    | none => .next (raise .noent (encode (.sym byte)) s)
    | some e => orRaise (symFault e s) (.sym byte) s (commitSym e s))

/-- FIN's effect once every check has passed: emit the padded byte if one is needed, clear the
residual, record the padding, STATE <- DONE (R81). -/
def closeCall (s : State) : State :=
  { (if padCount s.nbits = 0 then s else emit (padByte s.acc (padCount s.nbits)) s) with
    acc := 0
    nbits := 0
    pad := BitVec.ofNat 3 (padCount s.nbits)
    state := .done }

/-- `fin` (R81). -/
def execFin (s : State) : Result :=
  whenLegal .fin s (orRaise (finFault s) .fin s (.next (closeCall s)))

end Sys2Proof.Machine
end

