-- ==== Sys2Proof/Machine/Dispatch.lean ====
section
/-! DEFINITION. The meaning of every command of HBA-1, one arm per constructor of `Instr`. -/

namespace Sys2Proof.Machine

def exec (i : Instr) (s : State) : Host.Outcome State Fault Refusal :=
  match i with
  | .nop => Sys2Proof.Machine.execNop s
  | .tblw idx len code => Sys2Proof.Machine.execTblw idx len code s
  | .start => Sys2Proof.Machine.execStart s
  | .sym byte => Sys2Proof.Machine.execSym byte s
  | .fin => Sys2Proof.Machine.execFin s
  | .clr => Sys2Proof.Machine.execClr s

end Sys2Proof.Machine
end

