-- ==== Sys2Proof/Machine/ReadPort.lean ====
section
/-! DEFINITION. The read port (spec/20_memory.md R37 to R39): the read map, and a read transaction. -/

namespace Sys2Proof.Machine

/-- TBL_LEN[i] (R27): bit 31 is V, bits 30:6 read 0; LEN is a free draw while V = 0. -/
def tblLenWord (s : State) (i : Byte) : ReadWord :=
  match tblEntry s i with
  | some e => 1#1 ++ 0#25 ++ e.len
  | none => 0#1 ++ 0#25 ++ Config.freeLen s.draws

/-- TBL_CODE[i] (R27): a free draw while V = 0. -/
def tblCodeWord (s : State) (i : Byte) : ReadWord :=
  match tblEntry s i with
  | some e => e.code
  | none => Config.freeCode s.draws

/-- A word of the output window (R38, R39): `OUT[k]` of the current call, a free draw from OUT_LEN up
to OUT_CAP, and unmapped from there on. -/
def outWindowWord (s : State) (k : Nat) : ReadWord :=
  if s.cfg.outCap.toNat ≤ k then 0
  else if s.outLen.toNat ≤ k then 0#24 ++ Config.freeByte s.draws
  else 0#24 ++ outByte s k

/-- The register words at 0x0 to 0x7 (R25, R26). -/
def registerWord (s : State) : Nat → ReadWord
  | 0 => statusWord s
  | 1 => s.total
  | 2 => 0#25 ++ s.acc
  | 3 => s.outLen
  | 4 => s.errcmd.extractLsb' 0 32
  | 5 => s.errcmd.extractLsb' 32 32
  | 6 => configWord s.cfg
  | 7 => 0#4 ++ s.cfg.outCap
  | _ => 0

/-- The read map of R38: the word at a word address in the current state; an unmapped address reads 0. -/
def readWord (s : State) (addr : ReadWord) : ReadWord :=
  if addr.toNat < 0x100 then registerWord s addr.toNat
  else if addr.toNat < 0x200 then tblLenWord s (BitVec.ofNat 8 (addr.toNat - 0x100))
  else if addr.toNat < 0x300 then tblCodeWord s (BitVec.ofNat 8 (addr.toNat - 0x200))
  else if addr.toNat < 0x10000000 then 0
  else outWindowWord s (addr.toNat - 0x10000000)

/-- A read transaction returns one word of the read map and changes nothing of the block (R14, R37).
The model's counter moves on, so that the next read draws afresh (R39). -/
def serveRead (addr : ReadWord) (s : State) : State :=
  { s with replies := s.replies ++ [readWord s addr], draws := s.draws + 1 }

end Sys2Proof.Machine
end

