-- ==== Sys2Proof/Machine/CommandPort.lean ====
section
/-! DEFINITION. What the block does with one transaction of the host (R14), as one atomic step (R46). -/

namespace Sys2Proof.Machine

/-- Perform one delivered command word: decode it (R61, the same in every state: R63) and execute the
command, or take an illegal word as R92 and R101 say. -/
def performWord (w : CmdWord) (s : State) : Result :=
  match decode w with
  | .cmd i => exec i s
  | .illegal _ => execIllegal w s

/-- Perform one transaction. -/
def perform : Transaction → State → Result
  | .command w, s => performWord w s
  | .read addr, s => .next (serveRead addr s)
  | .reset, s => .next (resetBlock s)

/-- The transaction that delivers a word given as the opcode table numbers its bits. -/
def deliverTableWord (nbits w : Nat) : Transaction := .command (BitVec.ofNat 64 (w % 2 ^ nbits))

end Sys2Proof.Machine
end

