-- ==== Sys2Proof/Machine/Step.lean ====
section
/-! DEFINITION. One step of the machine: the block performs the host's next transaction, in the order
delivered, each exactly once and to its end before the next (R14, R49). -/

namespace Sys2Proof.Machine

/-- One step. With no transaction waiting the block holds its state (R110, R119). -/
def step (s : State) : Host.Outcome State Fault Refusal :=
  match takeTransaction s with
  | none => .next s
  | some (t, s1) => perform t s1

/-- `s` with the given command word delivered as the host's next transaction. HBA fetches nothing (R21):
the word stands before whatever else the host has put to the ports. -/
def State.withFetchWord (s : State) (nbits w : Nat) : State :=
  { s with port := deliverTableWord nbits w :: s.port }

end Sys2Proof.Machine
end

