-- ==== Sys2Proof/Machine/Assembler.lean ====
section
/-! DEFINITION. The assembler's text (spec/30_encoding.md R64, R65): one command a line, lower-case
mnemonics, operands separated by commas, `;` begins a comment. -/

namespace Sys2Proof.Machine

/-- A blank of the text: space or tab. -/
def isBlank (c : Char) : Bool := c == ' ' || c == '\t'

/-- A line without its comment (R64). A `;` between quotes is a character literal, not a comment.
DESIGN CHOICE, safe: notes/assumptions/7.md. -/
def stripComment : List Char → List Char
  | [] => []
  | '\'' :: c :: '\'' :: rest => '\'' :: c :: '\'' :: stripComment rest
  | ';' :: _ => []
  | c :: rest => c :: stripComment rest

/-- The text between commas; a comma between quotes is a character literal. -/
def splitCommas : List Char → List Char → List (List Char)
  | field, [] => [field.reverse]
  | field, '\'' :: c :: '\'' :: rest => splitCommas ('\'' :: c :: '\'' :: field) rest
  | field, ',' :: rest => field.reverse :: splitCommas [] rest
  | field, c :: rest => splitCommas (c :: field) rest

/-- Without blanks at either end. -/
def trimBlanks (cs : List Char) : List Char :=
  ((cs.dropWhile isBlank).reverse.dropWhile isBlank).reverse

/-- The value of a digit. Both cases of a hexadecimal digit are read (notes/assumptions/7.md). -/
def digitValue (c : Char) : Option Nat :=
  if 48 ≤ c.toNat ∧ c.toNat ≤ 57 then some (c.toNat - 48)
  else if 65 ≤ c.toNat ∧ c.toNat ≤ 70 then some (c.toNat - 55)
  else if 97 ≤ c.toNat ∧ c.toNat ≤ 102 then some (c.toNat - 87)
  else none

/-- Digits in a base, continuing from `acc`. -/
def readDigits (base : Nat) : Nat → List Char → Option Nat
  | acc, [] => some acc
  | acc, c :: cs =>
    match digitValue c with
    | some d => if d < base then readDigits base (base * acc + d) cs else none
    | none => none

/-- At least one digit in a base. -/
def readNonempty (base : Nat) (cs : List Char) : Option Nat :=
  if cs.isEmpty then none else readDigits base 0 cs

/-- A number: a quoted character for its ASCII code, `0x` hexadecimal, `0b` binary, else decimal (R64).
That a quoted character stands for its ASCII code is PRESUMED: notes/assumptions/7.md. -/
def readNumber (cs : List Char) : Option Nat :=
  match cs with
  | ['\'', c, '\''] => if c.toNat < 128 then some c.toNat else none
  | '0' :: 'x' :: ds => readNonempty 16 ds
  | '0' :: 'b' :: ds => readNonempty 2 ds
  | ds => readNonempty 10 ds

/-- All of a list's numbers, or none if one of them is not a number. -/
def readNumbers : List (List Char) → Option (List Nat)
  | [] => some []
  | f :: fs =>
    match readNumber (trimBlanks f), readNumbers fs with
    | some n, some ns => some (n :: ns)
    | _, _ => none

/-- The operands after a mnemonic: none at all, or numbers separated by commas. -/
def readOperands (cs : List Char) : Option (List Nat) :=
  if (trimBlanks cs).isEmpty then some [] else readNumbers (splitCommas [] (trimBlanks cs))

/-- The line that a mnemonic and its operands make (R64, R65); nothing for a mnemonic there is not, or
the wrong number of operands. -/
def buildLine (m : List Char) (ops : List Nat) : Option AsmLine :=
  if m = "nop".toList ∧ ops = [] then some .nop
  else if m = "start".toList ∧ ops = [] then some .start
  else if m = "fin".toList ∧ ops = [] then some .fin
  else if m = "clr".toList ∧ ops = [] then some .clr
  else if m = "encode".toList then some (.encodeCall ops)
  else if m = "new".toList ∧ ops.length = 512 then some (.newTable (ops.take 256) (ops.drop 256))
  else if m = "sym".toList then
    match ops with
    | [b] => some (.sym b)
    | _ => none
  else if m = "tblw".toList then
    match ops with
    | [i, l, c] => some (.tblw i l c)
    | _ => none
  else none

/-- The words of one line of text: none for a line with no command, and an error (no value) for a line
that is not of the language or whose operand is out of range (R64). -/
def assembleLine (line : List Char) : Option (List CmdWord) :=
  let text := trimBlanks (stripComment line)
  if text.isEmpty then some []
  else
    match readOperands (text.dropWhile (fun c => !isBlank c)) with
    | none => none
    | some ops =>
      match buildLine (text.takeWhile (fun c => !isBlank c)) ops with
      | none => none
      | some l => assemble l

/-- The words of a source text, line by line; an error in any line is an error of the whole. -/
def assembleSource : List (List Char) → Option (List CmdWord)
  | [] => some []
  | line :: lines =>
    match assembleLine line, assembleSource lines with
    | some ws, some rest => some (ws ++ rest)
    | _, _ => none

end Sys2Proof.Machine
end

