-- ==== Sys2Proof/Machine/Stream.lean ====
section
/-! DEFINITION. The ghost stream of a call (spec/10_state.md R32) in the bit strings of R10, and the
bit-serial form of SYM and FIN (spec/41_encode.md R79). -/

namespace Sys2Proof.Machine

/-- `bits_n(v)`: the low `n` bits of `v`, most significant first (R10). -/
def bitsOf : Nat → Nat → List Bool
  | 0, _ => []
  | n + 1, v => v.testBit n :: bitsOf n v

/-- `val(s)`: the integer whose big-endian rendering is `s` (R10). -/
def valOf (s : List Bool) : Nat := s.foldl (fun v b => 2 * v + b.toNat) 0

/-- `OUT[0 .. OUT_LEN-1]`, the completed bytes of the current call (R31). -/
def outBytes (s : State) : List Byte := (List.range s.outLen.toNat).map (outByte s)

/-- The bits of a byte sequence in stream order: bit 7 of each byte first (R41). -/
def byteBits (bs : List Byte) : List Bool := bs.flatMap (fun b => bitsOf 8 b.toNat)

/-- The ghost stream `S` of R32: the completed bytes, then the pending bits (R42). -/
def stream (s : State) : List Bool := byteBits (outBytes s) ++ bitsOf s.nbits.toNat s.acc.toNat

/-- `S` with 1 at its last position: what the extra mask bit does (R80). -/
def withLastOne : List Bool → List Bool
  | [] => []
  | [_] => [true]
  | b :: c :: rest => b :: withLastOne (c :: rest)

/-- `pushbit(b)` of R79: ACC takes one bit, and a completed octet goes out. -/
def pushBit (b : Bool) (s : State) : State :=
  if s.nbits = 7 then
    { emit (BitVec.ofNat 8 (2 * s.acc.toNat + b.toNat)) s with acc := 0, nbits := 0 }
  else { s with acc := BitVec.ofNat 7 (2 * s.acc.toNat + b.toNat), nbits := s.nbits + 1 }

/-- Push several bits, the first in stream order first. -/
def pushBits : List Bool → State → State
  | [], s => s
  | b :: bs, s => pushBits bs (pushBit b s)

/-- SYM's append, bit by bit from `m[L-1]` down to `m[0]` (R79). -/
def serialAppend (len m : Nat) (s : State) : State :=
  { pushBits (bitsOf len m) s with total := BitVec.ofNat 32 (s.total.toNat + len) }

/-- FIN, as `p` pushes of 1 (R79). -/
def serialClose (s : State) : State :=
  { pushBits (List.replicate (padCount s.nbits) true) s with
    pad := BitVec.ofNat 3 (padCount s.nbits)
    state := .done }

end Sys2Proof.Machine
end

