-- ==== Sys2Proof/Machine/Reference.lean ====
section
/-! DEFINITION. The source's encode function (spec/41_encode.md section 1), which every observable
result of the block is defined by, on unbounded naturals and independent of the machine's state. -/

namespace Sys2Proof.Machine

/-- The running total-bit-length of a byte sequence under table `T` (R70, step 3). -/
def totalBits (T : Byte → TblEntry) : List Byte → Nat
  | [] => 0
  | b :: bs => (T b).len.toNat + totalBits T bs

/-- R70's steps 1 and 2 for one byte. `extra` widens the mask by one bit: R72's variant. -/
def refStep (extra : Bool) (T : Byte → TblEntry) (acc : Nat) (b : Byte) : Nat :=
  (acc <<< (T b).len.toNat) ||| ((T b).code.toNat &&& mask ((T b).len.toNat + extra.toNat))

/-- The accumulator after the whole input, before padding (R70, R72). -/
def refAcc (extra : Bool) (T : Byte → TblEntry) (input : List Byte) : Nat :=
  input.foldl (refStep extra T) 0

/-- `padding <- (8 - (total mod 8)) mod 8` (R70). -/
def refPadding (total : Nat) : Nat := (8 - total % 8) % 8

/-- The accumulator after padding with one-bits (R70). -/
def refPaddedAcc (extra : Bool) (T : Byte → TblEntry) (input : List Byte) : Nat :=
  (refAcc extra T input <<< refPadding (totalBits T input)) ||| mask (refPadding (totalBits T input))

/-- `total_bytes`: the padded length in bytes (R70). -/
def totalBytes (total : Nat) : Nat := (total + refPadding total) / 8

/-- The `n`-byte big-endian rendering of `v`, zero-extended on the left (R70, R73). Of a `v` that does
not fit in `n` bytes the spec gives no rendering, and none is used. -/
def render (n v : Nat) : List Byte := (List.range n).map (fun j => BitVec.ofNat 8 (v / 256 ^ (n - 1 - j)))

/-- `Encode(T, input)` (R70), and with `extra` R72's `Encode⁺`. -/
def encodeRef (extra : Bool) (T : Byte → TblEntry) (input : List Byte) : List Byte :=
  match input with
  | [] => []
  | b :: bs => render (totalBytes (totalBits T (b :: bs))) (refPaddedAcc extra T (b :: bs))

/-- The first SYM of a call whose completed bytes pass the capacity, counting from `total` bits, else
FIN: where R83 says a call that does not fit faults. -/
def firstPastCap (cap : Nat) (T : Byte → TblEntry) : Nat → List Byte → Instr
  | _, [] => .fin
  | total, b :: bs =>
    if cap < (total + (T b).len.toNat) / 8 then .sym b else firstPastCap cap T (total + (T b).len.toNat) bs

end Sys2Proof.Machine
end

