-- ==== Sys2Proof/Safety.lean ====
section
/-! DEFINITION. The terms claims are stated in: runs and observations (spec/70_reset_and_hazards.md
R118), the invariants of every reachable state (spec/10_state.md R33), and what counts as a run
without fault (R34). -/

namespace Sys2Proof.Machine

/-- The host delivers one command word, nothing else being in the way, and the block performs it. -/
def deliver (w : CmdWord) (s : State) : Result := step { s with port := [.command w] }

/-- A run (R118): a finite list of command words delivered in order, each when the one before it has
been performed (R14). -/
def runWords : List CmdWord → State → Result
  | [], s => .next s
  | w :: ws, s =>
    match deliver w s with
    | .next t => runWords ws t
    | .fault f => .fault f
    | .refused r => .refused r

/-- The words of one encode call (R6): START, a SYM for each input byte, FIN. -/
def callWords (input : List Byte) : List CmdWord := (callCommands input).map encode

/-- The observation of a run (R118). An entry of the table is observed when its V is 1. -/
structure Observation where
  state : SeqState
  err : BitVec 4
  errcmd : CmdWord
  total : BitVec 32
  pad : BitVec 3
  outLen : BitVec 32
  bytes : List Byte
  entries : List (Option TblEntry)
  faulted : Bool
deriving DecidableEq, Repr

/-- What R118 observes of a state. -/
def observe (s : State) : Observation :=
  { state := s.state
    err := s.err
    errcmd := s.errcmd
    total := s.total
    pad := s.pad
    outLen := s.outLen
    bytes := outBytes s
    entries := (List.range 256).map (cellRead s.tbl)
    faulted := s.faulted }

/-- The end of a run without fault: a finished call, and no fault that a CLR could have hidden (R34). -/
def cleanEnd (o : Observation) : Prop := o.faulted = false ∧ o.state = .done

/-- The digits of R64's numbers, in order of value. -/
def digitChars : List Char :=
  ['0', '1', '2', '3', '4', '5', '6', '7', '8', '9', 'a', 'b', 'c', 'd', 'e', 'f']

/-- `ds` are digits of a base and spell `n` in it, the most significant first; a hexadecimal digit may be
a capital (DESIGN CHOICE: notes/assumptions/7.md). -/
def SpellsDigits (base : Nat) (ds : List Char) (n : Nat) : Prop :=
  ds ≠ [] ∧ (∀ c ∈ ds, c.toLower ∈ digitChars.take base) ∧
    n = ds.foldl (fun v c => base * v + digitChars.idxOf c.toLower) 0

/-- The forms in which R64 lets a number be written. That a quoted character is its ASCII code is PRESUMED:
notes/assumptions/7.md. -/
def SpellsNumber (cs : List Char) (n : Nat) : Prop :=
  SpellsDigits 10 cs n ∨
  (∃ ds, cs = '0' :: 'x' :: ds ∧ SpellsDigits 16 ds n) ∨
  (∃ ds, cs = '0' :: 'b' :: ds ∧ SpellsDigits 2 ds n) ∨
  (∃ c, cs = ['\'', c, '\''] ∧ c.toNat < 128 ∧ n = c.toNat)

/-- The mnemonic of a line of the assembler (R64, R65). -/
def lineMnemonic : AsmLine → List Char
  | .nop => "nop".toList
  | .tblw _ _ _ => "tblw".toList
  | .start => "start".toList
  | .sym _ => "sym".toList
  | .fin => "fin".toList
  | .clr => "clr".toList
  | .newTable _ _ => "new".toList
  | .encodeCall _ => "encode".toList

/-- The operands of a line, in the order they are written in. -/
def lineOperands : AsmLine → List Nat
  | .nop => []
  | .tblw idx len code => [idx, len, code]
  | .start => []
  | .sym byte => [byte]
  | .fin => []
  | .clr => []
  | .newTable lens codes => lens ++ codes
  | .encodeCall bytes => bytes

/-- An operand as it stands in a line: a number, and the blanks before and after it. -/
structure OperandText where
  before : List Char
  number : List Char
  after : List Char
deriving DecidableEq, Repr

/-- The characters of an operand. -/
def OperandText.chars (o : OperandText) : List Char := o.before ++ o.number ++ o.after

/-- Operands separated by commas (R64). -/
def operandChars : List OperandText → List Char
  | [] => []
  | [o] => o.chars
  | o :: p :: os => o.chars ++ ',' :: operandChars (p :: os)

/-- The words R92 calls illegal: opcode 0x6 to 0xF, or opcode 0x0 to 0x5 with a reserved field that is
not 0 (the fields as R57 lays them out). -/
def IllegalWord (w : CmdWord) : Prop :=
  6 ≤ (w.extractLsb' 60 4).toNat ∨
  (((w.extractLsb' 60 4).toNat = 0 ∨ (w.extractLsb' 60 4).toNat = 2 ∨ (w.extractLsb' 60 4).toNat = 4 ∨
      (w.extractLsb' 60 4).toNat = 5) ∧ w.extractLsb' 0 60 ≠ 0) ∨
  ((w.extractLsb' 60 4).toNat = 1 ∧ w.extractLsb' 32 14 ≠ 0) ∨
  ((w.extractLsb' 60 4).toNat = 3 ∧ w.extractLsb' 8 52 ≠ 0)

/-- The causes of R91 to R97: when each fault code applies to a word in a state, whatever other codes
apply as well. -/
def FaultApplies : ErrCode → CmdWord → State → Prop
  | .ill, w, _ => IllegalWord w
  | .seq, w, s =>
    (∃ idx len code, w = encode (.tblw idx len code) ∧ s.state = .active) ∨
    (w = encode .start ∧ s.state = .active) ∨
    (∃ b, w = encode (.sym b) ∧ (s.state = .idle ∨ s.state = .done)) ∨
    (w = encode .fin ∧ (s.state = .idle ∨ s.state = .done))
  | .noent, w, s => ∃ b, w = encode (.sym b) ∧ tblEntry s b = none
  | .code, w, s =>
    ∃ idx len code, w = encode (.tblw idx len code) ∧ s.cfg.strictCode = true ∧ len.toNat < 32 ∧
      2 ^ len.toNat ≤ code.toNat
  | .compat, w, s =>
    ∃ b e, w = encode (.sym b) ∧ tblEntry s b = some e ∧ s.cfg.maskExtraBit = true ∧
      e.code.getLsbD e.len.toNat = true ∧ s.total = 0
  | .ovf, w, s =>
    (∃ b e, w = encode (.sym b) ∧ tblEntry s b = some e ∧
      s.cfg.outCap.toNat < s.outLen.toNat + (s.nbits.toNat + e.len.toNat) / 8) ∨
    (w = encode .fin ∧ s.nbits ≠ 0 ∧ s.cfg.outCap.toNat ≤ s.outLen.toNat)

/-- The place of a fault code in the order of R99. -/
def faultRank : ErrCode → Nat
  | .ill => 2
  | .seq => 3
  | .noent => 4
  | .code => 4
  | .compat => 5
  | .ovf => 6

/-- A word of the read map that R27 or R39 leaves unspecified in a state: a table word of an entry with
V = 0, or an output byte from OUT_LEN up to OUT_CAP. -/
def UnspecifiedRead (s : State) (addr : ReadWord) : Prop :=
  (∃ i : Byte, (addr.toNat = 0x100 + i.toNat ∨ addr.toNat = 0x200 + i.toNat) ∧ tblEntry s i = none) ∨
  (∃ k, addr.toNat = 0x10000000 + k ∧ s.outLen.toNat ≤ k ∧ k < s.cfg.outCap.toNat)

/-- What R83 says of the end of a call that starts with no bit in the stream when an extra mask bit
comes up: the input up to `b`, and `b` the first byte whose extra bit has no position to go to. -/
def FirstLostExtraBit (c : Config) (T : Byte → TblEntry) (input pre : List Byte) (b : Byte) : Prop :=
  (∃ post, input = pre ++ b :: post) ∧ totalBits T pre = 0 ∧ extraBit c (T b) = true ∧
    ∀ b' ∈ pre, extraBit c (T b') = false

/-- Two states that agree on everything the block's behaviour can depend on: R118's observation, the
pending bits, and the build. They may differ in stale bytes of OUT, in the host's side and in the
draws taken. -/
structure SameVisible (s t : State) : Prop where
  observation : observe s = observe t
  acc : s.acc = t.acc
  nbits : s.nbits = t.nbits
  cfg : s.cfg = t.cfg

/-- I3's datapath: no call. -/
def DatapathIdle (s : State) : Prop :=
  s.acc = 0 ∧ s.nbits = 0 ∧ s.total = 0 ∧ s.pad = 0 ∧ s.outLen = 0

/-- I4's datapath: a call in progress. -/
def DatapathActive (s : State) : Prop :=
  s.total.toNat = 8 * s.outLen.toNat + s.nbits.toNat ∧ s.pad = 0

/-- I5's datapath: a finished call. -/
def DatapathDone (s : State) : Prop :=
  s.nbits = 0 ∧ s.acc = 0 ∧ 8 * s.outLen.toNat = s.total.toNat + s.pad.toNat ∧
    s.pad.toNat = (8 - s.total.toNat % 8) % 8

/-- No fault is recorded (R23, R24). -/
def NoFaultRecorded (s : State) : Prop := s.err = 0 ∧ s.errcmd = 0

/-- I3 to I6 (R33). In FAULT the datapath is that of the state the fault was taken from. -/
def SeqInv (s : State) : Prop :=
  match s.state with
  | .idle => DatapathIdle s ∧ NoFaultRecorded s
  | .active => DatapathActive s ∧ NoFaultRecorded s
  | .done => DatapathDone s ∧ NoFaultRecorded s
  | .fault =>
    (DatapathIdle s ∨ DatapathActive s ∨ DatapathDone s) ∧ 1 ≤ s.err.toNat ∧ s.err.toNat ≤ 6 ∧
      s.faulted = true

/-- The invariant of every reachable state: R33, with the canonical form of the model's data, the legal
build (R7), the bytes of the current call written (R31), and with STRICT_CODE = 1 every stored code
fitting its length (R69). -/
structure Inv (s : State) : Prop where
  capLegal : s.cfg.wf = true
  outWf : Memory.wf s.out
  outInCap : ∀ p ∈ s.out, p.1 < s.cfg.outCap.toNat
  tblWf : cellsWf s.tbl
  tblIndex : ∀ p ∈ s.tbl, p.1 < 256
  tblStrict : s.cfg.strictCode = true → ∀ p ∈ s.tbl, codeTooWide p.2.len p.2.code = false
  accFits : s.acc.toNat < 2 ^ s.nbits.toNat
  lenFits : s.outLen.toNat ≤ s.cfg.outCap.toNat
  callWritten : ∀ k < s.outLen.toNat, (cellRead s.out k).isSome = true
  seqInv : SeqInv s

end Sys2Proof.Machine
end

