-- ==== Sys2Proof/Certificates/Slice0/Obligations.lean ====
section
/-! DEFINITION. The statements for the provers, each a `Prop` about every state or every word. A
docstring names the rule of spec/ a statement formalises. -/

section
open Sys2Proof Sys2Proof.Machine

/-! Encoding (spec/30_encoding.md). -/

/-- Every command's word decodes to that command, for every value of every operand. -/
def Obligations.DecodeOfEncode : Prop :=
  ∀ i : Instr, decode (encode i) = .cmd i

/-- A word that decodes to a command is the one word that encodes it: no bit is dropped, so the word a
fault records (R100) is the command's own. -/
def Obligations.EncodeOfDecode : Prop :=
  ∀ (w : CmdWord) (i : Instr), decode w = .cmd i → encode i = w

/-- R60: the opcode map selects exactly the decoded mnemonic, and at most one row matches any word. -/
def Obligations.OpcodeMapSelectsMnemonic : Prop :=
  ∀ w : CmdWord,
    (∀ i, decode w = .cmd i → ∃ r ∈ opcodeMap, r.selects w = true ∧ r.mnemonic = mnemonicOf i) ∧
    (∀ r ∈ opcodeMap, r.selects w = true → ∃ i, decode w = .cmd i ∧ mnemonicOf i = r.mnemonic) ∧
    (∀ r ∈ opcodeMap, ∀ r' ∈ opcodeMap, r.selects w = true → r'.selects w = true → r = r') ∧
    ((∀ r ∈ opcodeMap, r.selects w = false) → ∃ why, decode w = .illegal why)

/-- R57: where each format places its fields in the word, and that the reserved field is 0. -/
def Obligations.FormatsPlaceFields : Prop :=
  ((encode .nop).extractLsb' 60 4 = 0x0#4 ∧ (encode .nop).extractLsb' 0 60 = 0#60) ∧
  ((encode .start).extractLsb' 60 4 = 0x2#4 ∧ (encode .start).extractLsb' 0 60 = 0#60) ∧
  ((encode .fin).extractLsb' 60 4 = 0x4#4 ∧ (encode .fin).extractLsb' 0 60 = 0#60) ∧
  ((encode .clr).extractLsb' 60 4 = 0x5#4 ∧ (encode .clr).extractLsb' 0 60 = 0#60) ∧
  (∀ idx len code,
    (encode (.tblw idx len code)).extractLsb' 60 4 = 0x1#4 ∧
    (encode (.tblw idx len code)).extractLsb' 52 8 = idx ∧
    (encode (.tblw idx len code)).extractLsb' 46 6 = len ∧
    (encode (.tblw idx len code)).extractLsb' 32 14 = 0#14 ∧
    (encode (.tblw idx len code)).extractLsb' 0 32 = code) ∧
  (∀ byte,
    (encode (.sym byte)).extractLsb' 60 4 = 0x3#4 ∧
    (encode (.sym byte)).extractLsb' 8 52 = 0#52 ∧
    (encode (.sym byte)).extractLsb' 0 8 = byte)

/-- R61: what each word decodes to, by its fields, and that `ILLEGAL` raises `E_ILL` outside FAULT and is
ignored in it. -/
def Obligations.DecodesByFields : Prop :=
  ∀ w : CmdWord,
    ((w.extractLsb' 60 4).toNat = 0 →
      if w.extractLsb' 0 60 = 0 then decode w = .cmd .nop else ∃ why, decode w = .illegal why) ∧
    ((w.extractLsb' 60 4).toNat = 1 →
      if w.extractLsb' 32 14 = 0 then
        decode w = .cmd (.tblw (w.extractLsb' 52 8) (w.extractLsb' 46 6) (w.extractLsb' 0 32))
      else ∃ why, decode w = .illegal why) ∧
    ((w.extractLsb' 60 4).toNat = 2 →
      if w.extractLsb' 0 60 = 0 then decode w = .cmd .start else ∃ why, decode w = .illegal why) ∧
    ((w.extractLsb' 60 4).toNat = 3 →
      if w.extractLsb' 8 52 = 0 then decode w = .cmd (.sym (w.extractLsb' 0 8))
      else ∃ why, decode w = .illegal why) ∧
    ((w.extractLsb' 60 4).toNat = 4 →
      if w.extractLsb' 0 60 = 0 then decode w = .cmd .fin else ∃ why, decode w = .illegal why) ∧
    ((w.extractLsb' 60 4).toNat = 5 →
      if w.extractLsb' 0 60 = 0 then decode w = .cmd .clr else ∃ why, decode w = .illegal why) ∧
    (6 ≤ (w.extractLsb' 60 4).toNat → ∃ why, decode w = .illegal why) ∧
    ∀ (why : Illegal) (s : State), decode w = .illegal why →
      (s.state ≠ .fault → performWord w s = .next (raise .ill w s)) ∧
      (s.state = .fault → performWord w s = .next s)

/-- Words the spec writes out decode to the commands it gives them (R68, R76, R77, R81, R87, R88). -/
def Obligations.SpecWordsDecode : Prop :=
  decode 0x0000000000000000#64 = .cmd .nop ∧
  decode 0x1411400000000015#64 = .cmd (.tblw 0x41 5 0x15) ∧
  decode 0x109FC000FFFFFFFF#64 = .cmd (.tblw 9 63 0xFFFFFFFF) ∧
  decode 0x2000000000000000#64 = .cmd .start ∧
  decode 0x3000000000000041#64 = .cmd (.sym 0x41) ∧
  decode 0x4000000000000000#64 = .cmd .fin ∧
  decode 0x5000000000000000#64 = .cmd .clr

/-- R92: outside FAULT exactly the illegal words raise `E_ILL`. -/
def Obligations.IllegalWordsRaiseIll : Prop :=
  ∀ (w : CmdWord),
    ((∃ why, decode w = .illegal why) ↔ IllegalWord w) ∧
    ∀ s : State, s.state ≠ .fault →
      (IllegalWord w → performWord w s =
        .next { s with state := .fault, err := 1, errcmd := w, faulted := true }) ∧
      (∀ t, ¬ IllegalWord w → performWord w s = .next t → t.err = 1 → s.err = 1)

/-- R64 and R65, line by line: what each line in range assembles to, that an operand out of range gives
no word, and how `encode` and `new` expand. How a line is written down as text is AssemblerReadsText's. -/
def Obligations.PseudoInstructionsExpand : Prop :=
  (assemble .nop = some [encode .nop] ∧ assemble .start = some [encode .start] ∧
    assemble .fin = some [encode .fin] ∧ assemble .clr = some [encode .clr]) ∧
  (∀ idx len code : Nat,
    (idx < 256 ∧ len < 64 ∧ code < 2 ^ 32 → assemble (.tblw idx len code) =
      some [encode (.tblw (BitVec.ofNat 8 idx) (BitVec.ofNat 6 len) (BitVec.ofNat 32 code))]) ∧
    (256 ≤ idx ∨ 64 ≤ len ∨ 2 ^ 32 ≤ code → assemble (.tblw idx len code) = none)) ∧
  (∀ byte : Nat,
    (byte < 256 → assemble (.sym byte) = some [encode (.sym (BitVec.ofNat 8 byte))]) ∧
    (256 ≤ byte → assemble (.sym byte) = none)) ∧
  (∀ bytes : List Nat,
    ((∀ b ∈ bytes, b < 256) → assemble (.encodeCall bytes) =
      some (encode .start :: (bytes.map (fun b => encode (.sym (BitVec.ofNat 8 b))) ++ [encode .fin]))) ∧
    ((∃ b ∈ bytes, 256 ≤ b) → assemble (.encodeCall bytes) = none)) ∧
  ∀ lens codes : List Nat,
    (lens.length = 256 → codes.length = 256 → (∀ l ∈ lens, l < 64) → (∀ c ∈ codes, c < 2 ^ 32) →
      ∃ ws, assemble (.newTable lens codes) = some ws ∧ ws.length = 256 ∧
        ∀ i < 256, ws[i]? = some (encode (.tblw (BitVec.ofNat 8 i)
          (BitVec.ofNat 6 (lens.getD i 0)) (BitVec.ofNat 32 (codes.getD i 0))))) ∧
    (lens.length ≠ 256 ∨ codes.length ≠ 256 ∨ (∃ l ∈ lens, 64 ≤ l) ∨ (∃ c ∈ codes, 2 ^ 32 ≤ c) →
      assemble (.newTable lens codes) = none)

/-- R64's text: a line is read whatever form each of its numbers has (decimal, `0x`, `0b`, a quoted
character), whatever blanks stand before its mnemonic, before and after each of its operands (a blank
before the first parts it from the mnemonic) and at its end, and with or without a comment after `;`; and
a line of blanks, or with nothing but a comment, gives no word and is no error. That a quoted character is
its ASCII code, what a blank is, and that the blanks are free, are the model's (notes/assumptions/7.md). -/
def Obligations.AssemblerReadsText : Prop :=
  ∀ (lead trail comment : List Char),
    (∀ c ∈ lead ++ trail, isBlank c = true) → (comment = [] ∨ ∃ rest, comment = ';' :: rest) →
    assembleLine (lead ++ comment) = some [] ∧
    ∀ (l : AsmLine) (ops : List OperandText),
      ops.length = (lineOperands l).length →
      (∀ p ∈ ops.zip (lineOperands l), SpellsNumber p.1.number p.2) →
      (∀ o ∈ ops, ∀ c ∈ o.before ++ o.after, isBlank c = true) →
      (∀ o, ops.head? = some o → o.before ≠ []) →
      (∀ lens codes, l = .newTable lens codes → lens.length = 256 ∧ codes.length = 256) →
      assembleLine (lead ++ lineMnemonic l ++ operandChars ops ++ trail ++ comment) = assemble l

/-! The step and the host's sequence. -/

/-- A step runs the decoded command: the word is taken from the port, R21's index advances, and the
command executes. The port is the model's
(notes/assumptions/2.md). -/
def Obligations.StepRunsDecodedCommand : Prop :=
  ∀ (s : State) (w : CmdWord) (rest : List Transaction) (i : Instr),
    s.port = .command w :: rest → decode w = .cmd i →
    step s = exec i { s with port := rest, pc := s.pc + 1 }

/-- What a step does with every other head of the port: an illegal word, a read, a reset, and nothing
at all, where the block holds its state (R110, R119). The port, and that a reset leaves the host's side,
are the model's (notes/assumptions/2.md); so is an illegal word performed outside `Instr`
(notes/assumptions/10.md). -/
def Obligations.StepOnOtherTransactions : Prop :=
  ∀ (s : State) (rest : List Transaction),
    (∀ w why, s.port = .command w :: rest → decode w = .illegal why →
      step s = execIllegal w { s with port := rest, pc := s.pc + 1 }) ∧
    (∀ addr, s.port = .read addr :: rest → step s = .next (serveRead addr { s with port := rest })) ∧
    (s.port = .reset :: rest → step s = .next (resetBlock { s with port := rest })) ∧
    (s.port = [] → step s = .next s)

/-- R21: every delivered command advances the host's index by exactly one, whether it executes, faults
or is ignored. -/
def Obligations.EveryCommandAdvancesIndex : Prop :=
  ∀ (s t : State) (w : CmdWord) (rest : List Transaction),
    s.port = .command w :: rest → step s = .next t → t.pc = s.pc + 1

/-- R14: a run is the fold of the words it delivers, each performed once, in order, in the state the one
before it left; so the host's index grows by their number, and nothing is read. The index, the port, the
replies and the counter of draws are the model's (notes/assumptions/2.md, 3.md). -/
def Obligations.RunCountsItsWords : Prop :=
  ∀ (ws : List CmdWord) (s : State),
    runWords ws s = ws.foldl (fun (r : Result) w =>
      match r with
      | .next u => performWord w { u with port := [], pc := u.pc + 1 }
      | .fault f => .fault f
      | .refused why => .refused why) (.next s) ∧
    ∀ t, runWords ws s = .next t →
      t.pc = s.pc + ws.length ∧ t.replies = s.replies ∧ t.draws = s.draws

/-! Reset. -/

/-- R35: a reset transaction, in any state, puts every piece of the block's state to its reset value.
Nothing is listed as written in OUT, which is how the model holds that every byte of it is unspecified
(notes/assumptions/4.md). -/
def Obligations.ResetPutsResetValues : Prop :=
  ∀ (s : State) (rest : List Transaction), s.port = .reset :: rest →
    ∃ t, step s = .next t ∧
      t.state = .idle ∧ t.err = 0 ∧ t.errcmd = 0 ∧ t.acc = 0 ∧ t.nbits = 0 ∧ t.total = 0 ∧ t.pad = 0 ∧
      t.outLen = 0 ∧ (∀ i, tblEntry t i = none) ∧ (∀ k, cellRead t.out k = none) ∧
      t.faulted = false ∧ t.cfg = s.cfg

/-- The machine right after reset satisfies the invariant, for every legal build. -/
def Obligations.ResetSatisfiesInv : Prop :=
  (∀ c : Config, c.wf = true → Inv (State.resetWith c)) ∧ Inv State.reset

/-- R112 ("Reset and `CLR` differ in one respect only: reset invalidates the whole table, and `CLR` keeps
it."): both leave IDLE with no fault recorded and the datapath 0, after both every word of the output
window below OUT_CAP is a free draw, and the two states are one but for the table, the ghost bit and the
bytes of OUT, which are stale in both. That a reset forgets those bytes, the counter of draws, and that
neither touches the host's side are the model's (notes/assumptions/2.md, 3.md, 4.md). -/
def Obligations.ResetAndClrDifferInTable : Prop :=
  ∀ s : State, ∃ c, exec .clr s = .next c ∧
    c.state = .idle ∧ c.err = 0 ∧ c.errcmd = 0 ∧ c.acc = 0 ∧ c.nbits = 0 ∧ c.total = 0 ∧ c.pad = 0 ∧
    c.outLen = 0 ∧ c.cfg = s.cfg ∧
    (∀ i, tblEntry (resetBlock s) i = none) ∧ c.tbl = s.tbl ∧
    (resetBlock s).faulted = false ∧ c.faulted = s.faulted ∧
    (∀ k < s.cfg.outCap.toNat,
      readWord (resetBlock s) (BitVec.ofNat 32 (0x10000000 + k)) = 0#24 ++ Config.freeByte s.draws ∧
      readWord c (BitVec.ofNat 32 (0x10000000 + k)) = 0#24 ++ Config.freeByte s.draws) ∧
    resetBlock s = { c with tbl := (resetBlock s).tbl, out := (resetBlock s).out, faulted := false }

/-! Invariants and rules of the whole machine. -/

/-- R33 ("Every reachable state satisfies these invariants."): every step keeps the invariants, a fault
keeps the datapath of the state it is taken from, and nothing in FAULT changes it. `Inv` also holds the
model's own canonical forms (notes/assumptions/6.md) and the strictness of the table. -/
def Obligations.StepKeepsInv : Prop :=
  ∀ s t : State, Inv s → step s = .next t →
    Inv t ∧ (t.state = .fault →
      (s.state = .idle → DatapathIdle t) ∧ (s.state = .active → DatapathActive t) ∧
      (s.state = .done → DatapathDone t) ∧
      (s.state = .fault → t.acc = s.acc ∧ t.nbits = s.nbits ∧ t.total = s.total ∧ t.pad = s.pad ∧
        t.outLen = s.outLen))

/-- R119: in a state that satisfies the invariant every step finishes: no stop, whatever the host does. -/
def Obligations.StepFinishesUnderInv : Prop :=
  ∀ s : State, Inv s → ∃ t, step s = .next t

/-- Every step keeps the canonical form of the output buffer and of the table, in every state. The form is
the model's: notes/assumptions/6.md. -/
def Obligations.StepKeepsCanonicalForm : Prop :=
  ∀ s t : State, Memory.wf s.out → cellsWf s.tbl → step s = .next t →
    Memory.wf t.out ∧ cellsWf t.tbl

/-- R7, R13: nothing changes the build parameters. -/
def Obligations.ParametersNeverChange : Prop :=
  ∀ s t : State, step s = .next t → t.cfg = s.cfg

/-- R114: the table changes only through an accepted TBLW in IDLE or DONE, at that index only, and is
lost only on reset. -/
def Obligations.TableChangesOnlyByTblw : Prop :=
  ∀ s t : State, step s = .next t → t.tbl ≠ s.tbl →
    (∃ idx len code rest, s.port = .command (encode (.tblw idx len code)) :: rest ∧
      (s.state = .idle ∨ s.state = .done) ∧ t.state = s.state ∧
      t.tbl = cellWrite s.tbl idx.toNat ⟨len, code⟩) ∨
    (∃ rest, s.port = .reset :: rest ∧ t.tbl = [])

/-- R18 ("`TOTAL` never wraps"): START sets TOTAL to 0, each SYM adds exactly LEN, FIN adds nothing, the
bound holds while a call is active, and a SYM that would break it is refused. -/
def Obligations.TotalNeverWraps : Prop :=
  ∀ s : State, Inv s →
    (s.state = .active → s.total.toNat = 8 * s.outLen.toNat + s.nbits.toNat ∧
      8 * s.outLen.toNat + s.nbits.toNat ≤ 8 * s.cfg.outCap.toNat + 7 ∧
      8 * s.cfg.outCap.toNat + 7 ≤ 2 ^ 31 - 1) ∧
    (∀ t, s.state = .idle ∨ s.state = .done → exec .start s = .next t → t.total = 0) ∧
    (∀ t b e, s.state = .active → tblEntry s b = some e → exec (.sym b) s = .next t →
      (t.state = .active → t.total.toNat = s.total.toNat + e.len.toNat) ∧
      (8 * s.cfg.outCap.toNat + 7 < s.total.toNat + e.len.toNat → t.state = .fault)) ∧
    (∀ t, exec .fin s = .next t → t.total = s.total)

/-- R31: while a call lasts, completed bytes stay, but for bit 0 of the last one with MASK_EXTRA_BIT = 1,
and nothing is written from the new OUT_LEN on. -/
def Obligations.CompletedBytesStay : Prop :=
  ∀ (s t : State) (w : CmdWord), s.state = .active → w ≠ encode .clr → performWord w s = .next t →
    s.outLen.toNat ≤ t.outLen.toNat ∧
    (∀ k < s.outLen.toNat, outByte t k = outByte s k ∨
      (s.cfg.maskExtraBit = true ∧ k + 1 = s.outLen.toNat ∧ outByte t k = outByte s k ||| 1)) ∧
    (∀ k, t.outLen.toNat ≤ k → cellRead t.out k = cellRead s.out k)

/-- R85 ("no command reads a draw"): two states that agree on all that can be seen of them stay so under
every command: no command reads a draw, a stale byte or the host's side. -/
def Obligations.CommandsReadNoDraw : Prop :=
  ∀ (s t : State) (w : CmdWord), SameVisible s t →
    (∃ s' t', performWord w s = .next s' ∧ performWord w t = .next t' ∧ SameVisible s' t') ∨
    (∃ f, performWord w s = .fault f ∧ performWord w t = .fault f)

/-! Faults (spec/60_exceptions.md). -/

/-- R99 over R91 and R94 to R97: a command outside FAULT raises exactly the first fault that applies to
it, with its code and its word recorded, and none if none applies; in FAULT all but CLR is ignored. -/
def Obligations.FirstApplicableFaultIsRaised : Prop :=
  (errBits .ill = 1 ∧ errBits .seq = 2 ∧ errBits .noent = 3 ∧ errBits .code = 4 ∧ errBits .ovf = 5 ∧
    errBits .compat = 6) ∧
  (∀ (s : State) (w : CmdWord), s.state ≠ .fault →
    (∀ e, FaultApplies e w s → (∀ e', FaultApplies e' w s → faultRank e ≤ faultRank e') →
      performWord w s = .next (raise e w s)) ∧
    (∀ t, (∀ e, ¬ FaultApplies e w s) → performWord w s = .next t → t.state ≠ .fault)) ∧
  ∀ (s : State) (w : CmdWord), s.state = .fault → w ≠ 0x5000000000000000#64 → performWord w s = .next s

/-- R100: a command that faults changes exactly STATE, ERR, ERRCMD and the ghost bit. -/
def Obligations.FaultsArePrecise : Prop :=
  ∀ (s t : State) (w : CmdWord), s.state ≠ .fault → performWord w s = .next t → t.state = .fault →
    ∃ e : ErrCode, t = { s with state := .fault, err := errBits e, errcmd := w, faulted := true }

/-- R101: in FAULT every word but exactly CLR changes no state at all, and reads still work. -/
def Obligations.FaultIgnoresAllButClr : Prop :=
  ∀ s : State, s.state = .fault →
    (∀ w : CmdWord, w ≠ 0x5000000000000000#64 → performWord w s = .next s) ∧
    (∀ addr rest, s.port = .read addr :: rest →
      ∃ t, step s = .next t ∧ t.replies = s.replies ++ [readWord s addr])

/-- R102: only CLR and reset leave FAULT; CLR returns to IDLE, clears the record and the datapath, and
keeps the table. -/
def Obligations.OnlyClrOrResetLeavesFault : Prop :=
  ∀ s : State, s.state = .fault →
    (∀ t, step s = .next t → t.state ≠ .fault →
      t.state = .idle ∧ ∃ rest, s.port = .command 0x5000000000000000#64 :: rest ∨ s.port = .reset :: rest) ∧
    performWord 0x5000000000000000#64 s = .next { s with
      state := .idle, err := 0, errcmd := 0, acc := 0, nbits := 0, total := 0, pad := 0, outLen := 0 } ∧
    (resetBlock s).state = .idle

/-- R103 ("Faults do not nest."): as long as the block stays in FAULT, ERR and ERRCMD stay the first
fault's. -/
def Obligations.FirstFaultIsKept : Prop :=
  ∀ s t : State, s.state = .fault → step s = .next t → t.state = .fault →
    t.err = s.err ∧ t.errcmd = s.errcmd

/-- R34: the ghost bit becomes 1 at every fault entry, and only a reset clears it. -/
def Obligations.GhostBitRemembersFaults : Prop :=
  ∀ s t : State, step s = .next t →
    (s.state ≠ .fault → t.state = .fault → t.faulted = true) ∧
    (s.faulted = true → t.faulted = false → ∃ rest, s.port = .reset :: rest) ∧
    (∀ rest, s.port = .reset :: rest → t.faulted = false) ∧
    (∀ c, (State.resetWith c).faulted = false)

/-- R93, cell by cell: an "ok" command is performed, past its check of STATE, by its own rule (the later
checks and the effect, as the statements about each command give them); which commands raise `E_SEQ`,
which are ignored, what illegal words do; and that no other cell raises `E_SEQ`. -/
def Obligations.LegalityTableHolds : Prop :=
  ∀ s : State,
    (s.state ≠ .fault → exec .nop s = .next s) ∧
    (s.state = .idle ∨ s.state = .done →
      (∀ idx len code, exec (.tblw idx len code) s =
        orRaise (tblwFault len code s) (.tblw idx len code) s (.next (setTbl idx ⟨len, code⟩ s))) ∧
      exec .start s = .next (openCall s) ∧
      (∀ b, exec (.sym b) s = .next (raise .seq (encode (.sym b)) s)) ∧
      exec .fin s = .next (raise .seq (encode .fin) s)) ∧
    (s.state = .active →
      (∀ idx len code, exec (.tblw idx len code) s = .next (raise .seq (encode (.tblw idx len code)) s)) ∧
      exec .start s = .next (raise .seq (encode .start) s) ∧
      (∀ b, tblEntry s b = none → exec (.sym b) s = .next (raise .noent (encode (.sym b)) s)) ∧
      (∀ b e, tblEntry s b = some e →
        exec (.sym b) s = orRaise (symFault e s) (.sym b) s (commitSym e s)) ∧
      exec .fin s = orRaise (finFault s) .fin s (.next (closeCall s))) ∧
    exec .clr s = .next (clearToIdle s) ∧
    (s.state = .fault →
      (∀ i, i ≠ .clr → exec i s = .next s) ∧ ∀ w, IllegalWord w → performWord w s = .next s) ∧
    (s.state ≠ .fault → ∀ w, IllegalWord w → performWord w s = .next (raise .ill w s)) ∧
    (∀ i t, s.state ≠ .fault → exec i s = .next t → t.state = .fault → t.err = 2 →
      (s.state = .active ∧ ((∃ idx len code, i = .tblw idx len code) ∨ i = .start)) ∨
      ((s.state = .idle ∨ s.state = .done) ∧ ((∃ b, i = .sym b) ∨ i = .fin)))

/-! The commands one by one. -/

/-- R87: NOP has no effect in any state; a word of opcode 0 with a reserved bit set raises `E_ILL`. -/
def Obligations.NopHasNoEffect : Prop :=
  (∀ s : State, exec .nop s = .next s) ∧
  ∀ (s : State) (w : CmdWord), w.extractLsb' 60 4 = 0x0#4 → w.extractLsb' 0 60 ≠ 0 → s.state ≠ .fault →
    performWord w s = .next (raise .ill w s)

/-- R68, R69: TBLW writes its entry exactly as given and changes nothing else; with STRICT_CODE = 1 a
code that does not fit raises `E_CODE`; in ACTIVE it raises `E_SEQ`; in FAULT it is ignored; a word of
its opcode with a reserved bit set raises `E_ILL`. -/
def Obligations.TblwWritesEntry : Prop :=
  ∀ (s : State) (idx : Byte) (len : BitVec 6) (code : BitVec 32),
    (s.state = .idle ∨ s.state = .done →
      (s.cfg.strictCode = true ∧ len.toNat < 32 ∧ 2 ^ len.toNat ≤ code.toNat →
        exec (.tblw idx len code) s = .next (raise .code (encode (.tblw idx len code)) s)) ∧
      (¬ (s.cfg.strictCode = true ∧ len.toNat < 32 ∧ 2 ^ len.toNat ≤ code.toNat) →
        ∃ t, exec (.tblw idx len code) s = .next t ∧ tblEntry t idx = some ⟨len, code⟩ ∧
          (∀ j, j ≠ idx → tblEntry t j = tblEntry s j) ∧ t = { s with tbl := t.tbl })) ∧
    (s.state = .active →
      exec (.tblw idx len code) s = .next (raise .seq (encode (.tblw idx len code)) s)) ∧
    (s.state = .fault → exec (.tblw idx len code) s = .next s) ∧
    (∀ w : CmdWord, w.extractLsb' 60 4 = 0x1#4 → w.extractLsb' 32 14 ≠ 0 →
      (s.state ≠ .fault → performWord w s = .next (raise .ill w s)) ∧
      (s.state = .fault → performWord w s = .next s))

/-- R76: START opens a call with an empty datapath, keeping the table, the fault record and the contents
of OUT; in ACTIVE it raises `E_SEQ`; in FAULT it is ignored; a word of its opcode with a reserved bit
set raises `E_ILL`. -/
def Obligations.StartOpensCall : Prop :=
  ∀ s : State,
    (s.state = .idle ∨ s.state = .done → exec .start s = .next { s with
      state := .active, acc := 0, nbits := 0, total := 0, pad := 0, outLen := 0 }) ∧
    (s.state = .active → exec .start s = .next (raise .seq (encode .start) s)) ∧
    (s.state = .fault → exec .start s = .next s) ∧
    (∀ w : CmdWord, w.extractLsb' 60 4 = 0x2#4 → w.extractLsb' 0 60 ≠ 0 →
      (s.state ≠ .fault → performWord w s = .next (raise .ill w s)) ∧
      (s.state = .fault → performWord w s = .next s))

/-- R77: SYM, clause by clause: ignored, `E_ILL`, `E_SEQ`, `E_NOENT`, `E_COMPAT`, `E_OVF`, and the commit
with the word `W`, its octets, its residual and the counters, and everything else unchanged. The last
hypothesis of the commit asks that `OUT[OUT_LEN - 1]` exist where R77 names it; R33 says it does. -/
def Obligations.SymAppendsCode : Prop :=
  ∀ (s : State) (b : Byte),
    (s.state = .fault → exec (.sym b) s = .next s) ∧
    (∀ w : CmdWord, w.extractLsb' 60 4 = 0x3#4 → w.extractLsb' 8 52 ≠ 0 →
      (s.state ≠ .fault → performWord w s = .next (raise .ill w s)) ∧
      (s.state = .fault → performWord w s = .next s)) ∧
    (s.state = .idle ∨ s.state = .done → exec (.sym b) s = .next (raise .seq (encode (.sym b)) s)) ∧
    (s.state = .active → tblEntry s b = none → exec (.sym b) s = .next (raise .noent (encode (.sym b)) s)) ∧
    ∀ e, s.state = .active → tblEntry s b = some e →
      let len := e.len.toNat
      let x := s.cfg.maskExtraBit && e.code.getLsbD len
      let n := s.nbits.toNat + len
      let a := if x = true ∧ s.nbits ≠ 0 then s.acc.toNat ||| 1 else s.acc.toNat
      let W := (a <<< len) ||| (e.code.toNat % 2 ^ len)
      (x = true ∧ s.total = 0 → exec (.sym b) s = .next (raise .compat (encode (.sym b)) s)) ∧
      (¬ (x = true ∧ s.total = 0) → s.cfg.outCap.toNat < s.outLen.toNat + n / 8 →
        exec (.sym b) s = .next (raise .ovf (encode (.sym b)) s)) ∧
      (¬ (x = true ∧ s.total = 0) → s.outLen.toNat + n / 8 ≤ s.cfg.outCap.toNat →
        (x = true → s.nbits = 0 → s.outLen ≠ 0) →
        ∃ t, exec (.sym b) s = .next t ∧
          t.outLen.toNat = s.outLen.toNat + n / 8 ∧
          t.nbits.toNat = n % 8 ∧
          t.acc.toNat = W % 2 ^ (n % 8) ∧
          t.total = s.total + BitVec.ofNat 32 len ∧
          (∀ j < n / 8, cellRead t.out (s.outLen.toNat + j) =
            some (BitVec.ofNat 8 (W / 2 ^ (n - 8 - 8 * j)))) ∧
          (x = true → s.nbits = 0 →
            cellRead t.out (s.outLen.toNat - 1) = some (outByte s (s.outLen.toNat - 1) ||| 1)) ∧
          (∀ k, (k < s.outLen.toNat ∨ s.outLen.toNat + n / 8 ≤ k) →
            ¬ (x = true ∧ s.nbits = 0 ∧ k + 1 = s.outLen.toNat) → cellRead t.out k = cellRead s.out k) ∧
          t = { s with acc := t.acc, nbits := t.nbits, total := t.total, outLen := t.outLen, out := t.out })

/-- Where SYM stops: the extra mask bit would go to `OUT[OUT_LEN - 1]` and OUT_LEN is 0, in a state that
R33 rules out. The stop is the model's (notes/assumptions/5.md). -/
def Obligations.SymStopsWithoutStreamByte : Prop :=
  (∀ (s : State) (b : Byte) (e : TblEntry), s.state = .active → tblEntry s b = some e →
    s.cfg.maskExtraBit = true → e.code.getLsbD e.len.toNat = true → s.total ≠ 0 → s.nbits = 0 →
    s.outLen = 0 → e.len.toNat / 8 ≤ s.cfg.outCap.toNat →
    exec (.sym b) s = .fault .outIndexMissing) ∧
  ∀ (s : State) (i : Instr), Inv s → exec i s ≠ .fault .outIndexMissing

/-- R81: FIN, clause by clause: ignored, `E_ILL`, `E_SEQ`, `E_OVF`, and the close with its padded byte,
everything else unchanged. -/
def Obligations.FinPadsAndCloses : Prop :=
  ∀ s : State,
    (s.state = .fault → exec .fin s = .next s) ∧
    (∀ w : CmdWord, w.extractLsb' 60 4 = 0x4#4 → w.extractLsb' 0 60 ≠ 0 →
      (s.state ≠ .fault → performWord w s = .next (raise .ill w s)) ∧
      (s.state = .fault → performWord w s = .next s)) ∧
    (s.state = .idle ∨ s.state = .done → exec .fin s = .next (raise .seq (encode .fin) s)) ∧
    (s.state = .active →
      let p := (8 - s.nbits.toNat) % 8
      (0 < p → s.cfg.outCap.toNat < s.outLen.toNat + 1 →
        exec .fin s = .next (raise .ovf (encode .fin) s)) ∧
      (0 < p → s.outLen.toNat + 1 ≤ s.cfg.outCap.toNat →
        ∃ t, exec .fin s = .next t ∧
          cellRead t.out s.outLen.toNat =
            some (BitVec.ofNat 8 ((s.acc.toNat <<< p) ||| (2 ^ p - 1))) ∧
          (∀ k, k ≠ s.outLen.toNat → cellRead t.out k = cellRead s.out k) ∧
          t = { s with
            acc := 0, nbits := 0, pad := BitVec.ofNat 3 p, state := .done,
            outLen := s.outLen + 1, out := t.out }) ∧
      (p = 0 → exec .fin s = .next { s with acc := 0, nbits := 0, pad := 0, state := .done }))

/-- R88: CLR returns to IDLE from every state, clearing the fault record and the datapath, and keeps the
table, the contents of OUT and the ghost bit. A malformed CLR raises `E_ILL` outside FAULT and is
ignored in it. -/
def Obligations.ClrReturnsToIdle : Prop :=
  (∀ s : State, exec .clr s = .next { s with
    state := .idle, err := 0, errcmd := 0, acc := 0, nbits := 0, total := 0, pad := 0, outLen := 0 }) ∧
  ∀ (s : State) (w : CmdWord), w.extractLsb' 60 4 = 0x5#4 → w.extractLsb' 0 60 ≠ 0 →
    (s.state ≠ .fault → performWord w s = .next (raise .ill w s)) ∧
    (s.state = .fault → performWord w s = .next s)

/-- The frame of every command: what it leaves unchanged when it answers a next state. The bytes SYM
stores to are those from OUT_LEN on that its shifter completes, and `OUT[OUT_LEN - 1]` where the extra
mask bit goes there; FIN's is `OUT[OUT_LEN]` when it pads. -/
def Obligations.CommandFrames : Prop :=
  ∀ (i : Instr) (s t : State), exec i s = .next t →
    (t.cfg = s.cfg ∧ t.pc = s.pc ∧ t.port = s.port ∧ t.replies = s.replies ∧ t.draws = s.draws) ∧
    (match i with
      | .nop => t = s
      | .tblw idx _ _ =>
        t.acc = s.acc ∧ t.nbits = s.nbits ∧ t.total = s.total ∧ t.pad = s.pad ∧ t.outLen = s.outLen ∧
        t.out = s.out ∧ (∀ j, j ≠ idx → tblEntry t j = tblEntry s j) ∧
        (t.state ≠ .fault → t.state = s.state ∧ t.err = s.err ∧ t.errcmd = s.errcmd ∧ t.faulted = s.faulted)
      | .start =>
        t.tbl = s.tbl ∧ t.out = s.out ∧
        (t.state ≠ .fault → t.err = s.err ∧ t.errcmd = s.errcmd ∧ t.faulted = s.faulted)
      | .sym b =>
        t.tbl = s.tbl ∧ t.pad = s.pad ∧
        (t.state ≠ .fault → t.state = s.state ∧ t.err = s.err ∧ t.errcmd = s.errcmd ∧ t.faulted = s.faulted) ∧
        (∀ e k, tblEntry s b = some e →
          ¬ (s.outLen.toNat ≤ k ∧ k < s.outLen.toNat + (s.nbits.toNat + e.len.toNat) / 8) →
          ¬ (extraBit s.cfg e = true ∧ s.nbits = 0 ∧ k = s.outLen.toNat - 1) →
          cellRead t.out k = cellRead s.out k) ∧
        (tblEntry s b = none → t.out = s.out)
      | .fin =>
        t.tbl = s.tbl ∧ t.total = s.total ∧
        (t.state ≠ .fault → t.err = s.err ∧ t.errcmd = s.errcmd ∧ t.faulted = s.faulted) ∧
        (∀ k, ¬ (padCount s.nbits ≠ 0 ∧ k = s.outLen.toNat) → cellRead t.out k = cellRead s.out k)
      | .clr => t.tbl = s.tbl ∧ t.out = s.out ∧ t.faulted = s.faulted)

/-! The stream of a call and the source's function (spec/41_encode.md). -/

/-- R40, R80: a SYM that is performed appends exactly the `LEN` bits of its masked code, most significant
first; with the extra mask bit it also sets the last bit already there. -/
def Obligations.SymAppendsToStream : Prop :=
  ∀ (s t : State) (b : Byte) (e : TblEntry), s.state = .active → tblEntry s b = some e →
    exec (.sym b) s = .next t → t.state = .active →
    stream t = (if extraBit s.cfg e = true then withLastOne (stream s) else stream s) ++
      bitsOf e.len.toNat (e.code.toNat % 2 ^ e.len.toNat)

/-- R40, R32: after START and a SYM for each byte, with the exact mask, the stream is the concatenation
of the codes in input order. -/
def Obligations.StreamIsConcatenation : Prop :=
  ∀ (s t : State) (T : Byte → TblEntry) (input : List Byte),
    s.state = .idle ∨ s.state = .done → s.cfg.maskExtraBit = false →
    (∀ b ∈ input, tblEntry s b = some (T b)) →
    runWords ((Instr.start :: input.map Instr.sym).map encode) s = .next t → t.state = .active →
    stream t = input.flatMap (fun b => bitsOf (T b).len.toNat ((T b).code.toNat % 2 ^ (T b).len.toNat)) ∧
    (stream t).length = t.total.toNat

/-- R29 ("the `LEN − 32` leading ones are 0 and the trailing 32 are `CODE`"): an entry with LEN ≥ 32
appends LEN - 32 zeros and then all of CODE; one with LEN = 0 appends nothing. -/
def Obligations.LongCodesLeadWithZeros : Prop :=
  ∀ e : TblEntry,
    (32 ≤ e.len.toNat → bitsOf e.len.toNat (maskedCode e) =
      List.replicate (e.len.toNat - 32) false ++ bitsOf 32 e.code.toNat) ∧
    (e.len = 0 → bitsOf e.len.toNat (maskedCode e) = [])

/-- R78 ("a 70-bit shifter output is enough. The OR never overlaps"): the shifter's word never overlaps
and fits 70 bits, and it is the value of the pending bits followed by the code's. -/
def Obligations.ShifterFitsSeventyBits : Prop :=
  ∀ (a nbits len m : Nat), nbits ≤ 7 → len ≤ 63 → a < 2 ^ nbits → m < 2 ^ len →
    shifterWord a len m < 2 ^ (nbits + len) ∧ shifterWord a len m < 2 ^ 70 ∧
    shifterWord a len m = a * 2 ^ len + m ∧
    shifterWord a len m = valOf (bitsOf nbits a ++ bitsOf len m)

/-- R79 ("The result is the same state as rules R77 and R81."): the bit-serial form gives the same state
as R77 and R81. -/
def Obligations.BitSerialFormAgrees : Prop :=
  ∀ s : State, s.state = .active → s.acc.toNat < 2 ^ s.nbits.toNat →
    (∀ b e s1, tblEntry s b = some e → symFault e s = none →
      applyExtraBit (extraBit s.cfg e) s = .next s1 →
      exec (.sym b) s = .next (serialAppend e.len.toNat (maskedCode e) s1)) ∧
    (finFault s = none → exec .fin s = .next (serialClose s))

/-- R82: FIN pads with one-bits only, at most seven, up to the octet boundary. -/
def Obligations.PaddingIsOnes : Prop :=
  ∀ s t : State, s.state = .active → exec .fin s = .next t → t.state = .done →
    byteBits (outBytes t) = stream s ++ List.replicate t.pad.toNat true ∧
    t.pad.toNat = (8 - s.nbits.toNat) % 8 ∧ t.pad.toNat ≤ 7

/-- R84 ("`8·OUT_LEN ≥ TOTAL` and `8·OUT_LEN − TOTAL = PAD < 8`"): at the end of every call `8·OUT_LEN ≥
TOTAL` and the difference is PAD, below 8. -/
def Obligations.PaddingInvariant : Prop :=
  ∀ s t : State, Inv s → exec .fin s = .next t → t.state = .done → s.state = .active →
    t.total.toNat ≤ 8 * t.outLen.toNat ∧ 8 * t.outLen.toNat - t.total.toNat = t.pad.toNat ∧
    t.pad.toNat < 8 ∧ t.total = s.total

/-- R83 ("Correctness of the call sequence."): START, a SYM for each input byte and FIN compute the
source's function, or fault where R83 says a call faults; and with MASK_EXTRA_BIT = 1 the calls it leaves
out are exactly those whose value does not fit. -/
def Obligations.CallComputesEncode : Prop :=
  ∀ (s : State) (T : Byte → TblEntry) (input : List Byte),
    s.state = .idle ∨ s.state = .done → (∀ b ∈ input, tblEntry s b = some (T b)) →
    ∃ t, runWords (callWords input) s = .next t ∧
      ((∀ pre b, ¬ FirstLostExtraBit s.cfg T input pre b) →
        ((totalBits T input + 7) / 8 ≤ s.cfg.outCap.toNat →
          t.state = .done ∧ outBytes t = encodeRef s.cfg.maskExtraBit T input ∧
          t.outLen.toNat = (totalBits T input + 7) / 8 ∧ t.total.toNat = totalBits T input ∧
          t.pad.toNat = (8 - totalBits T input % 8) % 8) ∧
        (s.cfg.outCap.toNat < (totalBits T input + 7) / 8 →
          t.state = .fault ∧ t.err = 5 ∧
          t.errcmd = encode (firstPastCap s.cfg.outCap.toNat T 0 input))) ∧
      (∀ pre b, FirstLostExtraBit s.cfg T input pre b →
        t.state = .fault ∧ t.err = 6 ∧ t.errcmd = encode (.sym b)) ∧
      (s.cfg.maskExtraBit = true →
        ((∃ pre b, FirstLostExtraBit s.cfg T input pre b) ↔
          2 ^ (8 * totalBytes (totalBits T input)) ≤ refPaddedAcc true T input))

/-- R73, R74: under the exact mask the padded value always fits, its rendering has `ceil(total / 8)`
bytes, leading zero bytes kept, and reads back as the value. -/
def Obligations.EncodeRendersExactly : Prop :=
  ∀ (T : Byte → TblEntry) (input : List Byte),
    refPaddedAcc false T input < 2 ^ (8 * totalBytes (totalBits T input)) ∧
    (encodeRef false T input).length = (totalBits T input + 7) / 8 ∧
    valOf (byteBits (encodeRef false T input)) = refPaddedAcc false T input

/-- R71: the empty input encodes to nothing, the general case gives the same, and the empty call ends in
DONE with no byte. -/
def Obligations.EmptyInputEncodesToNothing : Prop :=
  (∀ (extra : Bool) (T : Byte → TblEntry), encodeRef extra T [] = [] ∧
    render (totalBytes (totalBits T [])) (refPaddedAcc extra T []) = []) ∧
  ∀ s : State, s.state = .idle ∨ s.state = .done →
    ∃ t, runWords (callWords []) s = .next t ∧ t.state = .done ∧ outBytes t = [] ∧ t.total = 0 ∧ t.pad = 0

/-! The read port (spec/20_memory.md). -/

/-- R37: a read returns the word at its address and changes nothing of the block, ghost included; with no
command between, the same address gives the same word again, unless R27 or R39 leaves it unspecified.
The replies and the counter of draws are the model's (notes/assumptions/2.md, 3.md). -/
def Obligations.ReadsChangeNothing : Prop :=
  ∀ (s : State) (addr : ReadWord),
    (∀ rest, s.port = .read addr :: rest → step s = .next { s with
      port := rest, replies := s.replies ++ [readWord s addr], draws := s.draws + 1 }) ∧
    (¬ UnspecifiedRead s addr → ∀ port replies draws,
      readWord { s with port := port, replies := replies, draws := draws } addr = readWord s addr)

/-- R25: the fields of STATUS, their reset values, and that ERR is legal in every reachable state. -/
def Obligations.StatusWordFields : Prop :=
  (∀ c : Config, readWord (State.resetWith c) 0 = 0) ∧ (∀ s : State, Inv s → s.err.toNat ≤ 6) ∧
  ∀ s : State,
    (readWord s 0).extractLsb' 0 2 =
      (match s.state with | .idle => 0 | .active => 1 | .done => 2 | .fault => 3) ∧
    (readWord s 0).extractLsb' 2 2 = 0 ∧
    (readWord s 0).extractLsb' 4 4 = s.err ∧
    (readWord s 0).extractLsb' 8 3 = s.nbits ∧
    (readWord s 0).extractLsb' 11 1 = 0 ∧
    (readWord s 0).extractLsb' 12 3 = s.pad ∧
    (readWord s 0).extractLsb' 15 17 = 0

/-- R26: the other register words and their reset values. -/
def Obligations.RegisterWordFields : Prop :=
  (∀ (c : Config) (a : ReadWord), 1 ≤ a.toNat → a.toNat ≤ 5 → readWord (State.resetWith c) a = 0) ∧
  ∀ s : State,
    readWord s 1 = s.total ∧
    (readWord s 2).extractLsb' 0 7 = s.acc ∧ (readWord s 2).extractLsb' 7 25 = 0 ∧
    readWord s 3 = s.outLen ∧
    readWord s 4 = s.errcmd.extractLsb' 0 32 ∧
    readWord s 5 = s.errcmd.extractLsb' 32 32 ∧
    (readWord s 6).getLsbD 0 = s.cfg.strictCode ∧ (readWord s 6).getLsbD 1 = s.cfg.maskExtraBit ∧
    (readWord s 6).extractLsb' 2 30 = 0 ∧
    (readWord s 7).toNat = s.cfg.outCap.toNat

/-- R27: the two words of a table entry; while V = 0 only bits 31:6 of the first are fixed, and the rest
is a free value. That it is Config.freeLen and Config.freeCode at the counter of draws is the model's
choice (notes/assumptions/3.md). -/
def Obligations.TableWordFields : Prop :=
  ∀ (s : State) (i : Byte),
    (readWord s (0x100 + i.setWidth 32)).extractLsb' 6 25 = 0 ∧
    (∀ e, tblEntry s i = some e →
      (readWord s (0x100 + i.setWidth 32)).extractLsb' 0 6 = e.len ∧
      (readWord s (0x100 + i.setWidth 32)).getLsbD 31 = true ∧
      readWord s (0x200 + i.setWidth 32) = e.code) ∧
    (tblEntry s i = none →
      (readWord s (0x100 + i.setWidth 32)).extractLsb' 0 6 = Config.freeLen s.draws ∧
      (readWord s (0x100 + i.setWidth 32)).getLsbD 31 = false ∧
      readWord s (0x200 + i.setWidth 32) = Config.freeCode s.draws)

/-- R38 and R39: the unmapped addresses read 0, and the output window reads OUT below OUT_LEN, a free value
from there up to OUT_CAP, and 0 past it. That the free value is Config.freeByte at the counter of draws is
the model's choice (notes/assumptions/3.md). -/
def Obligations.ReadMapWindows : Prop :=
  ∀ (s : State) (addr : ReadWord),
    (0x8 ≤ addr.toNat → addr.toNat ≤ 0xFF → readWord s addr = 0) ∧
    (0x300 ≤ addr.toNat → addr.toNat ≤ 0x0FFFFFFF → readWord s addr = 0) ∧
    (∀ k, addr.toNat = 0x10000000 + k →
      (k < s.cfg.outCap.toNat → k < s.outLen.toNat →
        (readWord s addr).extractLsb' 0 8 = outByte s k ∧ (readWord s addr).extractLsb' 8 24 = 0) ∧
      (k < s.cfg.outCap.toNat → s.outLen.toNat ≤ k →
        (readWord s addr).extractLsb' 0 8 = Config.freeByte s.draws ∧
        (readWord s addr).extractLsb' 8 24 = 0) ∧
      (s.cfg.outCap.toNat ≤ k → readWord s addr = 0))

end
end

