-- ==== Sys2Proof/Laws/Assembler.lean ====
section
/-! SUPPORT. What the readers of the assembler's text do (R64): comments, blanks, commas and numbers. -/

namespace Sys2Proof.Machine

/-- A text that no reader takes apart: no quote, comment or comma, or one quoted character. -/
def IsPiece (cs : List Char) : Prop :=
  (∀ c ∈ cs, c ≠ '\'' ∧ c ≠ ';' ∧ c ≠ ',') ∨ ∃ c, cs = ['\'', c, '\'']

/-- A text that begins and ends with no blank. -/
def Unblank (cs : List Char) : Prop :=
  cs ≠ [] ∧ (∀ c, cs.head? = some c → isBlank c = false) ∧ ∀ c, cs.getLast? = some c → isBlank c = false

theorem stripComment_cons {c : Char} (h1 : c ≠ '\'') (h2 : c ≠ ';') (rest : List Char) :
    stripComment (c :: rest) = c :: stripComment rest := by
  rw [stripComment.eq_4]
  · intro _ _ h; exact absurd h h1
  · exact h2

/-- A piece is no comment. -/
theorem stripComment_piece {f : List Char} (hf : IsPiece f) (rest : List Char) :
    stripComment (f ++ rest) = f ++ stripComment rest := by
  rcases hf with hf | ⟨c, rfl⟩
  · induction f with
    | nil => rfl
    | cons c f ih =>
      have hc := hf c (by simp)
      rw [List.cons_append, stripComment_cons hc.1 hc.2.1, ih (fun d hd => hf d (by simp [hd])), List.cons_append]
  · rfl

theorem splitCommas_cons {c : Char} (h1 : c ≠ '\'') (h2 : c ≠ ',') (field rest : List Char) :
    splitCommas field (c :: rest) = splitCommas (c :: field) rest := by
  rw [splitCommas.eq_4]
  · intro _ _ h; exact absurd h h1
  · exact h2

/-- A piece goes to the current field whole. -/
theorem splitCommas_piece {f : List Char} (hf : IsPiece f) (field rest : List Char) :
    splitCommas field (f ++ rest) = splitCommas (f.reverse ++ field) rest := by
  rcases hf with hf | ⟨c, rfl⟩
  · induction f generalizing field with
    | nil => rfl
    | cons c f ih =>
      have hc := hf c (by simp)
      rw [List.cons_append, splitCommas_cons hc.1 hc.2.2, ih (c :: field) (fun d hd => hf d (by simp [hd])), List.reverse_cons,
        List.append_assoc]
      rfl
  · rfl

theorem isPiece_blanks {gap : List Char} (h : ∀ c ∈ gap, isBlank c = true) : IsPiece gap := by
  refine .inl fun c hc => ?_
  have hb := h c hc
  refine ⟨?_, ?_, ?_⟩ <;> rintro rfl <;> exact absurd hb (by decide)

/-! Blanks. -/

theorem dropWhile_blanks {gap : List Char} (hg : ∀ c ∈ gap, isBlank c = true) {f : List Char}
    (hf : ∀ c, f.head? = some c → isBlank c = false) : (gap ++ f).dropWhile isBlank = f := by
  rw [List.dropWhile_append_of_pos hg]
  cases f with
  | nil => rfl
  | cons c f => rw [List.dropWhile_cons_of_neg (by simp [hf c rfl])]

/-- Trimming takes the blanks around a text that has none at its ends. -/
theorem trimBlanks_around {gap gap' f : List Char} (hg : ∀ c ∈ gap, isBlank c = true)
    (hg' : ∀ c ∈ gap', isBlank c = true) (hf : Unblank f) : trimBlanks (gap ++ f ++ gap') = f := by
  obtain ⟨hne, hhead, hlast⟩ := hf
  have h1 : ∀ c, (f ++ gap').head? = some c → isBlank c = false := by
    intro c hc
    rw [List.head?_append_of_ne_nil f hne] at hc
    exact hhead c hc
  rw [trimBlanks, List.append_assoc, dropWhile_blanks hg h1, List.reverse_append,
    dropWhile_blanks (by simpa using hg') (by simpa using hlast), List.reverse_reverse]

theorem trimBlanks_self {f : List Char} (hf : Unblank f) : trimBlanks f = f := by
  have h := trimBlanks_around (gap := []) (gap' := []) (by simp) (by simp) hf
  simpa using h

/-- A text between two unblank ones. -/
theorem Unblank.append {f g : List Char} (hf : Unblank f) (hg : Unblank g) (mid : List Char) :
    Unblank (f ++ mid ++ g) := by
  refine ⟨by simp [hf.1], fun c hc => hf.2.1 c ?_, fun c hc => hg.2.2 c ?_⟩
  · rwa [List.append_assoc, List.head?_append_of_ne_nil f hf.1] at hc
  · rwa [List.getLast?_append_of_ne_nil _ hg.1] at hc

/-! Numbers. -/

/-- A character that is a digit in some case. -/
theorem mem_of_toLower {c : Char} (h : c.toLower ∈ digitChars) :
    c ∈ digitChars ++ ['A', 'B', 'C', 'D', 'E', 'F'] := by
  by_cases hc : 65 ≤ c.val ∧ c.val ≤ 90
  · have hn : c.toNat ≤ 90 := by simpa [UInt32.le_iff_toNat_le] using hc.2
    have hn' : c = Char.ofNat c.toNat := by simp
    generalize c.toNat = n at hn hn'
    subst hn'
    revert h
    interval_cases n <;> decide
  · have hl : c.toLower = c := by rw [Char.toLower, dif_neg (by simpa using hc)]
    rw [hl] at h
    exact List.mem_append_left _ h

/-- A digit's value, and that it is none of the characters the text is taken apart at. -/
theorem digit_char {c : Char} (h : c.toLower ∈ digitChars) :
    digitValue c = some (digitChars.idxOf c.toLower) ∧
      c ≠ '\'' ∧ c ≠ ';' ∧ c ≠ ',' ∧ isBlank c = false ∧ c ≠ 'x' := by
  have hc := mem_of_toLower h
  simp only [digitChars, List.cons_append, List.nil_append, List.mem_cons, List.not_mem_nil, or_false] at hc
  rcases hc with rfl | rfl | rfl | rfl | rfl | rfl | rfl | rfl | rfl | rfl | rfl | rfl | rfl | rfl | rfl |
    rfl | rfl | rfl | rfl | rfl | rfl | rfl <;> decide

theorem idxOf_lt_of_mem_take {α : Type} [DecidableEq α] {l : List α} {n : Nat} {a : α}
    (h : a ∈ l.take n) : l.idxOf a < n := by
  rw [← List.take_append_drop n l, List.idxOf_append_of_mem h]
  exact Nat.lt_of_lt_of_le (List.idxOf_lt_length_iff.2 h) (List.length_take_le _ _)

/-- Digits are read for the number they spell. -/
theorem readDigits_spelled {base : Nat} {ds : List Char} (h : ∀ c ∈ ds, c.toLower ∈ digitChars.take base)
    (acc : Nat) :
    readDigits base acc ds = some (ds.foldl (fun v c => base * v + digitChars.idxOf c.toLower) acc) := by
  induction ds generalizing acc with
  | nil => rfl
  | cons c ds ih =>
    have hc := h c (by simp)
    simp only [readDigits, (digit_char (List.mem_of_mem_take hc)).1, if_pos (idxOf_lt_of_mem_take hc),
      ih (fun d hd => h d (by simp [hd])), List.foldl_cons]

theorem readNonempty_spelled {base : Nat} {ds : List Char} {n : Nat} (h : SpellsDigits base ds n) :
    readNonempty base ds = some n := by
  obtain ⟨hne, hd, rfl⟩ := h
  rw [readNonempty, if_neg (by simpa using hne), readDigits_spelled hd]

/-- A text of characters that nothing takes apart, none of them blank, is one piece with no blank at its
ends. -/
theorem piece_of_plain {cs : List Char} (hne : cs ≠ [])
    (h : ∀ c ∈ cs, c ≠ '\'' ∧ c ≠ ';' ∧ c ≠ ',' ∧ isBlank c = false) : IsPiece cs ∧ Unblank cs :=
  ⟨.inl fun c hc => ⟨(h c hc).1, (h c hc).2.1, (h c hc).2.2.1⟩, hne,
    fun c hc => (h c (List.mem_of_mem_head? hc)).2.2.2,
    fun c hc => (h c (List.mem_of_mem_getLast? hc)).2.2.2⟩

theorem digits_plain {base : Nat} {ds : List Char} {n : Nat} (h : SpellsDigits base ds n) :
    ∀ c ∈ ds, c ≠ '\'' ∧ c ≠ ';' ∧ c ≠ ',' ∧ isBlank c = false := fun c hc =>
  have hd := digit_char (List.mem_of_mem_take (h.2.1 c hc))
  ⟨hd.2.1, hd.2.2.1, hd.2.2.2.1, hd.2.2.2.2.1⟩

/-- A number in any of its forms is read for its value. -/
theorem readNumber_spelled {cs : List Char} {n : Nat} (h : SpellsNumber cs n) : readNumber cs = some n := by
  rcases h with h | ⟨ds, rfl, h⟩ | ⟨ds, rfl, h⟩ | ⟨c, rfl, h, rfl⟩
  · rw [readNumber.eq_4]
    · exact readNonempty_spelled h
    · rintro c rfl
      exact (digits_plain h '\'' (by simp)).1 rfl
    · rintro ds rfl
      exact (digit_char (List.mem_of_mem_take (h.2.1 'x' (by simp)))).2.2.2.2.2 rfl
    · rintro ds rfl
      exact absurd (h.2.1 'b' (by simp)) (by decide)
  · exact readNonempty_spelled h
  · exact readNonempty_spelled h
  · simp only [readNumber, if_pos h]

/-- A number in any of its forms is one piece of the text. -/
theorem piece_of_spelled {cs : List Char} {n : Nat} (h : SpellsNumber cs n) : IsPiece cs ∧ Unblank cs := by
  have prefixed : ∀ (base : Nat) (p : Char) (ds : List Char) (n : Nat), SpellsDigits base ds n →
      p ≠ '\'' ∧ p ≠ ';' ∧ p ≠ ',' ∧ isBlank p = false → IsPiece ('0' :: p :: ds) ∧ Unblank ('0' :: p :: ds) := by
    intro base p ds n hd hp
    refine piece_of_plain (by simp) fun c hc => ?_
    rcases List.mem_cons.mp hc with rfl | hc
    · decide
    · rcases List.mem_cons.mp hc with rfl | hc
      · exact hp
      · exact digits_plain hd c hc
  rcases h with h | ⟨ds, rfl, h⟩ | ⟨ds, rfl, h⟩ | ⟨c, rfl, h, rfl⟩
  · exact piece_of_plain h.1 (digits_plain h)
  · exact prefixed 16 'x' ds n h (by decide)
  · exact prefixed 2 'b' ds n h (by decide)
  · refine ⟨.inr ⟨c, rfl⟩, by simp, ?_, ?_⟩ <;> intro d hd <;> simp at hd <;> rw [← hd] <;> decide

/-! Operands. -/

/-- An operand of a line: blanks around a number that spells `n`. -/
structure OperandText.Reads (o : OperandText) (n : Nat) : Prop where
  before : ∀ c ∈ o.before, isBlank c = true
  after : ∀ c ∈ o.after, isBlank c = true
  number : SpellsNumber o.number n

theorem operands_read {ops : List OperandText} {ns : List Nat} (hl : ops.length = ns.length)
    (hs : ∀ p ∈ ops.zip ns, SpellsNumber p.1.number p.2)
    (hb : ∀ o ∈ ops, ∀ c ∈ o.before ++ o.after, isBlank c = true) :
    List.Forall₂ OperandText.Reads ops ns := by
  refine List.forall₂_iff_zip.mpr ⟨hl, fun {o n} h => ?_⟩
  have ho := hb o (List.of_mem_zip h).1
  exact ⟨fun c hc => ho c (by simp [hc]), fun c hc => ho c (by simp [hc]), hs _ h⟩

/-- The operands of a line hold no comment. -/
theorem stripComment_operands {ops : List OperandText} {ns : List Nat}
    (h : List.Forall₂ OperandText.Reads ops ns) (rest : List Char) :
    stripComment (operandChars ops ++ rest) = operandChars ops ++ stripComment rest := by
  induction h with
  | nil => rfl
  | @cons o n os ns ho _ ih =>
    have hchars : ∀ r, stripComment (o.chars ++ r) = o.chars ++ stripComment r := by
      intro r
      simp only [OperandText.chars, List.append_assoc]
      rw [stripComment_piece (isPiece_blanks ho.before), stripComment_piece (piece_of_spelled ho.number).1,
        stripComment_piece (isPiece_blanks ho.after)]
    cases os with
    | nil => exact hchars rest
    | cons p os =>
      rw [operandChars, List.append_assoc, hchars, List.cons_append,
        stripComment_cons (by decide) (by decide), ih, List.append_assoc, List.cons_append]

/-- A number with blanks around it is read for its value. -/
theorem readNumbers_cons {f : List Char} {n : Nat} (hf : SpellsNumber f n) {gap gap' : List Char}
    (hg : ∀ c ∈ gap, isBlank c = true) (hg' : ∀ c ∈ gap', isBlank c = true) {fs : List (List Char)}
    {ns : List Nat} (hfs : readNumbers fs = some ns) :
    readNumbers ((gap ++ f ++ gap') :: fs) = some (n :: ns) := by
  rw [readNumbers, trimBlanks_around hg hg' (piece_of_spelled hf).2, readNumber_spelled hf, hfs]

/-- The operands of a line but for the blanks at either end: a text that has no blank at its ends and
comes apart at its commas into the numbers, with blanks before the first or without. -/
theorem operands_trimmed {o : OperandText} {os : List OperandText} {n : Nat} {ns : List Nat}
    (ho : o.Reads n) (h : List.Forall₂ OperandText.Reads os ns) :
    ∃ text after, operandChars (o :: os) = o.before ++ text ++ after ∧ (∀ c ∈ after, isBlank c = true) ∧
      Unblank text ∧ ∀ gap : List Char, (∀ c ∈ gap, isBlank c = true) →
        readNumbers (splitCommas gap.reverse text) = some (n :: ns) := by
  induction h generalizing o n with
  | nil =>
    obtain ⟨hp, hu⟩ := piece_of_spelled ho.number
    refine ⟨o.number, o.after, rfl, ho.after, hu, fun gap hg => ?_⟩
    have hs := splitCommas_piece hp gap.reverse []
    rw [List.append_nil] at hs
    rw [hs, splitCommas]
    simpa using readNumbers_cons ho.number hg (gap' := []) (by simp) (fs := []) rfl
  | @cons p m os ns hpm hos ih =>
    obtain ⟨hp, hu⟩ := piece_of_spelled ho.number
    obtain ⟨text, after, htext, hafter, hunb, hsplit⟩ := ih hpm
    refine ⟨o.number ++ (o.after ++ ',' :: p.before) ++ text, after, ?_, hafter, hu.append hunb _, ?_⟩
    · rw [operandChars, htext]
      simp [OperandText.chars]
    · intro gap hg
      have hb := splitCommas_piece (isPiece_blanks hpm.before) [] text
      rw [List.append_nil] at hb
      simp only [List.append_assoc, List.cons_append]
      rw [splitCommas_piece hp, splitCommas_piece (isPiece_blanks ho.after), splitCommas, hb]
      simpa using readNumbers_cons ho.number hg ho.after (hsplit p.before hpm.before)

/-- A text of operands with no blank at its ends is read, blanks before it or not. -/
theorem readOperands_trimmed {gap text : List Char} (hg : ∀ c ∈ gap, isBlank c = true) (hu : Unblank text) :
    readOperands (gap ++ text) = readNumbers (splitCommas [] text) := by
  have ht : trimBlanks (gap ++ text) = text := by
    simpa using trimBlanks_around (gap' := []) hg (by simp) hu
  rw [readOperands, ht, if_neg (by simpa using hu.1)]

/-! Lines. -/

/-- No mnemonic holds a character that the text is taken apart at. -/
theorem mnemonic_plain (l : AsmLine) :
    lineMnemonic l ≠ [] ∧ ∀ c ∈ lineMnemonic l, c ≠ '\'' ∧ c ≠ ';' ∧ c ≠ ',' ∧ isBlank c = false := by
  cases l <;> simp [lineMnemonic, isBlank]

/-- A mnemonic with the operands of its line makes that line. -/
theorem buildLine_self (l : AsmLine)
    (h : ∀ lens codes, l = .newTable lens codes → lens.length = 256 ∧ codes.length = 256) :
    buildLine (lineMnemonic l) (lineOperands l) = some l := by
  cases l with
  | newTable lens codes =>
    obtain ⟨h1, h2⟩ := h _ _ rfl
    simp [buildLine, lineMnemonic, lineOperands, h1, h2]
  | _ => simp [buildLine, lineMnemonic, lineOperands]

end Sys2Proof.Machine
end

