-- ==== Sys2Proof/Laws/Cells.lean ====
section
/-! SUPPORT. The laws of cells by index: read after write, and that a write keeps the canonical form. -/

namespace Sys2Proof.Machine

variable {α : Type}

@[simp] theorem cellRead_nil (k : Nat) : cellRead ([] : Cells α) k = none := rfl

/-- A read after a write to the same index gives the value written, whatever the list. -/
@[simp] theorem cellRead_cellWrite_same (m : Cells α) (k : Nat) (v : α) :
    cellRead (cellWrite m k v) k = some v := by
  induction m with
  | nil => simp [cellWrite, cellRead]
  | cons p rest ih =>
    obtain ⟨a, u⟩ := p
    simp only [cellWrite]
    split
    · simp [cellRead]
    · split
      · simp [cellRead]
      · rename_i h
        simp [cellRead, Ne.symm h, ih]

/-- A write leaves every other index alone, whatever the list. -/
theorem cellRead_cellWrite_ne (m : Cells α) {k j : Nat} (v : α) (h : j ≠ k) :
    cellRead (cellWrite m k v) j = cellRead m j := by
  induction m with
  | nil => simp [cellWrite, cellRead, Ne.symm h]
  | cons p rest ih =>
    obtain ⟨a, u⟩ := p
    simp only [cellWrite]
    split
    · simp [cellRead, Ne.symm h]
    · split
      · rename_i hka
        subst hka
        simp [cellRead, Ne.symm h]
      · simp [cellRead, ih]

/-- Both read laws in one. -/
theorem cellRead_cellWrite (m : Cells α) (k j : Nat) (v : α) :
    cellRead (cellWrite m k v) j = if j = k then some v else cellRead m j := by
  split
  · rename_i h
    subst h
    exact cellRead_cellWrite_same m j v
  · exact cellRead_cellWrite_ne m v ‹_›

/-- The cells of a written list: the new one, or old ones. -/
theorem mem_cellWrite {m : Cells α} {k : Nat} {v : α} {p : Nat × α} (h : p ∈ cellWrite m k v) :
    p = (k, v) ∨ p ∈ m := by
  induction m with
  | nil => simpa [cellWrite] using h
  | cons q rest ih =>
    obtain ⟨a, u⟩ := q
    simp only [cellWrite] at h
    split at h
    · simpa using h
    · split at h
      · rcases List.mem_cons.mp h with h | h
        · exact .inl h
        · exact .inr (List.mem_cons_of_mem _ h)
      · rcases List.mem_cons.mp h with h | h
        · exact .inr (by simp [h])
        · exact (ih h).imp_right (List.mem_cons_of_mem _)

/-- A write keeps the canonical form. -/
theorem cellsWf_cellWrite {m : Cells α} (k : Nat) (v : α) (h : cellsWf m) : cellsWf (cellWrite m k v) := by
  induction m with
  | nil => simp [cellWrite, cellsWf]
  | cons q rest ih =>
    obtain ⟨a, u⟩ := q
    rw [cellsWf, List.pairwise_cons] at h
    simp only [cellWrite]
    split
    · rename_i hlt
      rw [cellsWf, List.pairwise_cons, List.pairwise_cons]
      refine ⟨fun p hp => ?_, h⟩
      rcases List.mem_cons.mp hp with hp | hp
      · simpa [hp] using hlt
      · exact lt_trans hlt (h.1 p hp)
    · split
      · rename_i heq
        subst heq
        rw [cellsWf, List.pairwise_cons]
        exact h
      · rename_i hge hne
        rw [cellsWf, List.pairwise_cons]
        refine ⟨fun p hp => ?_, ih h.2⟩
        rcases mem_cellWrite hp with hp | hp
        · simp only [hp]
          omega
        · exact h.1 p hp

/-- What a read finds is listed. -/
theorem mem_of_cellRead {m : Cells α} {k : Nat} {v : α} (h : cellRead m k = some v) : (k, v) ∈ m := by
  induction m with
  | nil => simp at h
  | cons q rest ih =>
    obtain ⟨a, u⟩ := q
    simp only [cellRead] at h
    split at h
    · rename_i hak
      subst hak
      simp_all
    · exact List.mem_cons_of_mem _ (ih h)

/-- A canonical list reads back each of its cells. -/
theorem cellRead_of_mem {m : Cells α} (hwf : cellsWf m) {k : Nat} {v : α} (h : (k, v) ∈ m) :
    cellRead m k = some v := by
  induction m with
  | nil => simp at h
  | cons q rest ih =>
    obtain ⟨a, u⟩ := q
    rw [cellsWf, List.pairwise_cons] at hwf
    rcases List.mem_cons.mp h with h | h
    · simp_all [cellRead]
    · have := hwf.1 _ h
      simp only [cellRead]
      rw [if_neg (by simp at this; omega)]
      exact ih hwf.2 h

/-- Canonical lists that read alike are equal: equal contents are equal data. -/
theorem cells_ext {m n : Cells α} (hm : cellsWf m) (hn : cellsWf n)
    (h : ∀ k, cellRead m k = cellRead n k) : m = n := by
  have sub : ∀ {m n : Cells α}, cellsWf m → (∀ k, cellRead m k = cellRead n k) → ∀ p ∈ m, p ∈ n := by
    intro m n hm h p hp
    exact mem_of_cellRead ((h p.1).symm.trans (cellRead_of_mem hm hp))
  have hirr : ∀ p : Nat × α, ¬ p.1 < p.1 := fun p => lt_irrefl _
  have hnodup : ∀ {m : Cells α}, cellsWf m → m.Nodup := fun hw =>
    hw.imp (fun hlt heq => by simp [heq] at hlt)
  have hperm : m.Perm n :=
    (List.perm_ext_iff_of_nodup (hnodup hm) (hnodup hn)).mpr
      (fun p => ⟨sub hm h p, sub hn (fun k => (h k).symm) p⟩)
  exact hperm.eq_of_pairwise (fun a b _ _ h1 h2 => absurd (lt_trans h1 h2) (hirr a)) hm hn

end Sys2Proof.Machine
end

