-- ==== Sys2Proof/Laws/Operands.lean ====
section
/-! SUPPORT. The arithmetic of the datapath: what the masked code, the shifter's word, its octets and
its residual are as numbers. -/

namespace Sys2Proof.Machine

theorem mask_eq (n : Nat) : mask n = 2 ^ n - 1 := rfl

/-- Masking to `n` bits is the remainder by `2 ^ n`. -/
theorem and_mask (v n : Nat) : v &&& mask n = v % 2 ^ n := by
  rw [mask_eq, Nat.and_two_pow_sub_one_eq_mod]

theorem maskedCode_eq (e : TblEntry) : maskedCode e = e.code.toNat % 2 ^ e.len.toNat := and_mask _ _

theorem maskedCode_lt (e : TblEntry) : maskedCode e < 2 ^ e.len.toNat := by
  rw [maskedCode_eq]
  exact Nat.mod_lt _ (Nat.two_pow_pos _)

/-- The OR never overlaps: the shifter's word is a sum (R78). -/
theorem shifterWord_eq {len m : Nat} (a : Nat) (hm : m < 2 ^ len) : shifterWord a len m = a * 2 ^ len + m := by
  rw [shifterWord, Nat.shiftLeft_eq, Nat.mul_comm, Nat.two_pow_add_eq_or_of_lt hm]

theorem shifterWord_lt {a n len m : Nat} (ha : a < 2 ^ n) (hm : m < 2 ^ len) :
    shifterWord a len m < 2 ^ (n + len) := by
  rw [shifterWord_eq a hm, Nat.pow_add]
  have h : (a + 1) * 2 ^ len ≤ 2 ^ n * 2 ^ len := Nat.mul_le_mul_right _ ha
  rw [Nat.add_mul] at h
  omega

@[simp] theorem octets_length (w n : Nat) : (octets w n).length = n / 8 := by simp [octets]

/-- Octet `j`, as a number. -/
theorem octet_toNat (w n j : Nat) : (octet w n j).toNat = w / 2 ^ (n - 8 - 8 * j) % 256 := by
  simp [octet, slice]

theorem octet_eq (w n j : Nat) : octet w n j = BitVec.ofNat 8 (w / 2 ^ (n - 8 - 8 * j)) := by
  apply BitVec.eq_of_toNat_eq
  rw [octet_toNat]
  simp

/-- One more bit at the low end completes an octet or leaves the octets as they are (R79). -/
theorem octets_snoc (w n : Nat) (b : Bool) :
    octets (2 * w + b.toNat) (n + 1) =
      if n % 8 = 7 then octets w n ++ [BitVec.ofNat 8 (2 * (w % 2 ^ 7) + b.toNat)] else octets w n := by
  have hb : b.toNat ≤ 1 := by cases b <;> simp
  have hmap : (List.range (n / 8)).map (octet (2 * w + b.toNat) (n + 1)) = octets w n := by
    apply List.map_congr_left
    intro j hj
    have hj' := List.mem_range.mp hj
    rw [octet_eq, octet_eq, show n + 1 - 8 - 8 * j = 1 + (n - 8 - 8 * j) by omega, Nat.pow_add,
      ← Nat.div_div_eq_div_mul, show (2 * w + b.toNat) / 2 ^ 1 = w by omega]
  split
  · rw [octets, show (n + 1) / 8 = n / 8 + 1 by omega, List.range_succ, List.map_append, hmap]
    congr 1
    simp only [List.map_cons, List.map_nil]
    rw [octet_eq, show n + 1 - 8 - 8 * (n / 8) = 0 by omega]
    congr 1
    apply BitVec.eq_of_toNat_eq
    simp
    omega
  · rw [octets, show (n + 1) / 8 = n / 8 by omega, hmap]

/-- The residual, as a number. -/
theorem residual_toNat (w n : Nat) : (residual w n).toNat = w % 2 ^ (n % 8) := by
  have h8 : n % 8 ≤ 7 := by omega
  have : w % 2 ^ (n % 8) < 2 ^ 7 :=
    lt_of_lt_of_le (Nat.mod_lt _ (Nat.two_pow_pos _)) (Nat.pow_le_pow_right (by omega) h8)
  simp only [residual, slice, pow_zero, Nat.div_one, BitVec.toNat_ofNat]
  exact Nat.mod_eq_of_lt this

theorem residual_lt (w n : Nat) : (residual w n).toNat < 2 ^ (n % 8) := by
  rw [residual_toNat]
  exact Nat.mod_lt _ (Nat.two_pow_pos _)

theorem padCount_lt (n : BitVec 3) : padCount n < 8 := Nat.mod_lt _ (by omega)

theorem padCount_eq_zero (n : BitVec 3) : padCount n = 0 ↔ n = 0 := by
  have := n.isLt
  rw [padCount, ← BitVec.toNat_inj]
  simp
  omega

/-- The padded byte, with the data bits above the ones (R81). -/
theorem padByte_eq (acc : BitVec 7) (p : Nat) :
    padByte acc p = BitVec.ofNat 8 ((acc.toNat <<< p) ||| (2 ^ p - 1)) := by
  apply BitVec.eq_of_toNat_eq
  simp only [padByte, slice, mask, pow_zero, Nat.div_one, BitVec.toNat_ofNat, Nat.mod_mod]

/-- R69's check is that the code reaches `2 ^ LEN`. -/
theorem shiftRight_ne_zero_iff (v n : Nat) : v >>> n ≠ 0 ↔ 2 ^ n ≤ v := by
  rw [Nat.shiftRight_eq_div_pow, Nat.div_ne_zero_iff]
  simp

end Sys2Proof.Machine
end

