-- ==== Sys2Proof/Laws/Flags.lean ====
section
/-! SUPPORT. What the checks of a command say, as conditions on the state (R69, R96, R97, R99). -/

namespace Sys2Proof.Machine

theorem codeTooWide_iff (len : BitVec 6) (code : BitVec 32) :
    codeTooWide len code = true ↔ len.toNat < 32 ∧ 2 ^ len.toNat ≤ code.toNat := by
  simp only [codeTooWide, Bool.and_eq_true, decide_eq_true_eq, bne_iff_ne, shiftRight_ne_zero_iff]

theorem tblwFault_cases (len : BitVec 6) (code : BitVec 32) (s : State) :
    (tblwFault len code s = some .code ∧ s.cfg.strictCode = true ∧ codeTooWide len code = true) ∨
    (tblwFault len code s = none ∧ ¬ (s.cfg.strictCode = true ∧ codeTooWide len code = true)) := by
  unfold tblwFault
  split
  · exact .inl ⟨rfl, by simp_all⟩
  · exact .inr ⟨rfl, by simp_all⟩

@[simp] theorem bytesPassCap_iff (s : State) (k : Nat) :
    bytesPassCap s k = true ↔ s.cfg.outCap.toNat < s.outLen.toNat + k := by
  simp [bytesPassCap]

/-- The whole bytes that a SYM with this entry completes (R77). -/
def symBytes (e : TblEntry) (s : State) : Nat := (s.nbits.toNat + e.len.toNat) / 8

/-- R99, 5 and 6, for SYM: which fault its checks find, and when none. -/
theorem symFault_cases (e : TblEntry) (s : State) :
    (symFault e s = some .compat ∧ extraBit s.cfg e = true ∧ s.total = 0) ∨
    (symFault e s = some .ovf ∧ ¬ (extraBit s.cfg e = true ∧ s.total = 0) ∧
      s.cfg.outCap.toNat < s.outLen.toNat + symBytes e s) ∨
    (symFault e s = none ∧ ¬ (extraBit s.cfg e = true ∧ s.total = 0) ∧
      s.outLen.toNat + symBytes e s ≤ s.cfg.outCap.toNat) := by
  unfold symFault
  split
  · exact .inl ⟨rfl, by simp_all⟩
  · split
    · exact .inr (.inl ⟨rfl, by simp_all, by simp_all [symBytes]⟩)
    · exact .inr (.inr ⟨rfl, by simp_all, by simp_all [symBytes]⟩)

/-- R96 for FIN. -/
theorem finFault_cases (s : State) :
    (finFault s = some .ovf ∧ s.nbits ≠ 0 ∧ s.cfg.outCap.toNat < s.outLen.toNat + 1) ∨
    (finFault s = none ∧ (s.nbits ≠ 0 → s.outLen.toNat + 1 ≤ s.cfg.outCap.toNat)) := by
  have hp : (padCount s.nbits != 0) = true ↔ s.nbits ≠ 0 := by
    rw [bne_iff_ne, Ne, padCount_eq_zero]
  unfold finFault
  split
  · rename_i h
    rw [Bool.and_eq_true, hp, bytesPassCap_iff] at h
    exact .inl ⟨rfl, h⟩
  · rename_i h
    rw [Bool.and_eq_true, hp, bytesPassCap_iff] at h
    exact .inr ⟨rfl, fun hn => by by_contra hc; exact h ⟨hn, by omega⟩⟩

/-! The `ok` cells of R93. -/

@[simp] theorem legality_nop_ok (q : SeqState) : legality .nop q = .ok ↔ q ≠ .fault := by
  cases q <;> simp [legality]

@[simp] theorem legality_tblw_ok (idx : BitVec 8) (len : BitVec 6) (code : BitVec 32) (q : SeqState) :
    legality (.tblw idx len code) q = .ok ↔ q = .idle ∨ q = .done := by
  cases q <;> simp [legality]

@[simp] theorem legality_start_ok (q : SeqState) : legality .start q = .ok ↔ q = .idle ∨ q = .done := by
  cases q <;> simp [legality]

@[simp] theorem legality_sym_ok (b : BitVec 8) (q : SeqState) : legality (.sym b) q = .ok ↔ q = .active := by
  cases q <;> simp [legality]

@[simp] theorem legality_fin_ok (q : SeqState) : legality .fin q = .ok ↔ q = .active := by
  cases q <;> simp [legality]

@[simp] theorem legality_clr_ok (q : SeqState) : legality .clr q = .ok := by
  cases q <;> rfl

@[simp] theorem whenLegal_ok {i : Instr} {s : State} {act : Result} (h : legality i s.state = .ok) :
    whenLegal i s act = act := by simp [whenLegal, h]

@[simp] theorem whenLegal_errSeq {i : Instr} {s : State} {act : Result} (h : legality i s.state = .errSeq) :
    whenLegal i s act = .next (raise .seq (encode i) s) := by simp [whenLegal, h]

@[simp] theorem whenLegal_ignored {i : Instr} {s : State} {act : Result} (h : legality i s.state = .ignored) :
    whenLegal i s act = .next s := by simp [whenLegal, h]

@[simp] theorem orRaise_none (i : Instr) (s : State) (act : Result) : orRaise none i s act = act := rfl

@[simp] theorem orRaise_some (e : ErrCode) (i : Instr) (s : State) (act : Result) :
    orRaise (some e) i s act = .next (raise e (encode i) s) := rfl

end Sys2Proof.Machine
end

