-- ==== Sys2Proof/Laws/State.lean ====
section
/-! SUPPORT. One lemma per field per update of the state, so that no later proof unfolds a record
update. -/

namespace Sys2Proof.Machine

/-! Fields after `raise`. -/

@[simp] theorem raise_tbl (e : ErrCode) (w : CmdWord) (s : State) : (raise e w s).tbl = s.tbl := rfl
@[simp] theorem raise_state (e : ErrCode) (w : CmdWord) (s : State) : (raise e w s).state = .fault := rfl
@[simp] theorem raise_err (e : ErrCode) (w : CmdWord) (s : State) : (raise e w s).err = errBits e := rfl
@[simp] theorem raise_errcmd (e : ErrCode) (w : CmdWord) (s : State) : (raise e w s).errcmd = w := rfl
@[simp] theorem raise_acc (e : ErrCode) (w : CmdWord) (s : State) : (raise e w s).acc = s.acc := rfl
@[simp] theorem raise_nbits (e : ErrCode) (w : CmdWord) (s : State) : (raise e w s).nbits = s.nbits := rfl
@[simp] theorem raise_total (e : ErrCode) (w : CmdWord) (s : State) : (raise e w s).total = s.total := rfl
@[simp] theorem raise_pad (e : ErrCode) (w : CmdWord) (s : State) : (raise e w s).pad = s.pad := rfl
@[simp] theorem raise_outLen (e : ErrCode) (w : CmdWord) (s : State) : (raise e w s).outLen = s.outLen := rfl
@[simp] theorem raise_out (e : ErrCode) (w : CmdWord) (s : State) : (raise e w s).out = s.out := rfl
@[simp] theorem raise_cfg (e : ErrCode) (w : CmdWord) (s : State) : (raise e w s).cfg = s.cfg := rfl
@[simp] theorem raise_faulted (e : ErrCode) (w : CmdWord) (s : State) : (raise e w s).faulted = true := rfl
@[simp] theorem raise_pc (e : ErrCode) (w : CmdWord) (s : State) : (raise e w s).pc = s.pc := rfl
@[simp] theorem raise_port (e : ErrCode) (w : CmdWord) (s : State) : (raise e w s).port = s.port := rfl
@[simp] theorem raise_replies (e : ErrCode) (w : CmdWord) (s : State) : (raise e w s).replies = s.replies := rfl
@[simp] theorem raise_draws (e : ErrCode) (w : CmdWord) (s : State) : (raise e w s).draws = s.draws := rfl

/-! Fields after `clearCall`. -/

@[simp] theorem clearCall_tbl (s : State) : (clearCall s).tbl = s.tbl := rfl
@[simp] theorem clearCall_state (s : State) : (clearCall s).state = s.state := rfl
@[simp] theorem clearCall_err (s : State) : (clearCall s).err = s.err := rfl
@[simp] theorem clearCall_errcmd (s : State) : (clearCall s).errcmd = s.errcmd := rfl
@[simp] theorem clearCall_acc (s : State) : (clearCall s).acc = 0 := rfl
@[simp] theorem clearCall_nbits (s : State) : (clearCall s).nbits = 0 := rfl
@[simp] theorem clearCall_total (s : State) : (clearCall s).total = 0 := rfl
@[simp] theorem clearCall_pad (s : State) : (clearCall s).pad = 0 := rfl
@[simp] theorem clearCall_outLen (s : State) : (clearCall s).outLen = 0 := rfl
@[simp] theorem clearCall_out (s : State) : (clearCall s).out = s.out := rfl
@[simp] theorem clearCall_cfg (s : State) : (clearCall s).cfg = s.cfg := rfl
@[simp] theorem clearCall_faulted (s : State) : (clearCall s).faulted = s.faulted := rfl
@[simp] theorem clearCall_pc (s : State) : (clearCall s).pc = s.pc := rfl
@[simp] theorem clearCall_port (s : State) : (clearCall s).port = s.port := rfl
@[simp] theorem clearCall_replies (s : State) : (clearCall s).replies = s.replies := rfl
@[simp] theorem clearCall_draws (s : State) : (clearCall s).draws = s.draws := rfl

/-! Fields after `clearToIdle`. -/

@[simp] theorem clearToIdle_tbl (s : State) : (clearToIdle s).tbl = s.tbl := rfl
@[simp] theorem clearToIdle_state (s : State) : (clearToIdle s).state = .idle := rfl
@[simp] theorem clearToIdle_err (s : State) : (clearToIdle s).err = 0 := rfl
@[simp] theorem clearToIdle_errcmd (s : State) : (clearToIdle s).errcmd = 0 := rfl
@[simp] theorem clearToIdle_acc (s : State) : (clearToIdle s).acc = 0 := rfl
@[simp] theorem clearToIdle_nbits (s : State) : (clearToIdle s).nbits = 0 := rfl
@[simp] theorem clearToIdle_total (s : State) : (clearToIdle s).total = 0 := rfl
@[simp] theorem clearToIdle_pad (s : State) : (clearToIdle s).pad = 0 := rfl
@[simp] theorem clearToIdle_outLen (s : State) : (clearToIdle s).outLen = 0 := rfl
@[simp] theorem clearToIdle_out (s : State) : (clearToIdle s).out = s.out := rfl
@[simp] theorem clearToIdle_cfg (s : State) : (clearToIdle s).cfg = s.cfg := rfl
@[simp] theorem clearToIdle_faulted (s : State) : (clearToIdle s).faulted = s.faulted := rfl
@[simp] theorem clearToIdle_pc (s : State) : (clearToIdle s).pc = s.pc := rfl
@[simp] theorem clearToIdle_port (s : State) : (clearToIdle s).port = s.port := rfl
@[simp] theorem clearToIdle_replies (s : State) : (clearToIdle s).replies = s.replies := rfl
@[simp] theorem clearToIdle_draws (s : State) : (clearToIdle s).draws = s.draws := rfl

/-! Fields after `resetBlock`. -/

@[simp] theorem resetBlock_tbl (s : State) : (resetBlock s).tbl = [] := rfl
@[simp] theorem resetBlock_state (s : State) : (resetBlock s).state = .idle := rfl
@[simp] theorem resetBlock_err (s : State) : (resetBlock s).err = 0 := rfl
@[simp] theorem resetBlock_errcmd (s : State) : (resetBlock s).errcmd = 0 := rfl
@[simp] theorem resetBlock_acc (s : State) : (resetBlock s).acc = 0 := rfl
@[simp] theorem resetBlock_nbits (s : State) : (resetBlock s).nbits = 0 := rfl
@[simp] theorem resetBlock_total (s : State) : (resetBlock s).total = 0 := rfl
@[simp] theorem resetBlock_pad (s : State) : (resetBlock s).pad = 0 := rfl
@[simp] theorem resetBlock_outLen (s : State) : (resetBlock s).outLen = 0 := rfl
@[simp] theorem resetBlock_out (s : State) : (resetBlock s).out = [] := rfl
@[simp] theorem resetBlock_cfg (s : State) : (resetBlock s).cfg = s.cfg := rfl
@[simp] theorem resetBlock_faulted (s : State) : (resetBlock s).faulted = false := rfl
@[simp] theorem resetBlock_pc (s : State) : (resetBlock s).pc = s.pc := rfl
@[simp] theorem resetBlock_port (s : State) : (resetBlock s).port = s.port := rfl
@[simp] theorem resetBlock_replies (s : State) : (resetBlock s).replies = s.replies := rfl
@[simp] theorem resetBlock_draws (s : State) : (resetBlock s).draws = s.draws := rfl

/-! Fields after `setOut`. -/

@[simp] theorem setOut_tbl (k : Nat) (v : Byte) (s : State) : (setOut k v s).tbl = s.tbl := rfl
@[simp] theorem setOut_state (k : Nat) (v : Byte) (s : State) : (setOut k v s).state = s.state := rfl
@[simp] theorem setOut_err (k : Nat) (v : Byte) (s : State) : (setOut k v s).err = s.err := rfl
@[simp] theorem setOut_errcmd (k : Nat) (v : Byte) (s : State) : (setOut k v s).errcmd = s.errcmd := rfl
@[simp] theorem setOut_acc (k : Nat) (v : Byte) (s : State) : (setOut k v s).acc = s.acc := rfl
@[simp] theorem setOut_nbits (k : Nat) (v : Byte) (s : State) : (setOut k v s).nbits = s.nbits := rfl
@[simp] theorem setOut_total (k : Nat) (v : Byte) (s : State) : (setOut k v s).total = s.total := rfl
@[simp] theorem setOut_pad (k : Nat) (v : Byte) (s : State) : (setOut k v s).pad = s.pad := rfl
@[simp] theorem setOut_outLen (k : Nat) (v : Byte) (s : State) : (setOut k v s).outLen = s.outLen := rfl
@[simp] theorem setOut_out (k : Nat) (v : Byte) (s : State) : (setOut k v s).out = cellWrite s.out k v := rfl
@[simp] theorem setOut_cfg (k : Nat) (v : Byte) (s : State) : (setOut k v s).cfg = s.cfg := rfl
@[simp] theorem setOut_faulted (k : Nat) (v : Byte) (s : State) : (setOut k v s).faulted = s.faulted := rfl
@[simp] theorem setOut_pc (k : Nat) (v : Byte) (s : State) : (setOut k v s).pc = s.pc := rfl
@[simp] theorem setOut_port (k : Nat) (v : Byte) (s : State) : (setOut k v s).port = s.port := rfl
@[simp] theorem setOut_replies (k : Nat) (v : Byte) (s : State) : (setOut k v s).replies = s.replies := rfl
@[simp] theorem setOut_draws (k : Nat) (v : Byte) (s : State) : (setOut k v s).draws = s.draws := rfl

/-! Fields after `setTbl`. -/

@[simp] theorem setTbl_tbl (idx : Byte) (e : TblEntry) (s : State) : (setTbl idx e s).tbl = cellWrite s.tbl idx.toNat e := rfl
@[simp] theorem setTbl_state (idx : Byte) (e : TblEntry) (s : State) : (setTbl idx e s).state = s.state := rfl
@[simp] theorem setTbl_err (idx : Byte) (e : TblEntry) (s : State) : (setTbl idx e s).err = s.err := rfl
@[simp] theorem setTbl_errcmd (idx : Byte) (e : TblEntry) (s : State) : (setTbl idx e s).errcmd = s.errcmd := rfl
@[simp] theorem setTbl_acc (idx : Byte) (e : TblEntry) (s : State) : (setTbl idx e s).acc = s.acc := rfl
@[simp] theorem setTbl_nbits (idx : Byte) (e : TblEntry) (s : State) : (setTbl idx e s).nbits = s.nbits := rfl
@[simp] theorem setTbl_total (idx : Byte) (e : TblEntry) (s : State) : (setTbl idx e s).total = s.total := rfl
@[simp] theorem setTbl_pad (idx : Byte) (e : TblEntry) (s : State) : (setTbl idx e s).pad = s.pad := rfl
@[simp] theorem setTbl_outLen (idx : Byte) (e : TblEntry) (s : State) : (setTbl idx e s).outLen = s.outLen := rfl
@[simp] theorem setTbl_out (idx : Byte) (e : TblEntry) (s : State) : (setTbl idx e s).out = s.out := rfl
@[simp] theorem setTbl_cfg (idx : Byte) (e : TblEntry) (s : State) : (setTbl idx e s).cfg = s.cfg := rfl
@[simp] theorem setTbl_faulted (idx : Byte) (e : TblEntry) (s : State) : (setTbl idx e s).faulted = s.faulted := rfl
@[simp] theorem setTbl_pc (idx : Byte) (e : TblEntry) (s : State) : (setTbl idx e s).pc = s.pc := rfl
@[simp] theorem setTbl_port (idx : Byte) (e : TblEntry) (s : State) : (setTbl idx e s).port = s.port := rfl
@[simp] theorem setTbl_replies (idx : Byte) (e : TblEntry) (s : State) : (setTbl idx e s).replies = s.replies := rfl
@[simp] theorem setTbl_draws (idx : Byte) (e : TblEntry) (s : State) : (setTbl idx e s).draws = s.draws := rfl

/-! Fields after `emit`. -/

@[simp] theorem emit_tbl (v : Byte) (s : State) : (emit v s).tbl = s.tbl := rfl
@[simp] theorem emit_state (v : Byte) (s : State) : (emit v s).state = s.state := rfl
@[simp] theorem emit_err (v : Byte) (s : State) : (emit v s).err = s.err := rfl
@[simp] theorem emit_errcmd (v : Byte) (s : State) : (emit v s).errcmd = s.errcmd := rfl
@[simp] theorem emit_acc (v : Byte) (s : State) : (emit v s).acc = s.acc := rfl
@[simp] theorem emit_nbits (v : Byte) (s : State) : (emit v s).nbits = s.nbits := rfl
@[simp] theorem emit_total (v : Byte) (s : State) : (emit v s).total = s.total := rfl
@[simp] theorem emit_pad (v : Byte) (s : State) : (emit v s).pad = s.pad := rfl
@[simp] theorem emit_outLen (v : Byte) (s : State) : (emit v s).outLen = s.outLen + 1 := rfl
@[simp] theorem emit_out (v : Byte) (s : State) : (emit v s).out = cellWrite s.out s.outLen.toNat v := rfl
@[simp] theorem emit_cfg (v : Byte) (s : State) : (emit v s).cfg = s.cfg := rfl
@[simp] theorem emit_faulted (v : Byte) (s : State) : (emit v s).faulted = s.faulted := rfl
@[simp] theorem emit_pc (v : Byte) (s : State) : (emit v s).pc = s.pc := rfl
@[simp] theorem emit_port (v : Byte) (s : State) : (emit v s).port = s.port := rfl
@[simp] theorem emit_replies (v : Byte) (s : State) : (emit v s).replies = s.replies := rfl
@[simp] theorem emit_draws (v : Byte) (s : State) : (emit v s).draws = s.draws := rfl

/-! Fields after `openCall`. -/

@[simp] theorem openCall_tbl (s : State) : (openCall s).tbl = s.tbl := rfl
@[simp] theorem openCall_state (s : State) : (openCall s).state = .active := rfl
@[simp] theorem openCall_err (s : State) : (openCall s).err = s.err := rfl
@[simp] theorem openCall_errcmd (s : State) : (openCall s).errcmd = s.errcmd := rfl
@[simp] theorem openCall_acc (s : State) : (openCall s).acc = 0 := rfl
@[simp] theorem openCall_nbits (s : State) : (openCall s).nbits = 0 := rfl
@[simp] theorem openCall_total (s : State) : (openCall s).total = 0 := rfl
@[simp] theorem openCall_pad (s : State) : (openCall s).pad = 0 := rfl
@[simp] theorem openCall_outLen (s : State) : (openCall s).outLen = 0 := rfl
@[simp] theorem openCall_out (s : State) : (openCall s).out = s.out := rfl
@[simp] theorem openCall_cfg (s : State) : (openCall s).cfg = s.cfg := rfl
@[simp] theorem openCall_faulted (s : State) : (openCall s).faulted = s.faulted := rfl
@[simp] theorem openCall_pc (s : State) : (openCall s).pc = s.pc := rfl
@[simp] theorem openCall_port (s : State) : (openCall s).port = s.port := rfl
@[simp] theorem openCall_replies (s : State) : (openCall s).replies = s.replies := rfl
@[simp] theorem openCall_draws (s : State) : (openCall s).draws = s.draws := rfl

/-! Fields after `serveRead`. -/

@[simp] theorem serveRead_tbl (addr : ReadWord) (s : State) : (serveRead addr s).tbl = s.tbl := rfl
@[simp] theorem serveRead_state (addr : ReadWord) (s : State) : (serveRead addr s).state = s.state := rfl
@[simp] theorem serveRead_err (addr : ReadWord) (s : State) : (serveRead addr s).err = s.err := rfl
@[simp] theorem serveRead_errcmd (addr : ReadWord) (s : State) : (serveRead addr s).errcmd = s.errcmd := rfl
@[simp] theorem serveRead_acc (addr : ReadWord) (s : State) : (serveRead addr s).acc = s.acc := rfl
@[simp] theorem serveRead_nbits (addr : ReadWord) (s : State) : (serveRead addr s).nbits = s.nbits := rfl
@[simp] theorem serveRead_total (addr : ReadWord) (s : State) : (serveRead addr s).total = s.total := rfl
@[simp] theorem serveRead_pad (addr : ReadWord) (s : State) : (serveRead addr s).pad = s.pad := rfl
@[simp] theorem serveRead_outLen (addr : ReadWord) (s : State) : (serveRead addr s).outLen = s.outLen := rfl
@[simp] theorem serveRead_out (addr : ReadWord) (s : State) : (serveRead addr s).out = s.out := rfl
@[simp] theorem serveRead_cfg (addr : ReadWord) (s : State) : (serveRead addr s).cfg = s.cfg := rfl
@[simp] theorem serveRead_faulted (addr : ReadWord) (s : State) : (serveRead addr s).faulted = s.faulted := rfl
@[simp] theorem serveRead_pc (addr : ReadWord) (s : State) : (serveRead addr s).pc = s.pc := rfl
@[simp] theorem serveRead_port (addr : ReadWord) (s : State) : (serveRead addr s).port = s.port := rfl
@[simp] theorem serveRead_replies (addr : ReadWord) (s : State) : (serveRead addr s).replies = s.replies ++ [readWord s addr] := rfl
@[simp] theorem serveRead_draws (addr : ReadWord) (s : State) : (serveRead addr s).draws = s.draws + 1 := rfl

/-! Fields after `emitAll`: only OUT and OUT_LEN move. -/

@[simp] theorem emitAll_tbl (vs : List Byte) (s : State) : (emitAll vs s).tbl = s.tbl := by
  induction vs generalizing s with
  | nil => rfl
  | cons v vs ih => exact ih (emit v s)
@[simp] theorem emitAll_state (vs : List Byte) (s : State) : (emitAll vs s).state = s.state := by
  induction vs generalizing s with
  | nil => rfl
  | cons v vs ih => exact ih (emit v s)
@[simp] theorem emitAll_err (vs : List Byte) (s : State) : (emitAll vs s).err = s.err := by
  induction vs generalizing s with
  | nil => rfl
  | cons v vs ih => exact ih (emit v s)
@[simp] theorem emitAll_errcmd (vs : List Byte) (s : State) : (emitAll vs s).errcmd = s.errcmd := by
  induction vs generalizing s with
  | nil => rfl
  | cons v vs ih => exact ih (emit v s)
@[simp] theorem emitAll_acc (vs : List Byte) (s : State) : (emitAll vs s).acc = s.acc := by
  induction vs generalizing s with
  | nil => rfl
  | cons v vs ih => exact ih (emit v s)
@[simp] theorem emitAll_nbits (vs : List Byte) (s : State) : (emitAll vs s).nbits = s.nbits := by
  induction vs generalizing s with
  | nil => rfl
  | cons v vs ih => exact ih (emit v s)
@[simp] theorem emitAll_total (vs : List Byte) (s : State) : (emitAll vs s).total = s.total := by
  induction vs generalizing s with
  | nil => rfl
  | cons v vs ih => exact ih (emit v s)
@[simp] theorem emitAll_pad (vs : List Byte) (s : State) : (emitAll vs s).pad = s.pad := by
  induction vs generalizing s with
  | nil => rfl
  | cons v vs ih => exact ih (emit v s)
@[simp] theorem emitAll_cfg (vs : List Byte) (s : State) : (emitAll vs s).cfg = s.cfg := by
  induction vs generalizing s with
  | nil => rfl
  | cons v vs ih => exact ih (emit v s)
@[simp] theorem emitAll_faulted (vs : List Byte) (s : State) : (emitAll vs s).faulted = s.faulted := by
  induction vs generalizing s with
  | nil => rfl
  | cons v vs ih => exact ih (emit v s)
@[simp] theorem emitAll_pc (vs : List Byte) (s : State) : (emitAll vs s).pc = s.pc := by
  induction vs generalizing s with
  | nil => rfl
  | cons v vs ih => exact ih (emit v s)
@[simp] theorem emitAll_port (vs : List Byte) (s : State) : (emitAll vs s).port = s.port := by
  induction vs generalizing s with
  | nil => rfl
  | cons v vs ih => exact ih (emit v s)
@[simp] theorem emitAll_replies (vs : List Byte) (s : State) : (emitAll vs s).replies = s.replies := by
  induction vs generalizing s with
  | nil => rfl
  | cons v vs ih => exact ih (emit v s)
@[simp] theorem emitAll_draws (vs : List Byte) (s : State) : (emitAll vs s).draws = s.draws := by
  induction vs generalizing s with
  | nil => rfl
  | cons v vs ih => exact ih (emit v s)

/-! Fields after `appendCode`. -/

@[simp] theorem appendCode_tbl (len m : Nat) (s : State) : (appendCode len m s).tbl = s.tbl :=
  emitAll_tbl _ s
@[simp] theorem appendCode_state (len m : Nat) (s : State) : (appendCode len m s).state = s.state :=
  emitAll_state _ s
@[simp] theorem appendCode_err (len m : Nat) (s : State) : (appendCode len m s).err = s.err :=
  emitAll_err _ s
@[simp] theorem appendCode_errcmd (len m : Nat) (s : State) : (appendCode len m s).errcmd = s.errcmd :=
  emitAll_errcmd _ s
@[simp] theorem appendCode_pad (len m : Nat) (s : State) : (appendCode len m s).pad = s.pad :=
  emitAll_pad _ s
@[simp] theorem appendCode_cfg (len m : Nat) (s : State) : (appendCode len m s).cfg = s.cfg :=
  emitAll_cfg _ s
@[simp] theorem appendCode_faulted (len m : Nat) (s : State) : (appendCode len m s).faulted = s.faulted :=
  emitAll_faulted _ s
@[simp] theorem appendCode_pc (len m : Nat) (s : State) : (appendCode len m s).pc = s.pc :=
  emitAll_pc _ s
@[simp] theorem appendCode_port (len m : Nat) (s : State) : (appendCode len m s).port = s.port :=
  emitAll_port _ s
@[simp] theorem appendCode_replies (len m : Nat) (s : State) : (appendCode len m s).replies = s.replies :=
  emitAll_replies _ s
@[simp] theorem appendCode_draws (len m : Nat) (s : State) : (appendCode len m s).draws = s.draws :=
  emitAll_draws _ s
@[simp] theorem appendCode_nbits (len m : Nat) (s : State) : (appendCode len m s).nbits = BitVec.ofNat 3 ((s.nbits.toNat + len) % 8) := rfl
@[simp] theorem appendCode_acc (len m : Nat) (s : State) : (appendCode len m s).acc = residual (shifterWord s.acc.toNat len m) (s.nbits.toNat + len) := rfl
@[simp] theorem appendCode_total (len m : Nat) (s : State) : (appendCode len m s).total = BitVec.ofNat 32 (s.total.toNat + len) := rfl
@[simp] theorem appendCode_out (len m : Nat) (s : State) : (appendCode len m s).out = (emitAll (octets (shifterWord s.acc.toNat len m) (s.nbits.toNat + len)) s).out := rfl
@[simp] theorem appendCode_outLen (len m : Nat) (s : State) : (appendCode len m s).outLen = (emitAll (octets (shifterWord s.acc.toNat len m) (s.nbits.toNat + len)) s).outLen := rfl

/-! Fields after `closeCall`. -/

@[simp] theorem closeCall_tbl (s : State) : (closeCall s).tbl = s.tbl := by
  unfold closeCall
  split <;> rfl
@[simp] theorem closeCall_err (s : State) : (closeCall s).err = s.err := by
  unfold closeCall
  split <;> rfl
@[simp] theorem closeCall_errcmd (s : State) : (closeCall s).errcmd = s.errcmd := by
  unfold closeCall
  split <;> rfl
@[simp] theorem closeCall_total (s : State) : (closeCall s).total = s.total := by
  unfold closeCall
  split <;> rfl
@[simp] theorem closeCall_cfg (s : State) : (closeCall s).cfg = s.cfg := by
  unfold closeCall
  split <;> rfl
@[simp] theorem closeCall_faulted (s : State) : (closeCall s).faulted = s.faulted := by
  unfold closeCall
  split <;> rfl
@[simp] theorem closeCall_pc (s : State) : (closeCall s).pc = s.pc := by
  unfold closeCall
  split <;> rfl
@[simp] theorem closeCall_port (s : State) : (closeCall s).port = s.port := by
  unfold closeCall
  split <;> rfl
@[simp] theorem closeCall_replies (s : State) : (closeCall s).replies = s.replies := by
  unfold closeCall
  split <;> rfl
@[simp] theorem closeCall_draws (s : State) : (closeCall s).draws = s.draws := by
  unfold closeCall
  split <;> rfl
@[simp] theorem closeCall_acc (s : State) : (closeCall s).acc = 0 := rfl
@[simp] theorem closeCall_nbits (s : State) : (closeCall s).nbits = 0 := rfl
@[simp] theorem closeCall_pad (s : State) : (closeCall s).pad = BitVec.ofNat 3 (padCount s.nbits) := rfl
@[simp] theorem closeCall_state (s : State) : (closeCall s).state = .done := rfl
theorem closeCall_out (s : State) : (closeCall s).out =
    if padCount s.nbits = 0 then s.out else (emit (padByte s.acc (padCount s.nbits)) s).out := by
  unfold closeCall
  split <;> rfl
theorem closeCall_outLen (s : State) : (closeCall s).outLen =
    if padCount s.nbits = 0 then s.outLen else (emit (padByte s.acc (padCount s.nbits)) s).outLen := by
  unfold closeCall
  split <;> rfl

end Sys2Proof.Machine
end

