-- ==== Sys2Proof/Laws/Ops.lean ====
section
/-! SUPPORT. What the shared operations do: the append primitive, the table write, fault entry, and the
host's next transaction. -/

namespace Sys2Proof.Machine

/-! The code table. -/

/-- R68: the entry written reads back, every other entry reads as before. -/
theorem tblEntry_setTbl (idx j : Byte) (e : TblEntry) (s : State) :
    tblEntry (setTbl idx e s) j = if j = idx then some e else tblEntry s j := by
  simp only [tblEntry, setTbl_tbl, cellRead_cellWrite, BitVec.toNat_inj]

theorem tblEntry_of_tbl_eq {s t : State} (h : t.tbl = s.tbl) (j : Byte) : tblEntry t j = tblEntry s j := by
  rw [tblEntry, tblEntry, h]

/-! The output buffer. -/

theorem outByte_of_out_eq {s t : State} (h : t.out = s.out) (k : Nat) : outByte t k = outByte s k := by
  rw [outByte, outByte, h]

theorem outByte_of_read_eq {s t : State} {k : Nat} (h : cellRead t.out k = cellRead s.out k) :
    outByte t k = outByte s k := by
  rw [outByte, outByte, h]

theorem outByte_of_some {s : State} {k : Nat} {v : Byte} (h : cellRead s.out k = some v) : outByte s k = v := by
  rw [outByte, h, Option.getD_some]

theorem outByte_setOut (s : State) (k j : Nat) (v : Byte) :
    outByte (setOut k v s) j = if j = k then v else outByte s j := by
  simp only [outByte, setOut_out, cellRead_cellWrite]
  split <;> rfl

theorem emitAll_cons (v : Byte) (vs : List Byte) (s : State) :
    emitAll (v :: vs) s = emitAll vs (emit v s) := rfl

theorem emitAll_append (us vs : List Byte) (s : State) : emitAll (us ++ vs) s = emitAll vs (emitAll us s) := by
  induction us generalizing s with
  | nil => rfl
  | cons u us ih => exact ih (emit u s)

/-- OUT_LEN counts the bytes emitted, as long as it does not wrap. -/
theorem emitAll_outLen (vs : List Byte) (s : State) (h : s.outLen.toNat + vs.length < 2 ^ 32) :
    (emitAll vs s).outLen.toNat = s.outLen.toNat + vs.length := by
  induction vs generalizing s with
  | nil => rfl
  | cons v vs ih =>
    have hone : (emit v s).outLen.toNat = s.outLen.toNat + 1 := by
      simp only [emit_outLen, BitVec.toNat_add, List.length_cons] at *
      simp
      omega
    rw [emitAll_cons, ih _ (by rw [hone]; simp at h; omega), hone]
    simp
    omega

/-- Everything `emitAll` does to OUT: the bytes stand in order from the old OUT_LEN, and nothing else
changes (R55). -/
theorem cellRead_emitAll (vs : List Byte) (s : State) (h : s.outLen.toNat + vs.length < 2 ^ 32) (k : Nat) :
    cellRead (emitAll vs s).out k =
      if s.outLen.toNat ≤ k ∧ k < s.outLen.toNat + vs.length then vs[k - s.outLen.toNat]?
      else cellRead s.out k := by
  induction vs generalizing s with
  | nil =>
    rw [if_neg (by simp)]
    rfl
  | cons v vs ih =>
    have hone : (emit v s).outLen.toNat = s.outLen.toNat + 1 :=
      emitAll_outLen [v] s (by simp at h ⊢; omega)
    rw [emitAll_cons, ih _ (by rw [hone]; simp at h; omega), hone, emit_out, cellRead_cellWrite]
    simp only [List.length_cons]
    by_cases hk : k = s.outLen.toNat
    · rw [if_neg (by omega), if_pos hk, if_pos (by omega)]
      simp [hk]
    · rw [if_neg hk]
      by_cases hin : s.outLen.toNat + 1 ≤ k ∧ k < s.outLen.toNat + 1 + vs.length
      · rw [if_pos hin, if_pos (by omega)]
        have : k - s.outLen.toNat = k - (s.outLen.toNat + 1) + 1 := by omega
        rw [this, List.getElem?_cons_succ]
      · rw [if_neg hin, if_neg (by omega)]

/-- `emitAll` keeps the canonical form. -/
theorem emitAll_wf (vs : List Byte) {s : State} (h : Memory.wf s.out) : Memory.wf (emitAll vs s).out := by
  induction vs generalizing s with
  | nil => exact h
  | cons v vs ih => exact ih (cellsWf_cellWrite _ _ h)

/-- Each other write keeps it too, and the machine after reset has it. -/
theorem setOut_wf (k : Nat) (v : Byte) {s : State} (h : Memory.wf s.out) : Memory.wf (setOut k v s).out :=
  cellsWf_cellWrite k v h

theorem setTbl_wf (idx : Byte) (e : TblEntry) {s : State} (h : cellsWf s.tbl) : cellsWf (setTbl idx e s).tbl :=
  cellsWf_cellWrite idx.toNat e h

theorem resetWith_wf (c : Config) : Memory.wf (State.resetWith c).out ∧ cellsWf (State.resetWith c).tbl :=
  ⟨.nil, .nil⟩

/-- The cells after `emitAll`: old ones, or the bytes emitted. -/
theorem mem_emitAll {vs : List Byte} {s : State} (h : s.outLen.toNat + vs.length < 2 ^ 32) {p : Nat × Byte}
    (hp : p ∈ (emitAll vs s).out) : p ∈ s.out ∨ p.1 < s.outLen.toNat + vs.length := by
  induction vs generalizing s with
  | nil => exact .inl hp
  | cons v vs ih =>
    have hone : (emit v s).outLen.toNat = s.outLen.toNat + 1 :=
      emitAll_outLen [v] s (by simp at h ⊢; omega)
    simp only [List.length_cons] at h ⊢
    rcases ih (s := emit v s) (by rw [hone]; omega) hp with hp | hp
    · rcases mem_cellWrite hp with hp | hp
      · right
        simp [hp]
      · exact .inl hp
    · right
      omega

/-- Only OUT and OUT_LEN move. -/
theorem emitAll_frame (vs : List Byte) (s : State) :
    emitAll vs s = { s with out := (emitAll vs s).out, outLen := (emitAll vs s).outLen } := by
  apply State.ext <;> simp

/-! Appending a code (R77). -/

/-- Only the residual, the counters and OUT move. -/
theorem appendCode_frame (len m : Nat) (s : State) :
    appendCode len m s = { s with
      acc := (appendCode len m s).acc, nbits := (appendCode len m s).nbits,
      total := (appendCode len m s).total, outLen := (appendCode len m s).outLen,
      out := (appendCode len m s).out } := by
  apply State.ext <;> simp

@[simp] theorem appendCode_nbits_toNat (len m : Nat) (s : State) :
    (appendCode len m s).nbits.toNat = (s.nbits.toNat + len) % 8 := by
  rw [appendCode_nbits, BitVec.toNat_ofNat]
  omega

theorem appendCode_acc_toNat (len m : Nat) (s : State) :
    (appendCode len m s).acc.toNat =
      shifterWord s.acc.toNat len m % 2 ^ ((s.nbits.toNat + len) % 8) := by
  rw [appendCode_acc, residual_toNat]

/-- OUT_LEN grows by the whole octets completed. -/
theorem appendCode_outLen_toNat {len m : Nat} {s : State}
    (h : s.outLen.toNat + (s.nbits.toNat + len) / 8 < 2 ^ 32) :
    (appendCode len m s).outLen.toNat = s.outLen.toNat + (s.nbits.toNat + len) / 8 := by
  rw [appendCode_outLen, emitAll_outLen _ _ (by simpa using h), octets_length]

/-- The octets stand from the old OUT_LEN on, and no other byte changes. -/
theorem cellRead_appendCode {len m : Nat} {s : State}
    (h : s.outLen.toNat + (s.nbits.toNat + len) / 8 < 2 ^ 32) (k : Nat) :
    cellRead (appendCode len m s).out k =
      if s.outLen.toNat ≤ k ∧ k < s.outLen.toNat + (s.nbits.toNat + len) / 8 then
        some (octet (shifterWord s.acc.toNat len m) (s.nbits.toNat + len) (k - s.outLen.toNat))
      else cellRead s.out k := by
  rw [appendCode_out, cellRead_emitAll _ _ (by simpa using h), octets_length]
  split
  · rename_i hk
    simp only [octets, List.getElem?_map]
    rw [List.getElem?_range (by omega)]
    rfl
  · rfl

/-! Closing a call. -/

/-- The bytes FIN emits: the padded byte when one is needed, else none (R81). -/
def finBytes (s : State) : List Byte :=
  if padCount s.nbits = 0 then [] else [padByte s.acc (padCount s.nbits)]

/-- Only the residual, the padding, STATE and OUT move. -/
theorem closeCall_frame (s : State) :
    closeCall s = { s with
      acc := 0, nbits := 0, pad := (closeCall s).pad, state := .done,
      outLen := (closeCall s).outLen, out := (closeCall s).out } := by
  apply State.ext <;> simp

theorem finBytes_length (s : State) : (finBytes s).length = if s.nbits = 0 then 0 else 1 := by
  by_cases h : s.nbits = 0
  · rw [finBytes, if_pos ((padCount_eq_zero _).mpr h), if_pos h]
    rfl
  · rw [finBytes, if_neg (fun hc => h ((padCount_eq_zero _).mp hc)), if_neg h]
    rfl

theorem closeCall_out_eq (s : State) : (closeCall s).out = (emitAll (finBytes s) s).out := by
  rw [closeCall_out, finBytes]
  split <;> rfl

theorem closeCall_outLen_eq (s : State) : (closeCall s).outLen = (emitAll (finBytes s) s).outLen := by
  rw [closeCall_outLen, finBytes]
  split <;> rfl

/-! The extra mask bit. -/

/-- Everything `applyExtraBit` can do when it answers a next state (R77, R80). -/
theorem applyExtraBit_cases {x : Bool} {s t : State} (h : applyExtraBit x s = .next t) :
    (x = false ∧ t = s) ∨
    (x = true ∧ s.nbits ≠ 0 ∧ t = { s with acc := s.acc ||| 1 }) ∨
    (x = true ∧ s.nbits = 0 ∧ s.outLen ≠ 0 ∧
      t = setOut (s.outLen.toNat - 1) (outByte s (s.outLen.toNat - 1) ||| 1) s) := by
  unfold applyExtraBit at h
  split at h
  · cases h
    exact .inl ⟨‹_›, rfl⟩
  · rename_i hx
    have hx' : x = true := by simpa using hx
    split at h
    · cases h
      exact .inr (.inl ⟨hx', ‹_›, rfl⟩)
    · rename_i hn
      split at h
      · cases h
      · cases h
        exact .inr (.inr ⟨hx', by simpa using hn, ‹_›, rfl⟩)

/-- It never refuses, and it stops only for a byte that does not exist. -/
theorem applyExtraBit_total (x : Bool) (s : State) :
    (∃ t, applyExtraBit x s = .next t) ∨
    (applyExtraBit x s = .fault .outIndexMissing ∧ x = true ∧ s.nbits = 0 ∧ s.outLen = 0) := by
  by_cases hx : x = false
  · exact .inl ⟨s, by simp [applyExtraBit, hx]⟩
  · by_cases hn : s.nbits = 0
    · by_cases ho : s.outLen = 0
      · exact .inr (by simp [applyExtraBit, hn, ho, Bool.eq_true_of_not_eq_false hx])
      · exact .inl ⟨_, by rw [applyExtraBit, if_neg hx, if_neg (not_not.mpr hn), if_neg ho]⟩
    · exact .inl ⟨_, by rw [applyExtraBit, if_neg hx, if_pos hn]⟩

/-- Only ACC and OUT can move. -/
theorem applyExtraBit_frame {x : Bool} {s t : State} (h : applyExtraBit x s = .next t) :
    t = { s with acc := t.acc, out := t.out } := by
  rcases applyExtraBit_cases h with ⟨-, rfl⟩ | ⟨-, -, rfl⟩ | ⟨-, -, -, rfl⟩ <;> rfl

end Sys2Proof.Machine
end

