-- ==== Sys2Proof/Laws/Exec.lean ====
section
/-! SUPPORT. What executing a command, performing a word and taking a step can do: one inversion for
each, which later proofs cite instead of unfolding the meanings. -/

namespace Sys2Proof.Machine

/-- Everything a command can lead to when it answers a next state. -/
inductive ExecCase : Instr → State → State → Prop where
  /-- In FAULT every command but CLR is ignored (R101). -/
  | ignored {i s} : s.state = .fault → i ≠ .clr → ExecCase i s s
  /-- `E_SEQ`, with the command's own word (R93, R100). -/
  | errSeq {i s} : legality i s.state = .errSeq → ExecCase i s (raise .seq (encode i) s)
  /-- `E_NOENT` (R94). -/
  | noEntry {b s} : s.state = .active → tblEntry s b = none →
      ExecCase (.sym b) s (raise .noent (encode (.sym b)) s)
  /-- `E_CODE` (R95). -/
  | wideCode {idx len code s} : s.state = .idle ∨ s.state = .done → tblwFault len code s = some .code →
      ExecCase (.tblw idx len code) s (raise .code (encode (.tblw idx len code)) s)
  /-- `E_COMPAT` or `E_OVF` of a SYM (R96, R97). -/
  | symFaults {b e f s} : s.state = .active → tblEntry s b = some e → symFault e s = some f →
      ExecCase (.sym b) s (raise f (encode (.sym b)) s)
  /-- `E_OVF` of a FIN (R96). -/
  | finFaults {s} : s.state = .active → finFault s = some .ovf →
      ExecCase .fin s (raise .ovf (encode .fin) s)
  | nop {s} : s.state ≠ .fault → ExecCase .nop s s
  | tblw {idx len code s} : s.state = .idle ∨ s.state = .done → tblwFault len code s = none →
      ExecCase (.tblw idx len code) s (setTbl idx ⟨len, code⟩ s)
  | start {s} : s.state = .idle ∨ s.state = .done → ExecCase .start s (openCall s)
  | sym {b e s s1} : s.state = .active → tblEntry s b = some e → symFault e s = none →
      applyExtraBit (extraBit s.cfg e) s = .next s1 →
      ExecCase (.sym b) s (appendCode e.len.toNat (maskedCode e) s1)
  | fin {s} : s.state = .active → finFault s = none → ExecCase .fin s (closeCall s)
  | clr {s} : ExecCase .clr s (clearToIdle s)

/-- R93's rows with `E_SEQ`: NOP and CLR have none. -/
theorem legality_errSeq {i : Instr} {q : SeqState} (h : legality i q = .errSeq) :
    (q = .active ∧ ((∃ idx len code, i = .tblw idx len code) ∨ i = .start)) ∨
    ((q = .idle ∨ q = .done) ∧ ((∃ b, i = .sym b) ∨ i = .fin)) := by
  cases i <;> cases q <;> simp [legality] at h ⊢

/-! The meanings, state by state. -/

theorem exec_ignored {i : Instr} {s : State} (h : s.state = .fault) (hi : i ≠ .clr) : exec i s = .next s := by
  cases i with
  | clr => exact absurd rfl hi
  | _ => exact whenLegal_ignored (by rw [h]; rfl)

theorem exec_tblw_legal {s : State} (h : s.state = .idle ∨ s.state = .done) (idx : BitVec 8) (len : BitVec 6)
    (code : BitVec 32) : exec (.tblw idx len code) s =
      orRaise (tblwFault len code s) (.tblw idx len code) s (.next (setTbl idx ⟨len, code⟩ s)) :=
  whenLegal_ok (by rcases h with h | h <;> rw [h] <;> rfl)

theorem exec_start_legal {s : State} (h : s.state = .idle ∨ s.state = .done) :
    exec .start s = .next (openCall s) :=
  whenLegal_ok (by rcases h with h | h <;> rw [h] <;> rfl)

theorem exec_sym_legal {s : State} (h : s.state = .active) {b : BitVec 8} {e : TblEntry}
    (he : tblEntry s b = some e) : exec (.sym b) s = orRaise (symFault e s) (.sym b) s (commitSym e s) := by
  have : exec (.sym b) s = _ := whenLegal_ok (i := .sym b) (s := s) (by rw [h]; rfl)
  rw [this, he]

theorem exec_sym_noent {s : State} (h : s.state = .active) {b : BitVec 8} (he : tblEntry s b = none) :
    exec (.sym b) s = .next (raise .noent (encode (.sym b)) s) := by
  have : exec (.sym b) s = _ := whenLegal_ok (i := .sym b) (s := s) (by rw [h]; rfl)
  rw [this, he]

theorem exec_fin_legal {s : State} (h : s.state = .active) :
    exec .fin s = orRaise (finFault s) .fin s (.next (closeCall s)) :=
  whenLegal_ok (by rw [h]; rfl)

theorem exec_clr (s : State) : exec .clr s = .next (clearToIdle s) :=
  whenLegal_ok (by cases s.state <;> rfl)

theorem exec_errSeq {i : Instr} {s : State} (h : legality i s.state = .errSeq) :
    exec i s = .next (raise .seq (encode i) s) := by
  cases i <;> exact whenLegal_errSeq h

/-- The commit answers what `applyExtraBit` answers, with the code appended. -/
theorem commitSym_of_next {e : TblEntry} {s s1 : State} (h : applyExtraBit (extraBit s.cfg e) s = .next s1) :
    commitSym e s = .next (appendCode e.len.toNat (maskedCode e) s1) := by
  rw [commitSym, h]

/-- What executing a command can do. -/
theorem exec_cases {i : Instr} {s t : State} (h : exec i s = .next t) : ExecCase i s t := by
  by_cases hf : s.state = .fault
  · by_cases hi : i = .clr
    · subst hi
      rw [exec_clr] at h
      cases h
      exact .clr
    · rw [exec_ignored hf hi] at h
      cases h
      exact .ignored hf hi
  · cases hl : legality i s.state with
    | ignored => cases i <;> cases hs : s.state <;> simp_all [legality]
    | errSeq =>
      rw [exec_errSeq hl] at h
      cases h
      exact .errSeq hl
    | ok =>
      cases i with
      | nop =>
        have : exec .nop s = .next s := whenLegal_ok hl
        rw [this] at h
        cases h
        exact .nop hf
      | tblw idx len code =>
        have hs : s.state = .idle ∨ s.state = .done := (legality_tblw_ok ..).mp hl
        rw [exec_tblw_legal hs] at h
        rcases tblwFault_cases len code s with ⟨hc, -⟩ | ⟨hc, -⟩ <;> rw [hc] at h <;> cases h
        · exact .wideCode hs hc
        · exact .tblw hs hc
      | start =>
        have hs : s.state = .idle ∨ s.state = .done := (legality_start_ok _).mp hl
        rw [exec_start_legal hs] at h
        cases h
        exact .start hs
      | sym b =>
        have hs : s.state = .active := (legality_sym_ok b _).mp hl
        cases he : tblEntry s b with
        | none =>
          rw [exec_sym_noent hs he] at h
          cases h
          exact .noEntry hs he
        | some e =>
          rw [exec_sym_legal hs he] at h
          rcases symFault_cases e s with ⟨hc, -⟩ | ⟨hc, -⟩ | ⟨hc, -⟩ <;> rw [hc] at h
          · cases h
            exact .symFaults hs he hc
          · cases h
            exact .symFaults hs he hc
          · rw [orRaise_none, commitSym] at h
            split at h
            · cases h
              exact .sym hs he hc ‹_›
            · cases h
            · cases h
      | fin =>
        have hs : s.state = .active := (legality_fin_ok _).mp hl
        rw [exec_fin_legal hs] at h
        rcases finFault_cases s with ⟨hc, -⟩ | ⟨hc, -⟩ <;> rw [hc] at h <;> cases h
        · exact .finFaults hs hc
        · exact .fin hs hc
      | clr =>
        rw [exec_clr] at h
        cases h
        exact .clr

/-- Where executing a command does not answer a next state: SYM, for a byte that does not exist. -/
theorem exec_total (i : Instr) (s : State) :
    (∃ t, exec i s = .next t) ∨
    (exec i s = .fault .outIndexMissing ∧ ∃ b e, i = .sym b ∧ s.state = .active ∧ tblEntry s b = some e ∧
      symFault e s = none ∧ extraBit s.cfg e = true ∧ s.nbits = 0 ∧ s.outLen = 0) := by
  cases hl : legality i s.state with
  | ignored =>
    refine .inl ⟨s, ?_⟩
    cases i <;> exact whenLegal_ignored hl
  | errSeq => exact .inl ⟨_, exec_errSeq hl⟩
  | ok =>
    cases i with
    | nop => exact .inl ⟨s, whenLegal_ok hl⟩
    | tblw idx len code =>
      left
      have : exec (.tblw idx len code) s = _ := whenLegal_ok hl
      rw [this]
      cases tblwFault len code s with
      | none => exact ⟨_, rfl⟩
      | some e => exact ⟨_, rfl⟩
    | start => exact .inl ⟨_, whenLegal_ok hl⟩
    | sym b =>
      have hs : s.state = .active := (legality_sym_ok b _).mp hl
      cases he : tblEntry s b with
      | none => exact .inl ⟨_, exec_sym_noent hs he⟩
      | some e =>
        rw [exec_sym_legal hs he]
        cases hc : symFault e s with
        | some f => exact .inl ⟨_, rfl⟩
        | none =>
          rcases applyExtraBit_total (extraBit s.cfg e) s with ⟨s1, h1⟩ | ⟨h1, hx, hn, ho⟩
          · exact .inl ⟨_, commitSym_of_next h1⟩
          · exact .inr ⟨by rw [orRaise_none, commitSym, h1], b, e, rfl, hs, he, hc, hx, hn, ho⟩
    | fin =>
      left
      have : exec .fin s = _ := whenLegal_ok hl
      rw [this]
      cases finFault s with
      | none => exact ⟨_, rfl⟩
      | some e => exact ⟨_, rfl⟩
    | clr => exact .inl ⟨_, exec_clr s⟩

/-- A command that is performed leaves FAULT out, and one that faults changes four fields only (R100). -/
theorem ExecCase.fault_or_not {i : Instr} {s t : State} (h : ExecCase i s t) (hs : s.state ≠ .fault) :
    (t.state ≠ .fault) ∨ ∃ e, e ≠ .ill ∧ t = raise e (encode i) s := by
  cases h with
  | ignored h _ => exact absurd h hs
  | errSeq => exact .inr ⟨_, by decide, rfl⟩
  | noEntry => exact .inr ⟨_, by decide, rfl⟩
  | wideCode => exact .inr ⟨_, by decide, rfl⟩
  | @symFaults b e f _ _ _ hf =>
    refine .inr ⟨f, ?_, rfl⟩
    rcases symFault_cases e s with ⟨h, -⟩ | ⟨h, -⟩ | ⟨h, -⟩ <;> rw [h] at hf <;> cases hf <;> decide
  | finFaults => exact .inr ⟨_, by decide, rfl⟩
  | nop h => exact .inl h
  | tblw => exact .inl hs
  | start => exact .inl (by simp)
  | sym _ _ _ hx =>
    refine .inl ?_
    rw [applyExtraBit_frame hx]
    simpa using hs
  | fin => exact .inl (by simp)
  | clr => exact .inl (by simp)

/-! An illegal word. -/

theorem execIllegal_fault {s : State} (h : s.state = .fault) (w : CmdWord) : execIllegal w s = .next s := by
  rw [execIllegal, h]

theorem execIllegal_raise {s : State} (h : s.state ≠ .fault) (w : CmdWord) :
    execIllegal w s = .next (raise .ill w s) := by
  cases hs : s.state <;> simp_all [execIllegal]

/-! A word, and a step. -/

theorem performWord_cmd {w : CmdWord} {i : Instr} (h : decode w = .cmd i) (s : State) :
    performWord w s = exec i s := by rw [performWord, h]

theorem performWord_illegal {w : CmdWord} {why : Illegal} (h : decode w = .illegal why) (s : State) :
    performWord w s = execIllegal w s := by rw [performWord, h]

/-- What performing a word can do. -/
theorem performWord_cases {w : CmdWord} {s t : State} (h : performWord w s = .next t) :
    (∃ i, decode w = .cmd i ∧ exec i s = .next t) ∨
    (∃ why, decode w = .illegal why ∧
      ((s.state = .fault ∧ t = s) ∨ (s.state ≠ .fault ∧ t = raise .ill w s))) := by
  cases hd : decode w with
  | cmd i => exact .inl ⟨i, rfl, by rwa [performWord_cmd hd] at h⟩
  | illegal why =>
    rw [performWord_illegal hd] at h
    refine .inr ⟨why, rfl, ?_⟩
    by_cases hf : s.state = .fault
    · rw [execIllegal_fault hf] at h
      cases h
      exact .inl ⟨hf, rfl⟩
    · rw [execIllegal_raise hf] at h
      cases h
      exact .inr ⟨hf, rfl⟩

/-- What a step can do, by the head of the port. -/
theorem step_cases {s t : State} (h : step s = .next t) :
    (s.port = [] ∧ t = s) ∨
    (∃ w rest, s.port = .command w :: rest ∧ performWord w { s with port := rest, pc := s.pc + 1 } = .next t) ∨
    (∃ addr rest, s.port = .read addr :: rest ∧ t = serveRead addr { s with port := rest }) ∨
    (∃ rest, s.port = .reset :: rest ∧ t = resetBlock { s with port := rest }) := by
  cases hp : s.port with
  | nil =>
    simp only [step, takeTransaction, hp] at h
    cases h
    exact .inl ⟨rfl, rfl⟩
  | cons x rest =>
    cases x with
    | command w =>
      simp only [step, takeTransaction, hp, perform] at h
      exact .inr (.inl ⟨w, rest, rfl, h⟩)
    | read addr =>
      simp only [step, takeTransaction, hp, perform] at h
      cases h
      exact .inr (.inr (.inl ⟨addr, rest, rfl, rfl⟩))
    | reset =>
      simp only [step, takeTransaction, hp, perform] at h
      cases h
      exact .inr (.inr (.inr ⟨rest, rfl, rfl⟩))

end Sys2Proof.Machine
end

