-- ==== Sys2Proof/Laws/PerInstr.lean ====
section
/-! SUPPORT. Laws stated per command of `Instr`, one lemma per constructor. -/

namespace Sys2Proof.Laws.Row

/-- R60: the word of a command selects the row of the opcode map that has its mnemonic. -/
def Statement (i : Instr) : Prop :=
  ∃ r ∈ opcodeMap, r.mnemonic = mnemonicOf i ∧ r.selects (encode i) = true

theorem nop : Statement .nop := ⟨_, .head _, rfl, by decide⟩

theorem tblw (idx : BitVec 8) (len : BitVec 6) (code : BitVec 32) : Statement (.tblw idx len code) := by
  refine ⟨_, .tail _ (.head _), rfl, ?_⟩
  have h : (0x1#4 ++ idx ++ len ++ 0#14 ++ code) &&&
      (BitVec.allOnes 4 ++ 0#8 ++ 0#6 ++ BitVec.allOnes 14 ++ 0#32) = 0x1#4 ++ 0#8 ++ 0#6 ++ 0#14 ++ 0#32 := by
    simp only [BitVec.and_append, BitVec.and_allOnes, BitVec.and_zero]
  exact beq_iff_eq.mpr h

theorem start : Statement .start := ⟨_, .tail _ (.tail _ (.head _)), rfl, by decide⟩

theorem sym (byte : BitVec 8) : Statement (.sym byte) := by
  refine ⟨_, .tail _ (.tail _ (.tail _ (.head _))), rfl, ?_⟩
  have h : (0x3#4 ++ 0#52 ++ byte) &&& (BitVec.allOnes 4 ++ BitVec.allOnes 52 ++ 0#8) =
      0x3#4 ++ 0#52 ++ 0#8 := by
    simp only [BitVec.and_append, BitVec.and_allOnes, BitVec.and_zero]
  exact beq_iff_eq.mpr h

theorem fin : Statement .fin := ⟨_, .tail _ (.tail _ (.tail _ (.tail _ (.head _)))), rfl, by decide⟩

theorem clr : Statement .clr := ⟨_, .tail _ (.tail _ (.tail _ (.tail _ (.tail _ (.head _))))), rfl, by decide⟩

end Sys2Proof.Laws.Row
end

