-- ==== Sys2Proof/Laws/Runs.lean ====
section
/-! SUPPORT. What a run of command words does (R118), word by word. -/

namespace Sys2Proof.Machine

/-- Delivering a word performs it in the state in which nothing waits and the index has moved on. -/
theorem deliver_eq (w : CmdWord) (s : State) :
    deliver w s = performWord w { s with port := [], pc := s.pc + 1 } := rfl

/-- A run that ends in a next state performs its first word and runs the others from where it left off. -/
theorem runWords_cons_next {w : CmdWord} {ws : List CmdWord} {s t : State}
    (h : runWords (w :: ws) s = .next t) : ∃ u, deliver w s = .next u ∧ runWords ws u = .next t := by
  rw [runWords] at h
  split at h
  · exact ⟨_, ‹_›, h⟩
  · cases h
  · cases h

/-- The first word of a run, where it answers a next state. -/
theorem runWords_cons {w : CmdWord} {s u : State} (h : deliver w s = .next u) (ws : List CmdWord) :
    runWords (w :: ws) s = runWords ws u := by rw [runWords, h]

/-- Runs compose. -/
theorem runWords_append {ws : List CmdWord} {s u : State} (h : runWords ws s = .next u)
    (ws' : List CmdWord) : runWords (ws ++ ws') s = runWords ws' u := by
  induction ws generalizing s with
  | nil => cases h; rfl
  | cons w ws ih =>
    obtain ⟨v, hv, h⟩ := runWords_cons_next h
    rw [List.cons_append, runWords_cons hv, ih h]

/-- What every delivered word keeps, a run keeps. -/
theorem runWords_invariant {P : State → Prop} (hP : ∀ w s t, P s → deliver w s = .next t → P t)
    {ws : List CmdWord} {s t : State} (hs : P s) (h : runWords ws s = .next t) : P t := by
  induction ws generalizing s with
  | nil => cases h; exact hs
  | cons w ws ih =>
    obtain ⟨u, hu, h⟩ := runWords_cons_next h
    exact ih (hP w s u hs hu) h

end Sys2Proof.Machine
end

