-- ==== Sys2Proof/Laws/Stream.lean ====
section
/-! SUPPORT. The laws of bit strings (R10) and of the ghost stream (R32): how a number's bits split, what
octets and residual spell, and what emitting bytes does to the stream. -/

namespace Sys2Proof.Machine

/-! Bit strings. -/

@[simp] theorem bitsOf_length (n v : Nat) : (bitsOf n v).length = n := by
  induction n with
  | zero => rfl
  | succ n ih => simp [bitsOf, ih]

/-- The bits of a number split at any place. -/
theorem bitsOf_add (a b v : Nat) : bitsOf (a + b) v = bitsOf a (v / 2 ^ b) ++ bitsOf b v := by
  induction a with
  | zero => simp [bitsOf]
  | succ a ih =>
    rw [show a + 1 + b = a + b + 1 by omega, bitsOf, ih, bitsOf, List.cons_append, Nat.testBit_div_two_pow]

/-- Only the low `n` bits count. -/
theorem bitsOf_congr {n v w : Nat} (h : v % 2 ^ n = w % 2 ^ n) : bitsOf n v = bitsOf n w := by
  induction n with
  | zero => rfl
  | succ n ih =>
    have hbit : v.testBit n = w.testBit n := by
      have hv := Nat.testBit_mod_two_pow v (n + 1) n
      rw [h, Nat.testBit_mod_two_pow] at hv
      simpa using hv.symm
    have hlow : v % 2 ^ n = w % 2 ^ n := by
      have hd : 2 ^ n ∣ 2 ^ (n + 1) := Nat.pow_dvd_pow 2 (by omega)
      rw [← Nat.mod_mod_of_dvd v hd, h, Nat.mod_mod_of_dvd w hd]
    rw [bitsOf, bitsOf, hbit, ih hlow]

@[simp] theorem bitsOf_mod (n v : Nat) : bitsOf n (v % 2 ^ n) = bitsOf n v :=
  bitsOf_congr (Nat.mod_mod _ _)

/-- A number made of a high and a low part spells the two one after the other. -/
theorem bitsOf_mul_add (a : Nat) {b v w : Nat} (hw : w < 2 ^ b) :
    bitsOf (a + b) (v * 2 ^ b + w) = bitsOf a v ++ bitsOf b w := by
  have hdiv : (v * 2 ^ b + w) / 2 ^ b = v := by
    rw [Nat.mul_comm, Nat.mul_add_div (Nat.two_pow_pos b), Nat.div_eq_of_lt hw, Nat.add_zero]
  rw [bitsOf_add, hdiv]
  congr 1
  exact bitsOf_congr (by rw [Nat.mul_comm, Nat.mul_add_mod])

/-- The last bit apart. -/
theorem bitsOf_succ_last (n v : Nat) : bitsOf (n + 1) v = bitsOf n (v / 2) ++ [v.testBit 0] := by
  rw [bitsOf_add]
  simp [bitsOf]

theorem bitsOf_mask (p : Nat) : bitsOf p (mask p) = List.replicate p true := by
  induction p with
  | zero => rfl
  | succ p ih =>
    have hdiv : mask (p + 1) / 2 = mask p := by
      have := Nat.two_pow_pos p
      simp only [mask, Nat.pow_succ]
      omega
    have hlast : (mask (p + 1)).testBit 0 = true := by
      simp [mask]
    rw [bitsOf_succ_last, hdiv, ih, hlast, List.replicate_succ']

theorem valOf_foldl (s : List Bool) (v : Nat) :
    s.foldl (fun v b => 2 * v + b.toNat) v = v * 2 ^ s.length + valOf s := by
  induction s generalizing v with
  | nil => simp [valOf]
  | cons b s ih =>
    rw [List.foldl_cons, ih]
    have h0 : valOf (b :: s) = (2 * 0 + b.toNat) * 2 ^ s.length + valOf s := by
      rw [valOf, List.foldl_cons, ih]
    rw [h0, List.length_cons, Nat.pow_succ]
    ring

theorem valOf_cons (b : Bool) (s : List Bool) : valOf (b :: s) = b.toNat * 2 ^ s.length + valOf s := by
  rw [valOf, List.foldl_cons, valOf_foldl]
  simp

theorem valOf_append (s t : List Bool) : valOf (s ++ t) = valOf s * 2 ^ t.length + valOf t := by
  rw [valOf, List.foldl_append, valOf_foldl]
  rfl

theorem valOf_lt (s : List Bool) : valOf s < 2 ^ s.length := by
  induction s with
  | nil => simp [valOf]
  | cons b s ih =>
    rw [valOf_cons, List.length_cons, Nat.pow_succ]
    cases b <;> simp <;> omega

/-- R10: `val` reads back what `bits` writes. -/
theorem valOf_bitsOf (n v : Nat) : valOf (bitsOf n v) = v % 2 ^ n := by
  induction n with
  | zero => simp [bitsOf, valOf, Nat.mod_one]
  | succ n ih =>
    rw [bitsOf, valOf_cons, ih, bitsOf_length]
    have h := Nat.testBit_eq_decide_div_mod_eq (x := v) (i := n)
    have hpow : v % 2 ^ (n + 1) = 2 ^ n * (v / 2 ^ n % 2) + v % 2 ^ n := by
      rw [Nat.pow_succ, Nat.mod_mul]
      omega
    rw [h, hpow]
    rcases Nat.mod_two_eq_zero_or_one (v / 2 ^ n) with h2 | h2 <;> simp [h2]

theorem bitsOf_valOf (s : List Bool) : bitsOf s.length (valOf s) = s := by
  induction s with
  | nil => rfl
  | cons b s ih =>
    have hone : bitsOf 1 b.toNat = [b] := by cases b <;> rfl
    rw [List.length_cons, valOf_cons, Nat.add_comm, bitsOf_mul_add 1 (valOf_lt s), ih, hone]
    rfl

/-! The last bit of a stream. -/

@[simp] theorem withLastOne_append_singleton (s : List Bool) (b : Bool) :
    withLastOne (s ++ [b]) = s ++ [true] := by
  induction s with
  | nil => rfl
  | cons a s ih =>
    cases s with
    | nil => rfl
    | cons c s => simp only [List.cons_append, withLastOne, List.cons.injEq, true_and] at ih ⊢; exact ih

theorem bitsOf_or_one (n v : Nat) : bitsOf (n + 1) (v ||| 1) = withLastOne (bitsOf (n + 1) v) := by
  have hdiv : (v ||| 1) / 2 = v / 2 := by
    apply Nat.eq_of_testBit_eq
    intro i
    rw [Nat.testBit_div_two, Nat.testBit_div_two, Nat.testBit_or, Nat.testBit_succ 1 i]
    simp
  rw [bitsOf_succ_last, bitsOf_succ_last, hdiv, withLastOne_append_singleton]
  simp

/-! Octets and residual. -/

theorem byteBits_append (xs ys : List Byte) : byteBits (xs ++ ys) = byteBits xs ++ byteBits ys := by
  simp [byteBits]

@[simp] theorem byteBits_length (bs : List Byte) : (byteBits bs).length = 8 * bs.length := by
  induction bs with
  | nil => rfl
  | cons b bs ih =>
    have : byteBits (b :: bs) = bitsOf 8 b.toNat ++ byteBits bs := rfl
    rw [this, List.length_append, ih, bitsOf_length, List.length_cons]
    omega

/-- Byte sequences with the same bits are equal. -/
theorem byteBits_inj {xs ys : List Byte} (h : byteBits xs = byteBits ys) : xs = ys := by
  induction xs generalizing ys with
  | nil =>
    cases ys with
    | nil => rfl
    | cons y ys => exact absurd (congrArg List.length h) (by simp)
  | cons x xs ih =>
    cases ys with
    | nil => exact absurd (congrArg List.length h) (by simp)
    | cons y ys =>
      have h' : bitsOf 8 x.toNat ++ byteBits xs = bitsOf 8 y.toNat ++ byteBits ys := h
      obtain ⟨h1, h2⟩ := List.append_inj h' (by simp)
      have hx := valOf_bitsOf 8 x.toNat
      rw [h1, valOf_bitsOf] at hx
      have hx' : x = y := by
        apply BitVec.eq_of_toNat_eq
        have := x.isLt
        have := y.isLt
        omega
      rw [hx', ih h2]

theorem bitsOf_eight_ofNat (v : Nat) : bitsOf 8 (BitVec.ofNat 8 v).toNat = bitsOf 8 v := by
  rw [BitVec.toNat_ofNat]
  exact bitsOf_mod 8 v

/-- The bytes of a number, the most significant first, spell its bits. -/
theorem byteBits_bytes (k r w : Nat) :
    byteBits ((List.range k).map (fun j => BitVec.ofNat 8 (w / 2 ^ (8 * (k - 1 - j) + r)))) =
      bitsOf (8 * k) (w / 2 ^ r) := by
  induction k with
  | zero => rfl
  | succ k ih =>
    rw [List.range_succ_eq_map, List.map_cons, List.map_map]
    have hrest : List.map ((fun j => BitVec.ofNat 8 (w / 2 ^ (8 * (k + 1 - 1 - j) + r))) ∘ Nat.succ)
        (List.range k) = (List.range k).map (fun j => BitVec.ofNat 8 (w / 2 ^ (8 * (k - 1 - j) + r))) := by
      apply List.map_congr_left
      intro j _
      simp only [Function.comp]
      congr 4
      omega
    have hcons : ∀ (b : Byte) bs, byteBits (b :: bs) = bitsOf 8 b.toNat ++ byteBits bs := fun _ _ => rfl
    rw [hcons, hrest, ih, bitsOf_eight_ofNat, show 8 * (k + 1) = 8 + 8 * k by omega, bitsOf_add, Nat.div_div_eq_div_mul,
      ← Nat.pow_add, show 8 * (k + 1 - 1 - 0) + r = r + 8 * k by omega]

/-- R79: the octets of a word, then its residual bits, spell the word. -/
theorem byteBits_octets (w n : Nat) : byteBits (octets w n) ++ bitsOf (n % 8) w = bitsOf n w := by
  have hmap : octets w n =
      (List.range (n / 8)).map (fun j => BitVec.ofNat 8 (w / 2 ^ (8 * (n / 8 - 1 - j) + n % 8))) := by
    apply List.map_congr_left
    intro j hj
    have hj' := List.mem_range.mp hj
    rw [octet_eq]
    congr 3
    omega
  have hn : bitsOf n w = bitsOf (8 * (n / 8) + n % 8) w := by
    congr 1
    omega
  rw [hmap, byteBits_bytes, hn, bitsOf_add]

/-- R70: a rendering spells the value's bits. -/
theorem byteBits_render (n v : Nat) : byteBits (render n v) = bitsOf (8 * n) v := by
  have h := byteBits_bytes n 0 v
  rw [Nat.pow_zero, Nat.div_one] at h
  rw [← h, render]
  congr 1
  apply List.map_congr_left
  intro j _
  rw [Nat.add_zero, Nat.pow_mul]

@[simp] theorem render_length (n v : Nat) : (render n v).length = n := by simp [render]

/-! The stream under the shared operations. -/

@[simp] theorem outBytes_length (s : State) : (outBytes s).length = s.outLen.toNat := by simp [outBytes]

theorem stream_length (s : State) : (stream s).length = 8 * s.outLen.toNat + s.nbits.toNat := by
  simp [stream]

/-- Emitting bytes appends them to the completed bytes (R55). -/
theorem outBytes_emitAll (vs : List Byte) (s : State) (h : s.outLen.toNat + vs.length < 2 ^ 32) :
    outBytes (emitAll vs s) = outBytes s ++ vs := by
  apply List.ext_getElem
  · simp [emitAll_outLen vs s h]
  · intro k h1 h2
    simp only [outBytes_length, List.length_append] at h1 h2
    rw [List.getElem_append]
    simp only [outBytes, List.getElem_map, List.getElem_range, List.length_map, List.length_range]
    by_cases hk : k < s.outLen.toNat
    · rw [dif_pos hk]
      apply outByte_of_read_eq
      rw [cellRead_emitAll vs s h, if_neg (by omega)]
    · rw [dif_neg hk]
      apply outByte_of_some
      rw [cellRead_emitAll vs s h, if_pos (by omega)]
      exact List.getElem?_eq_getElem _

/-- R78: appending a masked code appends its bits to the stream. -/
theorem stream_appendCode {len m : Nat} {s : State} (hm : m < 2 ^ len)
    (h : s.outLen.toNat + (s.nbits.toNat + len) / 8 < 2 ^ 32) :
    stream (appendCode len m s) = stream s ++ bitsOf len m := by
  have hout : outBytes (appendCode len m s) =
      outBytes s ++ octets (shifterWord s.acc.toNat len m) (s.nbits.toNat + len) := by
    rw [← outBytes_emitAll _ _ (by simpa using h)]
    rfl
  rw [stream, hout, appendCode_nbits_toNat, appendCode_acc_toNat, bitsOf_mod, byteBits_append, List.append_assoc,
    byteBits_octets, shifterWord_eq _ hm, bitsOf_mul_add _ hm, stream, List.append_assoc]

/-- R80: the extra mask bit sets the last bit of the stream. -/
theorem stream_applyExtraBit {x : Bool} {s t : State} (h : applyExtraBit x s = .next t) :
    stream t = if x = true then withLastOne (stream s) else stream s := by
  rcases applyExtraBit_cases h with ⟨rfl, rfl⟩ | ⟨rfl, hn, rfl⟩ | ⟨rfl, hn, ho, rfl⟩
  · rfl
  · rw [if_pos rfl]
    obtain ⟨n, hn'⟩ : ∃ n, s.nbits.toNat = n + 1 :=
      Nat.exists_eq_succ_of_ne_zero (fun h => hn (BitVec.eq_of_toNat_eq h))
    have hout : outBytes { s with acc := s.acc ||| 1 } = outBytes s := rfl
    simp only [stream, hout, hn', BitVec.toNat_or]
    rw [show (1 : BitVec 7).toNat = 1 from rfl, bitsOf_or_one, bitsOf_succ_last, ← List.append_assoc,
      withLastOne_append_singleton, withLastOne_append_singleton, List.append_assoc]
  · rw [if_pos rfl]
    obtain ⟨k, hk⟩ : ∃ k, s.outLen.toNat = k + 1 :=
      Nat.exists_eq_succ_of_ne_zero (fun h => ho (BitVec.eq_of_toNat_eq h))
    have hsplit : ∀ u : State, u.outLen = s.outLen →
        outBytes u = (List.range k).map (outByte u) ++ [outByte u k] := by
      intro u hu
      rw [outBytes, hu, hk, List.range_succ, List.map_append]
      rfl
    have hk1 : s.outLen.toNat - 1 = k := by omega
    have hrest : (List.range k).map (outByte (setOut k (outByte s k ||| 1) s)) = (List.range k).map (outByte s) := by
      apply List.map_congr_left
      intro j hj
      have := List.mem_range.mp hj
      rw [outByte_setOut, if_neg (by omega)]
    have hlast : outByte (setOut k (outByte s k ||| 1) s) k = outByte s k ||| 1 := by
      rw [outByte_setOut, if_pos rfl]
    have hnb : s.nbits.toNat = 0 := by rw [hn]; rfl
    have hbyte : ∀ b : Byte, byteBits [b] = bitsOf 8 b.toNat := fun b => by simp [byteBits]
    rw [stream, stream, hk1, hsplit (setOut k (outByte s k ||| 1) s) rfl, hsplit s rfl, hrest, hlast, setOut_nbits, hnb]
    have h0 : ∀ x, bitsOf 0 x = [] := fun _ => rfl
    simp only [h0, List.append_nil, byteBits_append, hbyte, BitVec.toNat_or]
    rw [show (1 : BitVec 8).toNat = 1 from rfl]
    have h8 := bitsOf_or_one 7 (outByte s k).toNat
    have h8' := bitsOf_succ_last 7 (outByte s k).toNat
    rw [show (7 + 1 : Nat) = 8 from rfl] at h8 h8'
    rw [h8, h8', ← List.append_assoc, withLastOne_append_singleton, withLastOne_append_singleton, List.append_assoc]

end Sys2Proof.Machine
end

