-- ==== Sys2Proof/Tests/Slice0.lean ====
section
/-! SUPPORT. The model's own tests: decoding, the checks that refuse a term, one step of each command, the
read port, the assembler, and a witness for every statement that has hypotheses. Expected results are
those of spec/95_test_vectors.md (the vector is named at each test) or are read off the rule named. -/

namespace Sys2Proof.Tests

open Sys2Proof.Machine

/-! States. -/

/-- A part of the next state, if there is one. -/
def part {α : Type} (f : State → α) : Result → Option α
  | .next s => some (f s)
  | .fault _ => none
  | .refused _ => none

theorem next_of_part {α : Type} {f : State → α} {r : Result} {v : α} (h : part f r = some v) :
    ∃ t, r = .next t ∧ f t = v := by
  cases r with
  | next s => exact ⟨s, rfl, Option.some.inj h⟩
  | fault f => cases h
  | refused r => cases h

/-- The machine right after reset but for its sequencing state. -/
def stateIn (q : SeqState) (c : Config := Config.default) : State := { State.resetWith c with state := q }

/-- STRICT_CODE = 1. -/
def strictCfg : Config := { Config.default with strictCode := true }

/-- MASK_EXTRA_BIT = 1. -/
def extraCfg : Config := { Config.default with maskExtraBit := true }

/-- A capacity of one byte. -/
def smallCfg : Config := { Config.default with outCap := 1 }

/-- After W1's `sym 0x41`: five bits pending (spec/95_test_vectors.md section 1). -/
def w1Active : State :=
  { stateIn .active with tbl := [(0x41, ⟨5, 0x15⟩)], acc := 0b10101, nbits := 5, total := 5 }

/-- After W1. -/
def w1Done : State :=
  { stateIn .done with tbl := [(0x41, ⟨5, 0x15⟩)], out := [(0, 0xAF)], outLen := 1, total := 5, pad := 3 }

/-- Three bits pending and the extra mask bit to come: it goes to `ACC[0]` (X-1, MASK_EXTRA_BIT = 1). -/
def x1Active : State :=
  { stateIn .active extraCfg with tbl := [(2, ⟨2, 0b110⟩)], acc := 0b100, nbits := 3, total := 3 }

/-- After X-2's `sym 0`: one byte out, none pending, MASK_EXTRA_BIT = 1. -/
def x2Active : State :=
  { stateIn .active extraCfg with
    tbl := [(0, ⟨8, 0⟩), (2, ⟨4, 0x15⟩)], out := [(0, 0)], outLen := 1, total := 8 }

/-- A recorded `E_SEQ`, taken from IDLE (F-5). -/
def faulted : State :=
  { stateIn .fault with err := 2, errcmd := 0x4000000000000000, faulted := true }

/-- One byte out and one bit short of two, with room for one byte. -/
def fullActive : State :=
  { stateIn .active smallCfg with
    tbl := [(1, ⟨1, 0⟩)], out := [(0, 0)], outLen := 1, acc := 0x7F, nbits := 7, total := 15 }

/-! Decoding: each word is written out from the layout of R57. -/

theorem test_decode_nop : decode (0b0000#4 ++ 0#60) = .cmd .nop := by decide

theorem test_decode_tblw :
    decode (0b0001#4 ++ 0b01000001#8 ++ 0b000101#6 ++ 0b00000000000000#14 ++
      0b00000000000000000000000000010101#32) = .cmd (.tblw 65 5 21) := by decide

theorem test_decode_start : decode (0b0010#4 ++ 0#60) = .cmd .start := by decide

theorem test_decode_sym : decode (0b0011#4 ++ 0#52 ++ 0b01000001#8) = .cmd (.sym 65) := by decide

theorem test_decode_fin : decode (0b0100#4 ++ 0#60) = .cmd .fin := by decide

theorem test_decode_clr : decode (0b0101#4 ++ 0#60) = .cmd .clr := by decide

/-- The words of W1, T-3, L-10 and L-4. -/
theorem test_decode_vectors :
    decode 0x1411400000000015 = .cmd (.tblw 0x41 5 0b10101) ∧
    decode 0x14114000FFFFFFF5 = .cmd (.tblw 0x41 5 0xFFFFFFF5) ∧
    decode 0x1FF780003FFFFFFF = .cmd (.tblw 0xFF 30 0x3FFFFFFF) ∧
    decode 0x109FC000FFFFFFFF = .cmd (.tblw 9 63 0xFFFFFFFF) ∧
    decode 0x3000000000000041 = .cmd (.sym 0x41) := by decide

/-- E-1, E-2, T-10, S-4, L-12, N-2, C-3 and a FIN with its top reserved bit set. -/
theorem test_decode_illegal :
    decode 0x6000000000000000 = .illegal .reservedOpcode ∧
    decode 0xF000000000000000 = .illegal .reservedOpcode ∧
    decode 0x1000000100000000 = .illegal .reservedBits ∧
    decode 0x2000000000000100 = .illegal .reservedBits ∧
    decode 0x3000000000000141 = .illegal .reservedBits ∧
    decode 0x0000000000000001 = .illegal .reservedBits ∧
    decode 0x5000000000000001 = .illegal .reservedBits ∧
    decode 0x4800000000000000 = .illegal .reservedBits := by decide

/-- T-1, T-4 and T-6: the encoder's words. -/
theorem test_encode_vectors :
    encode (.tblw 0x41 5 0x15) = 0x1411400000000015 ∧
    encode (.tblw 4 40 0xFFFFFFFF) = 0x104A0000FFFFFFFF ∧
    encode (.tblw 1 31 0x80000000) = 0x1017C00080000000 ∧
    encode (.sym 0xFF) = 0x30000000000000FF ∧ encode .clr = 0x5000000000000000 := by decide

theorem test_decode_table_word :
    decodeTableWord 64 0x3000000000000041 = some (.sym 0x41) ∧
    decodeTableWord 64 0x3000000000000141 = none := by decide

theorem test_fetch_word_runs :
    part State.state (step (State.reset.withFetchWord 64 0x2000000000000000)) = some .active := by decide

/-! The checks that refuse a term (R7, R64, R65). -/

theorem test_wf_cap :
    Config.wf { Config.default with outCap := 0 } = false ∧ Config.wf smallCfg = true ∧
    Config.wf { Config.default with outCap := 0xFFFFFFF } = true := by decide

theorem test_wf_tblw :
    AsmLine.wf (.tblw 256 5 0) = false ∧ AsmLine.wf (.tblw 0 64 0) = false ∧
    AsmLine.wf (.tblw 0 5 4294967296) = false ∧ AsmLine.wf (.tblw 255 63 4294967295) = true := by decide

theorem test_wf_sym : AsmLine.wf (.sym 256) = false ∧ AsmLine.wf (.sym 255) = true := by decide

theorem test_wf_new_table :
    AsmLine.wf (.newTable (List.replicate 255 1) (List.replicate 256 0)) = false ∧
    AsmLine.wf (.newTable (List.replicate 256 1) (List.replicate 255 0)) = false ∧
    AsmLine.wf (.newTable (List.replicate 256 64) (List.replicate 256 0)) = false ∧
    AsmLine.wf (.newTable (List.replicate 256 1) (List.replicate 256 4294967296)) = false ∧
    AsmLine.wf (.newTable (List.replicate 256 63) (List.replicate 256 4294967295)) = true := by
  simp only [AsmLine.wf, List.length_replicate, List.all_replicate]
  decide

theorem test_wf_encode_call :
    AsmLine.wf (.encodeCall [1, 256]) = false ∧ AsmLine.wf (.encodeCall []) = true := by decide

/-! The assembler (R64, R65). -/

theorem test_assemble_lines :
    assembleLine "tblw  0x41, 5, 0b10101     ; W1".toList = some [0x1411400000000015] ∧
    assembleLine "sym 'A'".toList = some [0x3000000000000041] ∧
    assembleLine "; a comment".toList = some [] ∧
    assembleLine "encode".toList = some [0x2000000000000000, 0x4000000000000000] := by decide

theorem test_assemble_errors :
    assembleLine "sym 256".toList = none ∧ assembleLine "tblw 1, 64, 0".toList = none ∧
    assembleLine "SYM 1".toList = none ∧ assembleLine "sym".toList = none := by decide

/-! One step of each command. -/

/-- N-1: inside a call NOP changes nothing. -/
theorem test_nop_in_call : part id (exec .nop w1Active) = some w1Active := by decide

/-- T-1. -/
theorem test_tblw_writes :
    part State.tbl (performWord 0x1411400000000015 State.reset) = some [(0x41, ⟨5, 0x15⟩)] := by decide

/-- T-3: the strict check refuses stray bits, and the entry stays unwritten. -/
theorem test_tblw_strict :
    part (fun t => (t.state, t.err, t.errcmd, t.tbl)) (performWord 0x14114000FFFFFFF5 (stateIn .idle strictCfg)) =
      some (.fault, 4, 0x14114000FFFFFFF5, []) := by decide

/-- S-2: START in DONE discards the result and keeps the table. -/
theorem test_start_from_done :
    part (fun t => (t.state, t.outLen, t.total, t.pad)) (exec .start w1Done) = some (.active, 0, 0, 0) ∧
    part State.tbl (exec .start w1Done) = some [(0x41, ⟨5, 0x15⟩)] := by decide

/-- S-3. -/
theorem test_start_twice :
    part (fun t => (t.state, t.err, t.errcmd)) (exec .start (stateIn .active)) =
      some (.fault, 2, 0x2000000000000000) := by decide

/-- L-4: 70 bits at once, eight bytes and six bits left over. -/
theorem test_sym_seventy_bits :
    part (fun t => (outBytes t, t.acc, t.nbits, t.total))
      (exec (.sym 9) { stateIn .active with tbl := [(9, ⟨63, 0xFFFFFFFF⟩)], nbits := 7, total := 7 }) =
      some ([0x00, 0x00, 0x00, 0x00, 0x03, 0xFF, 0xFF, 0xFF], 0b111111, 6, 70) := by decide

/-- X-2 and X-1: the extra mask bit goes to the last byte written, and to `ACC[0]`. -/
theorem test_sym_extra_bit :
    part (fun t => (outBytes t, t.acc, t.nbits, t.total)) (exec (.sym 2) x2Active) =
      some ([0x01], 0b0101, 4, 12) ∧
    part (fun t => (outBytes t, t.acc, t.nbits, t.total)) (exec (.sym 2) x1Active) =
      some ([], 0b10110, 5, 5) := by decide

/-- W1: three ones of padding. -/
theorem test_fin_pads :
    part (fun t => (t.state, outBytes t, t.total, t.pad)) (exec .fin w1Active) =
      some (.done, [0xAF], 5, 3) := by decide

/-- E-13's kind: a padded byte is needed and the buffer is full. -/
theorem test_fin_overflow :
    part (fun t => (t.state, t.err, t.acc, t.nbits, t.total)) (exec .fin fullActive) =
      some (.fault, 5, 0x7F, 7, 15) := by decide

/-- C-1: the call is abandoned, the table is kept. -/
theorem test_clr_in_call :
    part (fun t => (t.state, t.acc, t.total, t.tbl)) (exec .clr w1Active) =
      some (.idle, 0, 0, [(0x41, ⟨5, 0x15⟩)]) := by decide

/-- E-9: a malformed CLR is ignored in FAULT, the exact one leaves it, and the ghost bit stays. -/
theorem test_clr_in_fault :
    part id (performWord 0x5000000000000001 faulted) = some faulted ∧
    part (fun t => (t.state, t.err, t.errcmd, t.faulted)) (performWord 0x5000000000000000 faulted) =
      some (.idle, 0, 0, true) := by decide

/-- E-8: `E_COMPAT` before `E_OVF`. -/
theorem test_compat_before_overflow :
    part State.err (exec (.sym 2) { stateIn .active { smallCfg with maskExtraBit := true } with
      tbl := [(2, ⟨20, 0x1FFFFF⟩)] }) = some 6 ∧
    part State.err (exec (.sym 2) { stateIn .active smallCfg with tbl := [(2, ⟨20, 0x1FFFFF⟩)] }) = some 5 := by
  decide

/-- P1's reads, M-4 and M-5. -/
theorem test_reads_after_w1 :
    readWord w1Done 0 = 0x00003002 ∧ readWord w1Done 0x10000000 = 0xAF ∧
    readWord w1Done 0x141 = 0x80000005 ∧ readWord w1Done 0x241 = 0x15 ∧
    readWord w1Done 8 = 0 ∧ readWord w1Done 6 = 0 ∧ readWord w1Done 7 = 64 := by decide

/-- E-10: STATUS and the fault record. -/
theorem test_reads_in_fault :
    readWord (raise .noent 0x3000000000000042 w1Active) 0 = 0x00000533 ∧
    readWord (raise .noent 0x3000000000000042 w1Active) 4 = 0x00000042 ∧
    readWord (raise .noent 0x3000000000000042 w1Active) 5 = 0x30000000 := by decide

/-- P4: the two masking modes of the source's function. -/
theorem test_reference_modes :
    encodeRef false (fun b => if b = 0 then ⟨8, 0⟩ else if b = 2 then ⟨4, 0x15⟩ else ⟨5, 0x15⟩) [0, 2, 0x41] =
      [0x00, 0x5A, 0xFF] ∧
    encodeRef true (fun b => if b = 0 then ⟨8, 0⟩ else if b = 2 then ⟨4, 0x15⟩ else ⟨5, 0x15⟩) [0, 2, 0x41] =
      [0x01, 0x5A, 0xFF] := by decide

/-! Witnesses: for each statement that has hypotheses, states and operands that meet them all. -/

/-- What the invariants ask of a state with no call, checked field by field. -/
theorem inv_reset_like {c : Config} (h : c.wf = true) : Inv (State.resetWith c) where
  capLegal := h
  outWf := .nil
  outInCap := by intro p hp; cases hp
  tblWf := .nil
  tblIndex := by intro p hp; cases hp
  tblStrict := by intro _ p hp; cases hp
  accFits := (by decide : (0 : BitVec 7).toNat < 2 ^ (0 : BitVec 3).toNat)
  lenFits := Nat.zero_le _
  callWritten := by intro k hk; cases hk
  seqInv := ⟨⟨rfl, rfl, rfl, rfl, rfl⟩, rfl, rfl⟩

theorem inv_w1Active : Inv w1Active :=
  ⟨by decide, by decide, by decide, by decide, by decide, by decide, by decide, by decide, by decide,
    ⟨⟨by decide, by decide⟩, by decide, by decide⟩⟩

theorem inv_w1Done : Inv w1Done :=
  ⟨by decide, by decide, by decide, by decide, by decide, by decide, by decide, by decide, by decide,
    ⟨⟨by decide, by decide, by decide, by decide⟩, by decide, by decide⟩⟩

theorem inv_x2Active : Inv x2Active :=
  ⟨by decide, by decide, by decide, by decide, by decide, by decide, by decide, by decide, by decide,
    ⟨⟨by decide, by decide⟩, by decide, by decide⟩⟩

theorem inv_fullActive : Inv fullActive :=
  ⟨by decide, by decide, by decide, by decide, by decide, by decide, by decide, by decide, by decide,
    ⟨⟨by decide, by decide⟩, by decide, by decide⟩⟩

theorem inv_faulted : Inv faulted :=
  ⟨by decide, by decide, by decide, by decide, by decide, by decide, by decide, by decide, by decide,
    ⟨.inl ⟨rfl, rfl, rfl, rfl, rfl⟩, by decide, by decide, by decide⟩⟩

/-- The mnemonic of a command, read off its word by the opcode map. -/
theorem mnemonic_of_word {i : Instr} {w : CmdWord} {m : String} (h : encode i = w)
    (hw : ∀ r ∈ opcodeMap, r.selects w = true → r.mnemonic = m) : mnemonicOf i = m := by
  have hi : Laws.Row.Statement i := by
    cases i with
    | nop => exact Laws.Row.nop
    | tblw idx len code => exact Laws.Row.tblw idx len code
    | start => exact Laws.Row.start
    | sym byte => exact Laws.Row.sym byte
    | fin => exact Laws.Row.fin
    | clr => exact Laws.Row.clr
  obtain ⟨r, hr, hm, hs⟩ := hi
  rw [h] at hs
  rw [← hm]
  exact hw r hr hs

/-- EncodeOfDecode, OpcodeMapSelectsMnemonic. -/
theorem test_witness_decode :
    decode 0x3000000000000041 = .cmd (.sym 0x41) ∧
    (∃ r ∈ opcodeMap, r.selects 0x3000000000000041 = true) ∧
    (∀ r ∈ opcodeMap, r.selects 0x6000000000000000 = false) := by decide

/-- DecodesByFields: each opcode, with its reserved field 0 and 1, and opcodes 6 and 15. -/
theorem test_witness_decode_fields :
    ((0x0000000000000001#64).extractLsb' 60 4).toNat = 0 ∧
    ((0x1000000100000000#64).extractLsb' 60 4).toNat = 1 ∧
    ((0x2800000000000000#64).extractLsb' 60 4).toNat = 2 ∧
    ((0x3000000000000100#64).extractLsb' 60 4).toNat = 3 ∧
    ((0x4000000000000000#64).extractLsb' 60 4).toNat = 4 ∧
    ((0x5000000000000000#64).extractLsb' 60 4).toNat = 5 ∧
    6 ≤ ((0x6000000000000000#64).extractLsb' 60 4).toNat ∧
    6 ≤ ((0xF000000000000000#64).extractLsb' 60 4).toNat ∧
    decode 0x2800000000000000#64 = .illegal .reservedBits ∧
    (stateIn .idle).state ≠ .fault ∧ faulted.state = .fault := by decide

theorem illegal_bit : IllegalWord 0x0000000000000001 := .inr (.inl (by decide))

theorem legal_nop : ¬ IllegalWord 0x0000000000000000 := by
  unfold IllegalWord
  decide

/-- IllegalWordsRaiseIll; its last clause in a state that no run reaches. -/
theorem test_witness_illegal :
    (stateIn .idle).state ≠ .fault ∧ IllegalWord 0x0000000000000001 ∧ IllegalWord 0x6000000000000000 ∧
    ¬ IllegalWord 0x0000000000000000 ∧
    (∃ t, performWord 0x0000000000000000 { stateIn .idle with err := 1 } = .next t ∧ t.err = 1) :=
  ⟨by decide, illegal_bit, .inl (by decide), legal_nop, next_of_part (by decide)⟩

/-- PseudoInstructionsExpand: each range at its ends. -/
theorem test_witness_pseudo :
    ((255 < 256 ∧ 63 < 64 ∧ 4294967295 < 2 ^ 32) ∧ (256 ≤ 256 ∨ 64 ≤ 63 ∨ 2 ^ 32 ≤ 4294967295) ∧
      (256 ≤ 255 ∨ 64 ≤ 64 ∨ 2 ^ 32 ≤ 4294967295) ∧ (256 ≤ 255 ∨ 64 ≤ 63 ∨ 2 ^ 32 ≤ 4294967296)) ∧
    ((∀ b ∈ [0, 255], b < 256) ∧ (∃ b ∈ [0, 256], 256 ≤ b)) ∧
    ((List.replicate 256 63).length = 256 ∧ (List.replicate 256 4294967295).length = 256 ∧
      (∀ l ∈ List.replicate 256 63, l < 64) ∧ (∀ c ∈ List.replicate 256 4294967295, c < 2 ^ 32)) ∧
    ((List.replicate 255 63).length ≠ 256 ∧ (List.replicate 257 0).length ≠ 256 ∧
      (∃ l ∈ List.replicate 256 64, 64 ≤ l) ∧ (∃ c ∈ List.replicate 256 4294967296, 2 ^ 32 ≤ c)) := by
  refine ⟨by decide, by decide, ⟨List.length_replicate, List.length_replicate, ?_, ?_⟩, ?_, ?_, ?_, ?_⟩
  · intro l hl
    rw [List.eq_of_mem_replicate hl]
    decide
  · intro c hc
    rw [List.eq_of_mem_replicate hc]
    decide
  · rw [List.length_replicate]
    decide
  · rw [List.length_replicate]
    decide
  · exact ⟨64, List.mem_replicate.mpr ⟨by decide, rfl⟩, by decide⟩
  · exact ⟨4294967296, List.mem_replicate.mpr ⟨by decide, rfl⟩, by decide⟩

/-- The operands of W1's line as the spec writes it: two blanks, then one after each comma. -/
def w1Operands : List OperandText :=
  [⟨[' ', ' '], ['0', 'x', '4', '1'], []⟩, ⟨[' '], ['5'], []⟩,
    ⟨[' '], ['0', 'b', '1', '0', '1', '0', '1'], []⟩]

/-- The same operands in capitals, with no blank after the commas and a tab before one. -/
def tightOperands : List OperandText :=
  [⟨[' '], ['0', 'x', '4', 'F'], ['\t']⟩, ⟨[], ['5'], []⟩, ⟨[], ['2', '1'], []⟩]

/-- AssemblerReadsText: W1's line with its trailing blanks and its comment; no blank after the commas and
none at the end; a quoted character; a line with no operand; and the count that `new` takes. -/
theorem test_witness_text :
    (w1Operands.length = (lineOperands (.tblw 0x41 5 21)).length ∧
      (∀ p ∈ w1Operands.zip (lineOperands (.tblw 0x41 5 21)), SpellsNumber p.1.number p.2) ∧
      (∀ o ∈ w1Operands, ∀ c ∈ o.before ++ o.after, isBlank c = true) ∧
      ∀ o, w1Operands.head? = some o → o.before ≠ []) ∧
    (tightOperands.length = (lineOperands (.tblw 0x4F 5 21)).length ∧
      (∀ p ∈ tightOperands.zip (lineOperands (.tblw 0x4F 5 21)), SpellsNumber p.1.number p.2) ∧
      (∀ o ∈ tightOperands, ∀ c ∈ o.before ++ o.after, isBlank c = true) ∧
      ∀ o, tightOperands.head? = some o → o.before ≠ []) ∧
    SpellsNumber ['\'', 'A', '\''] 0x41 ∧
    (∀ c ∈ [' '] ++ [' ', '\t'], isBlank c = true) ∧ (∃ rest, [';', ' ', 'W'] = ';' :: rest) ∧
    ([] : List OperandText).length = (lineOperands .nop).length ∧
    ([] : List OperandText).length = (lineOperands (.encodeCall [])).length ∧
    (List.replicate 256 1).length = 256 := by
  refine ⟨⟨rfl, ?_, by simp [w1Operands, isBlank], by simp [w1Operands]⟩,
    ⟨rfl, ?_, by simp [tightOperands, isBlank], by simp [tightOperands]⟩,
    .inr (.inr (.inr ⟨'A', rfl, by decide, by decide⟩)), by simp [isBlank], ⟨_, rfl⟩, rfl, rfl,
    List.length_replicate⟩
  · simp only [w1Operands, lineOperands, List.zip_cons_cons, List.zip_nil_left, List.forall_mem_cons]
    exact ⟨.inr (.inl ⟨['4', '1'], rfl, by simp, by simp [digitChars], rfl⟩),
      .inl ⟨by simp, by simp [digitChars], rfl⟩,
      .inr (.inr (.inl ⟨['1', '0', '1', '0', '1'], rfl, by simp, by simp [digitChars], rfl⟩)), by simp⟩
  · simp only [tightOperands, lineOperands, List.zip_cons_cons, List.zip_nil_left, List.forall_mem_cons]
    exact ⟨.inr (.inl ⟨['4', 'F'], rfl, by simp, by simp [digitChars], rfl⟩),
      .inl ⟨by simp, by simp [digitChars], rfl⟩, .inl ⟨by simp, by simp [digitChars], rfl⟩, by simp⟩

/-- The statements about a step and its transaction: each head of the port. -/
theorem test_witness_step :
    (∃ t, step { w1Active with port := [.command 0x4000000000000000, .reset] } = .next t ∧ t.pc = 1) ∧
    decode 0x4000000000000000 = .cmd .fin ∧ decode 0x4000000000000001 = .illegal .reservedBits ∧
    (∃ t, step { w1Active with port := [.command 0x4000000000000001] } = .next t ∧ t.err = 1) ∧
    (∃ t, step { w1Active with port := [.read 2] } = .next t ∧ t.replies = [0x15]) ∧
    (∃ t, step { w1Active with port := [.reset] } = .next t ∧ t.tbl = []) ∧
    (∃ t, step w1Active = .next t ∧ t = w1Active) :=
  ⟨next_of_part (by decide), by decide, by decide, next_of_part (by decide), next_of_part (by decide),
    next_of_part (by decide), next_of_part (f := id) (by decide)⟩

/-- RunCountsItsWords, and the first and last offset of ResetAndClrDifferInTable. -/
theorem test_witness_run :
    (∃ t, runWords [0x2000000000000000, 0x4000000000000000] State.reset = .next t ∧ t.pc = 2) ∧
    0 < w1Done.cfg.outCap.toNat ∧ 63 < w1Done.cfg.outCap.toNat :=
  ⟨next_of_part (by decide), by decide, by decide⟩

/-- ResetSatisfiesInv: the least and the greatest capacity. -/
theorem test_witness_reset_inv :
    Config.wf { Config.default with outCap := 1 } = true ∧
    Config.wf { Config.default with outCap := 0xFFFFFFF } = true := by decide

/-- StepKeepsInv and StepFinishesUnderInv: a fault from each state, and a word ignored in FAULT. -/
theorem test_witness_inv :
    (Inv State.reset ∧ ∃ t, step { State.reset with port := [.command 0x4000000000000000] } = .next t ∧
      t.state = .fault) ∧
    (Inv w1Active ∧ ∃ t, step { w1Active with port := [.command 0x2000000000000000] } = .next t ∧
      t.state = .fault) ∧
    (Inv w1Done ∧ ∃ t, step { w1Done with port := [.command 0x4000000000000000] } = .next t ∧
      t.state = .fault) ∧
    (Inv faulted ∧ ∃ t, step { faulted with port := [.command 0x4000000000000000] } = .next t ∧
      t.state = .fault) :=
  ⟨⟨inv_reset_like (by decide), next_of_part (by decide)⟩, ⟨inv_w1Active, next_of_part (by decide)⟩,
    ⟨inv_w1Done, next_of_part (by decide)⟩, ⟨inv_faulted, next_of_part (by decide)⟩⟩

/-- StepKeepsCanonicalForm, ParametersNeverChange, TableChangesOnlyByTblw. -/
theorem test_witness_table_changes :
    Memory.wf w1Done.out ∧ cellsWf w1Done.tbl ∧
    (∃ t, step { w1Done with port := [.command 0x1410C00000000000] } = .next t ∧ t.tbl = [(0x41, ⟨3, 0⟩)]) ∧
    (∃ t, step { w1Done with port := [.reset] } = .next t ∧ t.tbl = []) :=
  ⟨by decide, by decide, next_of_part (by decide), next_of_part (by decide)⟩

/-- TotalNeverWraps: a SYM that is performed, one past the bound, START and FIN. -/
theorem test_witness_total :
    Inv w1Active ∧ w1Active.state = .active ∧ tblEntry w1Active 0x41 = some ⟨5, 0x15⟩ ∧
    (∃ t, exec (.sym 0x41) w1Active = .next t ∧ t.state = .active) ∧
    Inv fullActive ∧ tblEntry fullActive 1 = some ⟨1, 0⟩ ∧
    8 * fullActive.cfg.outCap.toNat + 7 < fullActive.total.toNat + 1 ∧
    (∃ t, exec (.sym 1) fullActive = .next t ∧ t.state = .fault) ∧
    Inv w1Done ∧ (∃ t, exec .start w1Done = .next t ∧ t.state = .active) ∧
    (∃ t, exec .fin w1Active = .next t ∧ t.state = .done) :=
  ⟨inv_w1Active, by decide, by decide, next_of_part (by decide), inv_fullActive, by decide, by decide,
    next_of_part (by decide), inv_w1Done, next_of_part (by decide), next_of_part (by decide)⟩

/-- CompletedBytesStay: with the extra mask bit going to the last byte. -/
theorem test_witness_completed_bytes :
    x2Active.state = .active ∧ (0x3000000000000002 : CmdWord) ≠ encode .clr ∧
    (∃ t, performWord 0x3000000000000002 x2Active = .next t ∧ outByte t 0 = 1) ∧
    0 < x2Active.outLen.toNat :=
  ⟨by decide, by decide, next_of_part (by decide), by decide⟩

/-- CommandsReadNoDraw: two states that differ in a stale byte and in the draws taken. -/
theorem test_witness_same_visible :
    SameVisible (stateIn .active) { stateIn .active with out := [(0, 0xAF)], draws := 3 } :=
  ⟨rfl, rfl, rfl, rfl⟩

theorem sym_word_byte {b c : BitVec 8} (h : encode (.sym b) = encode (.sym c)) : b = c := by
  have h8 := congrArg (fun w : CmdWord => w.toNat % 2 ^ 8) h
  simp only [encode, BitVec.toNat_append] at h8
  apply BitVec.eq_of_toNat_eq
  have hb := b.isLt
  have hc := c.isLt
  simp only [Nat.shiftLeft_eq, Nat.or_mod_two_pow] at h8
  simpa [Nat.mod_eq_of_lt hb, Nat.mod_eq_of_lt hc] using h8

theorem not_illegal_fin : ¬ IllegalWord 0x4000000000000000 := by
  unfold IllegalWord
  decide

theorem not_illegal_sym_two : ¬ IllegalWord 0x3000000000000002 := by
  unfold IllegalWord
  decide

theorem not_illegal_tblw : ¬ IllegalWord 0x10BFC00080000000 := by
  unfold IllegalWord
  decide

/-- FirstApplicableFaultIsRaised, `E_ILL`: it comes before everything else. -/
theorem test_witness_first_ill :
    (stateIn .idle).state ≠ .fault ∧ FaultApplies .ill 0x0000000000000001 (stateIn .idle) ∧
    ∀ e, FaultApplies e 0x0000000000000001 (stateIn .idle) → faultRank .ill ≤ faultRank e :=
  ⟨by decide, illegal_bit, fun e _ => by cases e <;> decide⟩

/-- `E_SEQ`: FIN in IDLE. -/
theorem test_witness_first_seq :
    FaultApplies .seq 0x4000000000000000 (stateIn .idle) ∧
    ∀ e, FaultApplies e 0x4000000000000000 (stateIn .idle) → faultRank .seq ≤ faultRank e := by
  refine ⟨.inr (.inr (.inr ⟨by decide, .inl rfl⟩)), fun e he => ?_⟩
  cases e with
  | ill => exact absurd he not_illegal_fin
  | seq => decide
  | noent => decide
  | code => decide
  | ovf => decide
  | compat => decide

/-- A SYM's word in a call: no earlier code applies to it. -/
theorem sym_word_past_seq {s : State} {w : CmdWord} (hs : s.state = .active) (hill : ¬ IllegalWord w)
    (hw : ∀ r ∈ opcodeMap, r.selects w = true → r.mnemonic = "SYM") :
    ¬ FaultApplies .ill w s ∧ ¬ FaultApplies .seq w s ∧ ¬ FaultApplies .code w s := by
  refine ⟨hill, ?_, ?_⟩
  · rintro (⟨idx, len, code, h, -⟩ | ⟨h, -⟩ | ⟨b, -, h⟩ | ⟨h, -⟩)
    · exact absurd (mnemonic_of_word h.symm hw) (by simp [mnemonicOf])
    · exact absurd (mnemonic_of_word h.symm hw) (by simp [mnemonicOf])
    · rcases h with h | h <;> rw [hs] at h <;> cases h
    · exact absurd (mnemonic_of_word h.symm hw) (by simp [mnemonicOf])
  · rintro ⟨idx, len, code, h, -⟩
    exact absurd (mnemonic_of_word h.symm hw) (by simp [mnemonicOf])

/-- `E_NOENT`: a byte never written (L-7, with byte 2). -/
theorem test_witness_first_noent :
    FaultApplies .noent 0x3000000000000002 (stateIn .active) ∧
    ∀ e, FaultApplies e 0x3000000000000002 (stateIn .active) → faultRank .noent ≤ faultRank e := by
  obtain ⟨h1, h2, -⟩ := sym_word_past_seq (s := stateIn .active) rfl not_illegal_sym_two (by decide)
  refine ⟨⟨2, by decide, rfl⟩, fun e he => ?_⟩
  cases e with
  | ill => exact absurd he h1
  | seq => exact absurd he h2
  | noent => decide
  | code => decide
  | ovf => decide
  | compat => decide

/-- `E_CODE`: STRICT_CODE = 1 and the longest length that is checked, 31 (T-6 at index 0x0B). -/
theorem test_witness_first_code :
    FaultApplies .code (encode (.tblw 0x0B 31 0x80000000)) (stateIn .idle strictCfg) ∧
    ∀ e, FaultApplies e (encode (.tblw 0x0B 31 0x80000000)) (stateIn .idle strictCfg) →
      faultRank .code ≤ faultRank e := by
  have hw : ∀ r ∈ opcodeMap, r.selects (encode (.tblw 0x0B 31 0x80000000)) = true → r.mnemonic = "TBLW" := by
    decide
  refine ⟨⟨0x0B, 31, 0x80000000, rfl, rfl, by decide, by decide⟩, fun e he => ?_⟩
  cases e with
  | ill =>
    exact absurd he (by unfold FaultApplies IllegalWord; decide)
  | seq =>
    rcases he with ⟨_, _, _, -, h⟩ | ⟨h, -⟩ | ⟨b, h, -⟩ | ⟨h, -⟩
    · cases h
    · exact absurd (mnemonic_of_word h.symm hw) (by decide)
    · exact absurd (mnemonic_of_word h.symm hw) (by simp [mnemonicOf])
    · exact absurd (mnemonic_of_word h.symm hw) (by decide)
  | noent => decide
  | code => decide
  | ovf => decide
  | compat => decide

/-- `E_COMPAT`: E-8. -/
theorem test_witness_first_compat :
    FaultApplies .compat 0x3000000000000002
      { stateIn .active { smallCfg with maskExtraBit := true } with tbl := [(2, ⟨20, 0x1FFFFF⟩)] } ∧
    ∀ e, FaultApplies e 0x3000000000000002
      { stateIn .active { smallCfg with maskExtraBit := true } with tbl := [(2, ⟨20, 0x1FFFFF⟩)] } →
      faultRank .compat ≤ faultRank e := by
  obtain ⟨h1, h2, h3⟩ := sym_word_past_seq
    (s := { stateIn .active { smallCfg with maskExtraBit := true } with tbl := [(2, ⟨20, 0x1FFFFF⟩)] })
    rfl not_illegal_sym_two (by decide)
  refine ⟨⟨2, ⟨20, 0x1FFFFF⟩, by decide, by decide, by decide, by decide, by decide⟩, fun e he => ?_⟩
  cases e with
  | ill => exact absurd he h1
  | seq => exact absurd he h2
  | noent =>
    obtain ⟨b, h, hb⟩ := he
    have : b = 2 := (sym_word_byte (b := 2) (c := b) h).symm
    rw [this] at hb
    exact absurd hb (by decide)
  | code => exact absurd he h3
  | ovf => decide
  | compat => decide

/-- `E_OVF`: the same words with MASK_EXTRA_BIT = 0 (E-8). -/
theorem test_witness_first_ovf :
    FaultApplies .ovf 0x3000000000000002 { stateIn .active smallCfg with tbl := [(2, ⟨20, 0x1FFFFF⟩)] } ∧
    ∀ e, FaultApplies e 0x3000000000000002 { stateIn .active smallCfg with tbl := [(2, ⟨20, 0x1FFFFF⟩)] } →
      faultRank .ovf ≤ faultRank e := by
  obtain ⟨h1, h2, h3⟩ := sym_word_past_seq
    (s := { stateIn .active smallCfg with tbl := [(2, ⟨20, 0x1FFFFF⟩)] }) rfl not_illegal_sym_two (by decide)
  refine ⟨.inl ⟨2, ⟨20, 0x1FFFFF⟩, by decide, by decide, by decide⟩, fun e he => ?_⟩
  cases e with
  | ill => exact absurd he h1
  | seq => exact absurd he h2
  | noent =>
    obtain ⟨b, h, hb⟩ := he
    have : b = 2 := (sym_word_byte (b := 2) (c := b) h).symm
    rw [this] at hb
    exact absurd hb (by decide)
  | code => exact absurd he h3
  | ovf => decide
  | compat =>
    obtain ⟨_, _, -, -, h, -⟩ := he
    exact absurd h (by decide)

/-- No fault applies to NOP, and it answers a next state; and a word other than CLR in FAULT. -/
theorem test_witness_no_fault :
    (∀ e, ¬ FaultApplies e 0x0000000000000000 (stateIn .idle)) ∧
    (∃ t, performWord 0x0000000000000000 (stateIn .idle) = .next t ∧ t.state = .idle) ∧
    faulted.state = .fault ∧ (0x5000000000000001#64 : CmdWord) ≠ 0x5000000000000000#64 := by
  have hw : ∀ r ∈ opcodeMap, r.selects 0x0000000000000000 = true → r.mnemonic = "NOP" := by decide
  have hsym : ∀ b, (0x0000000000000000 : CmdWord) ≠ encode (.sym b) := fun b h =>
    absurd (mnemonic_of_word h.symm hw) (by simp [mnemonicOf])
  have htblw : ∀ i l c, (0x0000000000000000 : CmdWord) ≠ encode (.tblw i l c) := fun i l c h =>
    absurd (mnemonic_of_word h.symm hw) (by simp [mnemonicOf])
  refine ⟨fun e he => ?_, next_of_part (by decide), by decide, by decide⟩
  cases e with
  | ill => exact legal_nop he
  | seq =>
    rcases he with ⟨_, _, _, h, -⟩ | ⟨h, -⟩ | ⟨_, h, -⟩ | ⟨h, -⟩
    · exact htblw _ _ _ h
    · exact absurd h (by decide)
    · exact hsym _ h
    · exact absurd h (by decide)
  | noent => obtain ⟨_, h, -⟩ := he; exact hsym _ h
  | code => obtain ⟨_, _, _, h, -⟩ := he; exact htblw _ _ _ h
  | compat => obtain ⟨_, _, h, -⟩ := he; exact hsym _ h
  | ovf =>
    rcases he with ⟨_, _, h, -⟩ | ⟨h, -⟩
    · exact hsym _ h
    · exact absurd h (by decide)

/-- FaultsArePrecise, FaultIgnoresAllButClr, OnlyClrOrResetLeavesFault, FirstFaultIsKept,
GhostBitRemembersFaults. -/
theorem test_witness_faults :
    w1Active.state ≠ .fault ∧
    (∃ t, performWord 0x3000000000000042 w1Active = .next t ∧ t.state = .fault) ∧
    faulted.state = .fault ∧
    (∃ t, step { faulted with port := [.read 4] } = .next t ∧ t.replies = [0]) ∧
    (∃ t, step { faulted with port := [.command 0x5000000000000000] } = .next t ∧ t.state = .idle) ∧
    (∃ t, step { faulted with port := [.reset] } = .next t ∧ (t.state, t.faulted) = (.idle, false)) ∧
    (∃ t, step { faulted with port := [.command 0x5000000000000001] } = .next t ∧ t.state = .fault) ∧
    (∃ t, step { w1Active with port := [.command 0x2000000000000000] } = .next t ∧
      (t.state, t.faulted) = (.fault, true)) :=
  ⟨by decide, next_of_part (by decide), by decide, next_of_part (by decide), next_of_part (by decide),
    next_of_part (by decide), next_of_part (by decide), next_of_part (by decide)⟩

/-- LegalityTableHolds: every sequencing state, an illegal word, a byte with and without an entry, and a fault with ERR = 2 from each
state that can raise it. -/
theorem test_witness_legality :
    (stateIn .idle).state = .idle ∧ (stateIn .active).state = .active ∧ (stateIn .done).state = .done ∧
    faulted.state = .fault ∧ Instr.fin ≠ .clr ∧ IllegalWord 0x0000000000000001 ∧
    tblEntry w1Active 0x41 = some ⟨5, 0x15⟩ ∧ tblEntry w1Active 0x42 = none ∧
    (∃ t, exec .start w1Active = .next t ∧ (t.state, t.err) = (.fault, 2)) ∧
    (∃ t, exec .fin (stateIn .idle) = .next t ∧ (t.state, t.err) = (.fault, 2)) ∧
    (∃ t, exec (.sym 0) (stateIn .done) = .next t ∧ (t.state, t.err) = (.fault, 2)) :=
  ⟨rfl, rfl, rfl, rfl, by decide, illegal_bit, by decide, by decide, next_of_part (by decide),
    next_of_part (by decide), next_of_part (by decide)⟩

/-- The reserved bits of each opcode, at the ends of its reserved field: the `E_ILL` clauses of the
statements about NOP, TBLW, START, SYM, FIN and CLR. -/
theorem test_witness_reserved_bits :
    ((0x0000000000000001#64).extractLsb' 60 4 = 0x0#4 ∧ (0x0000000000000001#64).extractLsb' 0 60 ≠ 0) ∧
    ((0x1000200000000000#64).extractLsb' 60 4 = 0x1#4 ∧ (0x1000200000000000#64).extractLsb' 32 14 ≠ 0) ∧
    ((0x2800000000000000#64).extractLsb' 60 4 = 0x2#4 ∧ (0x2800000000000000#64).extractLsb' 0 60 ≠ 0) ∧
    ((0x3000000000000100#64).extractLsb' 60 4 = 0x3#4 ∧ (0x3000000000000100#64).extractLsb' 8 52 ≠ 0) ∧
    ((0x4000000000000001#64).extractLsb' 60 4 = 0x4#4 ∧ (0x4000000000000001#64).extractLsb' 0 60 ≠ 0) ∧
    ((0x5800000000000000#64).extractLsb' 60 4 = 0x5#4 ∧ (0x5800000000000000#64).extractLsb' 0 60 ≠ 0) := by
  decide

/-- TblwWritesEntry: a code just too wide, one that just fits, the first length that is not checked. -/
theorem test_witness_tblw :
    ((stateIn .idle strictCfg).state = .idle ∧ strictCfg.strictCode = true ∧ (31#6).toNat < 32 ∧
      2 ^ (31#6).toNat ≤ (0x80000000#32).toNat) ∧
    ¬ (strictCfg.strictCode = true ∧ (31#6).toNat < 32 ∧ 2 ^ (31#6).toNat ≤ (0x7FFFFFFF#32).toNat) ∧
    ¬ (strictCfg.strictCode = true ∧ (32#6).toNat < 32 ∧ 2 ^ (32#6).toNat ≤ (0xFFFFFFFF#32).toNat) ∧
    (0x42#8 ≠ 0x41#8) ∧ w1Active.state = .active ∧ w1Done.state = .done ∧ faulted.state = .fault := by decide

/-- SymAppendsCode, clause by clause: no entry; `E_COMPAT`; `E_OVF` by one byte; the commit that fills
the buffer exactly; and the extra mask bit going to `OUT[OUT_LEN - 1]` and to `ACC[0]`. -/
theorem test_witness_sym :
    (w1Active.state = .active ∧ tblEntry w1Active 0x42 = none) ∧
    (tblEntry { stateIn .active extraCfg with tbl := [(2, ⟨4, 0x15⟩)] } 2 = some ⟨4, 0x15⟩ ∧
      extraBit extraCfg ⟨4, 0x15⟩ = true ∧ (stateIn .active extraCfg).total = 0) ∧
    (fullActive.state = .active ∧ tblEntry fullActive 1 = some ⟨1, 0⟩ ∧
      ¬ (extraBit fullActive.cfg ⟨1, 0⟩ = true ∧ fullActive.total = 0) ∧
      fullActive.cfg.outCap.toNat < fullActive.outLen.toNat + (fullActive.nbits.toNat + 1) / 8) ∧
    (let s : State := { stateIn .active smallCfg with tbl := [(1, ⟨1, 0⟩)], nbits := 7, total := 7 }
     s.state = .active ∧ tblEntry s 1 = some ⟨1, 0⟩ ∧ ¬ (extraBit s.cfg ⟨1, 0⟩ = true ∧ s.total = 0) ∧
      s.outLen.toNat + (s.nbits.toNat + 1) / 8 ≤ s.cfg.outCap.toNat) ∧
    (tblEntry x2Active 2 = some ⟨4, 0x15⟩ ∧ extraBit x2Active.cfg ⟨4, 0x15⟩ = true ∧ x2Active.total ≠ 0 ∧
      x2Active.nbits = 0 ∧ x2Active.outLen ≠ 0 ∧
      x2Active.outLen.toNat + (x2Active.nbits.toNat + 4) / 8 ≤ x2Active.cfg.outCap.toNat) ∧
    (x1Active.state = .active ∧ tblEntry x1Active 2 = some ⟨2, 0b110⟩ ∧
      extraBit x1Active.cfg ⟨2, 0b110⟩ = true ∧ x1Active.total ≠ 0 ∧ x1Active.nbits = 3 ∧
      x1Active.outLen.toNat + (x1Active.nbits.toNat + 2) / 8 ≤ x1Active.cfg.outCap.toNat) := by decide

/-- SymStopsWithoutStreamByte: a state that R33 rules out. -/
theorem test_witness_sym_stop :
    (let s : State := { stateIn .active extraCfg with tbl := [(2, ⟨4, 0x15⟩)], total := 8 }
     s.state = .active ∧ tblEntry s 2 = some ⟨4, 0x15⟩ ∧ s.cfg.maskExtraBit = true ∧
       (0x15#32).getLsbD (4#6).toNat = true ∧ s.total ≠ 0 ∧ s.nbits = 0 ∧ s.outLen = 0 ∧
       (4#6).toNat / 8 ≤ s.cfg.outCap.toNat) ∧ Inv x2Active :=
  ⟨by decide, inv_x2Active⟩

/-- FinPadsAndCloses: a full buffer, room for the byte, and no byte needed. -/
theorem test_witness_fin :
    (fullActive.state = .active ∧ 0 < (8 - fullActive.nbits.toNat) % 8 ∧
      fullActive.cfg.outCap.toNat < fullActive.outLen.toNat + 1) ∧
    (w1Active.state = .active ∧ 0 < (8 - w1Active.nbits.toNat) % 8 ∧
      w1Active.outLen.toNat + 1 ≤ w1Active.cfg.outCap.toNat) ∧
    (x2Active.state = .active ∧ (8 - x2Active.nbits.toNat) % 8 = 0) := by decide

/-- CommandFrames: each command answers a next state, SYM with and without an entry, and a byte of OUT
outside what SYM and FIN store to. -/
theorem test_witness_frames :
    (∃ t, exec .nop w1Active = .next t ∧ t.state = .active) ∧
    (∃ t, exec (.tblw 1 3 5) w1Done = .next t ∧ t.state = .done) ∧
    (∃ t, exec .start w1Done = .next t ∧ t.state = .active) ∧
    (∃ t, exec (.sym 2) x2Active = .next t ∧ t.state = .active) ∧
    (∃ t, exec (.sym 3) x2Active = .next t ∧ t.state = .fault) ∧
    (∃ t, exec .fin w1Active = .next t ∧ t.state = .done) ∧
    (∃ t, exec .clr w1Active = .next t ∧ t.state = .idle) ∧
    (let s := { x2Active with nbits := 1 }
     tblEntry s 2 = some ⟨4, 0x15⟩ ∧
      ¬ (s.outLen.toNat ≤ 0 ∧ 0 < s.outLen.toNat + (s.nbits.toNat + 4) / 8) ∧
      ¬ (extraBit s.cfg ⟨4, 0x15⟩ = true ∧ s.nbits = 0 ∧ 0 = s.outLen.toNat - 1) ∧
      ¬ (padCount s.nbits ≠ 0 ∧ 0 = s.outLen.toNat)) :=
  ⟨next_of_part (by decide), next_of_part (by decide), next_of_part (by decide), next_of_part (by decide),
    next_of_part (by decide), next_of_part (by decide), next_of_part (by decide), by decide⟩

/-- SymAppendsToStream, StreamIsConcatenation, PaddingIsOnes, PaddingInvariant. -/
theorem test_witness_stream :
    (x2Active.state = .active ∧ tblEntry x2Active 2 = some ⟨4, 0x15⟩ ∧
      ∃ t, exec (.sym 2) x2Active = .next t ∧ t.state = .active) ∧
    (w1Done.state = .idle ∨ w1Done.state = .done) ∧ w1Done.cfg.maskExtraBit = false ∧
    (∀ b ∈ [0x41#8], tblEntry w1Done b = some ((fun _ => ⟨5, 0x15⟩ : Byte → TblEntry) b)) ∧
    (∃ t, runWords ((Instr.start :: [0x41#8].map Instr.sym).map encode) w1Done = .next t ∧ t.state = .active) ∧
    (Inv w1Active ∧ w1Active.state = .active ∧ ∃ t, exec .fin w1Active = .next t ∧ t.state = .done) :=
  ⟨⟨by decide, by decide, next_of_part (by decide)⟩, by decide, by decide, by decide,
    next_of_part (by decide), inv_w1Active, by decide, next_of_part (by decide)⟩

/-- LongCodesLeadWithZeros and ShifterFitsSeventyBits at the ends of their ranges. -/
theorem test_witness_widths :
    32 ≤ (TblEntry.mk 32 0xFFFFFFFF).len.toNat ∧ 32 ≤ (TblEntry.mk 63 0xFFFFFFFF).len.toNat ∧
    (TblEntry.mk 0 0xFFFFFFFF).len = 0 ∧
    ((7 : Nat) ≤ 7 ∧ (63 : Nat) ≤ 63 ∧ 127 < 2 ^ 7 ∧ 9223372036854775807 < 2 ^ 63) := by decide

/-- BitSerialFormAgrees: with the extra mask bit and without. -/
theorem test_witness_bit_serial :
    x2Active.state = .active ∧ x2Active.acc.toNat < 2 ^ x2Active.nbits.toNat ∧
    tblEntry x2Active 2 = some ⟨4, 0x15⟩ ∧ symFault ⟨4, 0x15⟩ x2Active = none ∧
    (∃ t, applyExtraBit (extraBit x2Active.cfg ⟨4, 0x15⟩) x2Active = .next t ∧ t.out = [(0, 1)]) ∧
    finFault w1Active = none :=
  ⟨by decide, by decide, by decide, by decide, next_of_part (by decide), by decide⟩

/-- CallComputesEncode, a call that fits. -/
theorem test_witness_call_fits :
    (w1Done.state = .idle ∨ w1Done.state = .done) ∧
    (∀ b ∈ [0x41#8], tblEntry w1Done b = some ((fun _ => ⟨5, 0x15⟩ : Byte → TblEntry) b)) ∧
    (∀ pre b, ¬ FirstLostExtraBit w1Done.cfg (fun _ => ⟨5, 0x15⟩) [0x41] pre b) ∧
    (totalBits (fun _ => ⟨5, 0x15⟩) [0x41] + 7) / 8 ≤ w1Done.cfg.outCap.toNat :=
  ⟨by decide, by decide,
    fun _ _ h => absurd h.2.2.1 (by show ¬ extraBit Config.default ⟨5, 0x15⟩ = true; decide), by decide⟩

/-- CallComputesEncode, a call that passes the capacity by one byte. -/
theorem test_witness_call_overflows :
    (∀ b ∈ [0x41#8, 0x41#8], tblEntry { w1Done with cfg := smallCfg } b =
      some ((fun _ => ⟨5, 0x15⟩ : Byte → TblEntry) b)) ∧
    (∀ pre b, ¬ FirstLostExtraBit smallCfg (fun _ => ⟨5, 0x15⟩) [0x41, 0x41] pre b) ∧
    smallCfg.outCap.toNat < (totalBits (fun _ => ⟨5, 0x15⟩) [0x41, 0x41] + 7) / 8 :=
  ⟨by decide, fun _ _ h => absurd h.2.2.1 (by show ¬ extraBit smallCfg ⟨5, 0x15⟩ = true; decide), by decide⟩

/-- CallComputesEncode, X-3: a call that loses its first extra bit. -/
theorem test_witness_call_loses_bit :
    (∀ b ∈ [2#8], tblEntry { stateIn .idle extraCfg with tbl := [(2, ⟨4, 0x15⟩)] } b =
      some ((fun _ => ⟨4, 0x15⟩ : Byte → TblEntry) b)) ∧
    extraCfg.maskExtraBit = true ∧ FirstLostExtraBit extraCfg (fun _ => ⟨4, 0x15⟩) [2] [] 2 :=
  ⟨by decide, by decide, ⟨[], rfl⟩, rfl, by decide, by simp⟩

/-- EmptyInputEncodesToNothing. -/
theorem test_witness_empty : State.reset.state = .idle ∨ State.reset.state = .done := by decide

/-- ReadsChangeNothing: a word that is specified. -/
theorem test_witness_specified_read : ¬ UnspecifiedRead w1Done 0x10000000 := by
  rintro (⟨i, h | h, -⟩ | ⟨k, h, h1, h2⟩)
  · have := i.isLt
    simp at h
    omega
  · have := i.isLt
    simp at h
    omega
  · have hk : k = 0 := by simp at h; omega
    rw [hk] at h1
    exact absurd h1 (by decide)

/-- StatusWordFields, RegisterWordFields, TableWordFields. -/
theorem test_witness_register_words :
    Inv faulted ∧ faulted.err.toNat ≤ 6 ∧ 1 ≤ (1 : ReadWord).toNat ∧ (5 : ReadWord).toNat ≤ 5 ∧
    tblEntry w1Done 0x41 = some ⟨5, 0x15⟩ ∧ tblEntry w1Done 0 = none :=
  ⟨inv_faulted, by decide, by decide, by decide, by decide, by decide⟩

/-- ReadMapWindows: the ends of each window. -/
theorem test_witness_windows :
    (0x8 ≤ (0x8 : ReadWord).toNat ∧ (0xFF : ReadWord).toNat ≤ 0xFF) ∧
    (0x300 ≤ (0x300 : ReadWord).toNat ∧ (0x0FFFFFFF : ReadWord).toNat ≤ 0x0FFFFFFF) ∧
    ((0x10000000 : ReadWord).toNat = 0x10000000 + 0 ∧ 0 < w1Done.cfg.outCap.toNat ∧ 0 < w1Done.outLen.toNat) ∧
    ((0x1000003F : ReadWord).toNat = 0x10000000 + 63 ∧ 63 < w1Done.cfg.outCap.toNat ∧
      w1Done.outLen.toNat ≤ 63) ∧
    ((0x10000040 : ReadWord).toNat = 0x10000000 + 64 ∧ w1Done.cfg.outCap.toNat ≤ 64) ∧
    ((0xFFFFFFFF : ReadWord).toNat = 0x10000000 + 0xEFFFFFFF ∧ w1Done.cfg.outCap.toNat ≤ 0xEFFFFFFF) := by decide

end Sys2Proof.Tests
end

section
/-! SUPPORT. What commands, words and steps keep: the host's side, the ghost bit, and the datapath wherever
they end in FAULT. -/

namespace Sys2Proof.Machine

/-! What a command that has passed its checks can rely on. -/

/-- A TBLW past its check writes a code that fits its length, where that is asked for (R69). -/
theorem tblwFault_none_fits {len : BitVec 6} {code : BitVec 32} {s : State} (h : tblwFault len code s = none) :
    ¬ (s.cfg.strictCode = true ∧ codeTooWide len code = true) :=
  ((tblwFault_cases len code s).resolve_left fun hc => nomatch h.symm.trans hc.1).2

/-- A SYM past its checks completes no byte past the capacity (R96). -/
theorem symFault_none_fits {e : TblEntry} {s : State} (h : symFault e s = none) :
    s.outLen.toNat + (s.nbits.toNat + e.len.toNat) / 8 ≤ s.cfg.outCap.toNat := by
  obtain ⟨hc, -⟩ | ⟨hc, -⟩ | ⟨-, -, hfit⟩ := symFault_cases e s
  · exact nomatch h.symm.trans hc
  · exact nomatch h.symm.trans hc
  · exact hfit

/-- A FIN past its check has room for its byte, where it needs one (R96). -/
theorem finFault_none_fits {s : State} (h : finFault s = none) :
    s.nbits ≠ 0 → s.outLen.toNat + 1 ≤ s.cfg.outCap.toNat :=
  ((finFault_cases s).resolve_left fun hc => nomatch h.symm.trans hc.1).2

/-! Commands and words. -/

/-- R93 leaves every command but CLR, and every illegal word, without effect in FAULT (R101), so a word
that ends in FAULT was ignored there or raised a fault outside it. -/
theorem performWord_to_fault {w : CmdWord} {s t : State} (h : performWord w s = .next t)
    (ht : t.state = .fault) :
    (s.state = .fault ∧ t = s) ∨ (s.state ≠ .fault ∧ ∃ e w', t = raise e w' s) := by
  rcases performWord_cases h with ⟨i, -, hi⟩ | ⟨-, -, ⟨hs, rfl⟩ | ⟨hs, rfl⟩⟩
  · by_cases hs : s.state = .fault
    · by_cases hclr : i = .clr
      · rw [hclr, exec_clr] at hi
        cases hi
        simp at ht
      · rw [exec_ignored hs hclr] at hi
        cases hi
        exact .inl ⟨hs, rfl⟩
    · rcases (exec_cases hi).fault_or_not hs with hnot | ⟨e, -, rfl⟩
      · exact absurd ht hnot
      · exact .inr ⟨hs, e, _, rfl⟩
  · exact .inl ⟨hs, rfl⟩
  · exact .inr ⟨hs, .ill, w, rfl⟩

/-- A command leaves the host's side alone: R21's index, the port, the replies and the draws. -/
theorem ExecCase.host {i : Instr} {s t : State} (h : ExecCase i s t) :
    t.pc = s.pc ∧ t.port = s.port ∧ t.replies = s.replies ∧ t.draws = s.draws := by
  cases h with
  | sym _ _ _ hx =>
    rw [applyExtraBit_frame hx]
    simp
  | _ => simp

/-- So does every word, the illegal ones included. -/
theorem performWord_host {w : CmdWord} {s t : State} (h : performWord w s = .next t) :
    t.pc = s.pc ∧ t.port = s.port ∧ t.replies = s.replies ∧ t.draws = s.draws := by
  rcases performWord_cases h with ⟨i, -, hi⟩ | ⟨-, -, ⟨-, rfl⟩ | ⟨-, rfl⟩⟩
  · exact (exec_cases hi).host
  · exact ⟨rfl, rfl, rfl, rfl⟩
  · simp

/-- No command clears the ghost bit (R34). -/
theorem ExecCase.keeps_faulted {i : Instr} {s t : State} (h : ExecCase i s t) (hs : s.faulted = true) :
    t.faulted = true := by
  cases h with
  | sym _ _ _ hx =>
    rw [applyExtraBit_frame hx]
    simpa using hs
  | _ => simp [hs]

theorem performWord_keeps_faulted {w : CmdWord} {s t : State} (h : performWord w s = .next t)
    (hs : s.faulted = true) : t.faulted = true := by
  rcases performWord_cases h with ⟨i, -, hi⟩ | ⟨-, -, ⟨-, rfl⟩ | ⟨-, rfl⟩⟩
  · exact (exec_cases hi).keeps_faulted hs
  · exact hs
  · simp

/-- What a SYM whose entry is written leads to: FAULT, or it passes its checks and appends its code (R77). -/
theorem exec_sym_entry {s t : State} {b : Byte} {e : TblEntry}
    (he : tblEntry s b = some e) (h : exec (.sym b) s = .next t) :
    t.state = .fault ∨ (symFault e s = none ∧ ∃ s1, applyExtraBit (extraBit s.cfg e) s = .next s1 ∧
      t = appendCode e.len.toNat (maskedCode e) s1) := by
  cases exec_cases h with
  | ignored hf => exact .inl hf
  | errSeq => exact .inl rfl
  | noEntry => exact .inl rfl
  | symFaults => exact .inl rfl
  | sym _ he' hf hx =>
    rw [he] at he'
    cases he'
    exact .inr ⟨hf, _, hx, rfl⟩

/-- FIN counts no data bit, whatever it does (R81). -/
theorem exec_fin_total {s t : State} (h : exec .fin s = .next t) : t.total = s.total := by
  cases exec_cases h <;> simp

/-! A step, by the head of the port. -/

/-- A step on a delivered word performs it. -/
theorem step_command {s : State} {w : CmdWord} {rest : List Transaction} (hp : s.port = .command w :: rest) :
    step s = performWord w { s with port := rest, pc := s.pc + 1 } := by
  simp [step, takeTransaction, hp, perform]

/-- A step on a reset transaction resets the block (R111). -/
theorem step_reset {s : State} {rest : List Transaction} (hp : s.port = .reset :: rest) :
    step s = .next (resetBlock { s with port := rest }) := by
  simp [step, takeTransaction, hp, perform]

/-- The registers of the datapath are the same in both states (R16 to R20). -/
def SameDatapath (s t : State) : Prop :=
  t.acc = s.acc ∧ t.nbits = s.nbits ∧ t.total = s.total ∧ t.pad = s.pad ∧ t.outLen = s.outLen

theorem sameDatapath_raise (e : ErrCode) (w : CmdWord) (s : State) : SameDatapath s (raise e w s) :=
  ⟨rfl, rfl, rfl, rfl, rfl⟩

/-- A step that ends in FAULT moves no register of the datapath (R100, R101), and it began in FAULT or
sets the ghost bit (R34). -/
theorem step_to_fault {s t : State} (h : step s = .next t) (ht : t.state = .fault) :
    SameDatapath s t ∧ (s.state = .fault ∨ t.faulted = true) := by
  rcases step_cases h with ⟨-, rfl⟩ | ⟨w, rest, -, hw⟩ | ⟨addr, rest, -, rfl⟩ | ⟨rest, -, rfl⟩
  · exact ⟨⟨rfl, rfl, rfl, rfl, rfl⟩, .inl ht⟩
  · rcases performWord_to_fault hw ht with ⟨hs, rfl⟩ | ⟨-, e, w', rfl⟩
    · exact ⟨⟨rfl, rfl, rfl, rfl, rfl⟩, .inl hs⟩
    · exact ⟨sameDatapath_raise e w' _, .inr rfl⟩
  · exact ⟨⟨rfl, rfl, rfl, rfl, rfl⟩, .inl ht⟩
  · simp at ht

end Sys2Proof.Machine
end

section
/-! SUPPORT. The parts of the invariant of R33, and that each operation of the
block, each command and each step keeps it. -/

namespace Sys2Proof.Machine

/-! The datapath and STATE (I3 to I6). -/

theorem SameDatapath.idle {s t : State} (h : SameDatapath s t) (hs : DatapathIdle s) : DatapathIdle t := by
  obtain ⟨ha, hn, ht, hp, ho⟩ := h
  rwa [DatapathIdle, ha, hn, ht, hp, ho]

theorem SameDatapath.active {s t : State} (h : SameDatapath s t) (hs : DatapathActive s) : DatapathActive t := by
  obtain ⟨-, hn, ht, hp, ho⟩ := h
  rwa [DatapathActive, hn, ht, hp, ho]

theorem SameDatapath.done {s t : State} (h : SameDatapath s t) (hs : DatapathDone s) : DatapathDone t := by
  obtain ⟨ha, hn, ht, hp, ho⟩ := h
  rwa [DatapathDone, ha, hn, ht, hp, ho]

theorem seqInv_idle {s : State} (hs : s.state = .idle) : SeqInv s ↔ DatapathIdle s ∧ NoFaultRecorded s := by
  rw [SeqInv, hs]

theorem seqInv_active {s : State} (hs : s.state = .active) :
    SeqInv s ↔ DatapathActive s ∧ NoFaultRecorded s := by
  rw [SeqInv, hs]

theorem seqInv_done {s : State} (hs : s.state = .done) : SeqInv s ↔ DatapathDone s ∧ NoFaultRecorded s := by
  rw [SeqInv, hs]

theorem seqInv_fault {s : State} (hs : s.state = .fault) :
    SeqInv s ↔ (DatapathIdle s ∨ DatapathActive s ∨ DatapathDone s) ∧ 1 ≤ s.err.toNat ∧ s.err.toNat ≤ 6 ∧
      s.faulted = true := by
  rw [SeqInv, hs]

/-- I3 to I6 give the datapath of one of the three states, in FAULT too. -/
theorem SeqInv.datapath {s : State} (h : SeqInv s) : DatapathIdle s ∨ DatapathActive s ∨ DatapathDone s := by
  cases hs : s.state with
  | idle => exact .inl ((seqInv_idle hs).mp h).1
  | active => exact .inr (.inl ((seqInv_active hs).mp h).1)
  | done => exact .inr (.inr ((seqInv_done hs).mp h).1)
  | fault => exact ((seqInv_fault hs).mp h).1

/-- Outside FAULT no fault is recorded. -/
theorem SeqInv.noFaultRecorded {s : State} (h : SeqInv s) (hs : s.state ≠ .fault) : NoFaultRecorded s := by
  cases hs' : s.state with
  | idle => exact ((seqInv_idle hs').mp h).2
  | active => exact ((seqInv_active hs').mp h).2
  | done => exact ((seqInv_done hs').mp h).2
  | fault => exact absurd hs' hs

theorem errBits_range (e : ErrCode) : 1 ≤ (errBits e).toNat ∧ (errBits e).toNat ≤ 6 := by
  cases e <;> decide

/-- A fault keeps the datapath's part of the invariant. -/
theorem SeqInv.raise {s : State} (h : SeqInv s) (e : ErrCode) (w : CmdWord) : SeqInv (raise e w s) := by
  have hsame := sameDatapath_raise e w s
  exact (seqInv_fault rfl).mpr ⟨h.datapath.imp hsame.idle (Or.imp hsame.active hsame.done),
    (errBits_range e).1, (errBits_range e).2, rfl⟩

/-! The code table. -/

/-- What the invariant says of the code table of a build. -/
structure TblInv (c : Config) (tbl : Table) : Prop where
  wf : cellsWf tbl
  index : ∀ p ∈ tbl, p.1 < 256
  strict : c.strictCode = true → ∀ p ∈ tbl, codeTooWide p.2.len p.2.code = false

theorem tblInv_nil (c : Config) : TblInv c [] := ⟨.nil, by simp, by simp⟩

/-- A TBLW past its check writes an entry that the invariant allows (R68, R69). -/
theorem TblInv.write {c : Config} {tbl : Table} (h : TblInv c tbl) (idx : Byte) {e : TblEntry}
    (he : ¬ (c.strictCode = true ∧ codeTooWide e.len e.code = true)) :
    TblInv c (cellWrite tbl idx.toNat e) where
  wf := cellsWf_cellWrite _ _ h.wf
  index p hp := by
    rcases mem_cellWrite hp with rfl | hp
    · exact idx.isLt
    · exact h.index p hp
  strict hc p hp := by
    rcases mem_cellWrite hp with rfl | hp
    · exact Bool.eq_false_of_not_eq_true (fun hwide => he ⟨hc, hwide⟩)
    · exact h.strict hc p hp

/-! The output buffer. -/

/-- What the invariant says of the output buffer: canonical, inside OUT_CAP, and written below OUT_LEN. -/
structure OutInv (c : Config) (out : Memory) (outLen : BitVec 32) : Prop where
  wf : Memory.wf out
  inCap : ∀ p ∈ out, p.1 < c.outCap.toNat
  lenFits : outLen.toNat ≤ c.outCap.toNat
  written : ∀ k < outLen.toNat, (cellRead out k).isSome = true

/-- A new call, a CLR: the bytes stay, none of them belongs to the call. -/
theorem OutInv.restart {c : Config} {out : Memory} {outLen : BitVec 32} (h : OutInv c out outLen) :
    OutInv c out 0 :=
  ⟨h.wf, h.inCap, by simp, by simp⟩

theorem outInv_nil (c : Config) : OutInv c [] 0 := ⟨.nil, by simp, by simp, by simp⟩

/-- Rewriting a byte below the capacity. -/
theorem OutInv.write {c : Config} {out : Memory} {outLen : BitVec 32} (h : OutInv c out outLen) {k : Nat}
    (hk : k < c.outCap.toNat) (v : Byte) : OutInv c (cellWrite out k v) outLen where
  wf := cellsWf_cellWrite _ _ h.wf
  inCap p hp := by
    rcases mem_cellWrite hp with rfl | hp
    · exact hk
    · exact h.inCap p hp
  lenFits := h.lenFits
  written j hj := by
    rw [cellRead_cellWrite]
    split
    · rfl
    · exact h.written j hj

/-- Emitting bytes that fit (R55, R96). -/
theorem OutInv.emitAll {c : Config} {s : State} (h : OutInv c s.out s.outLen) {vs : List Byte}
    (hfit : s.outLen.toNat + vs.length ≤ c.outCap.toNat) :
    OutInv c (emitAll vs s).out (emitAll vs s).outLen := by
  have hwrap : s.outLen.toNat + vs.length < 2 ^ 32 := by
    have := c.outCap.isLt
    omega
  have hlen := emitAll_outLen vs s hwrap
  refine ⟨emitAll_wf vs h.wf, fun p hp => ?_, hlen ▸ hfit, fun k hk => ?_⟩
  · rcases mem_emitAll hwrap hp with hp | hp
    · exact h.inCap p hp
    · exact lt_of_lt_of_le hp hfit
  · rw [hlen] at hk
    rw [cellRead_emitAll vs s hwrap]
    by_cases hin : s.outLen.toNat ≤ k
    · rw [if_pos ⟨hin, hk⟩, List.getElem?_eq_getElem (by omega)]
      rfl
    · rw [if_neg (fun hc => hin hc.1)]
      exact h.written k (by omega)

/-! The invariant, by its parts. -/

/-- The build, the table, the output buffer, the residual, and STATE with its datapath. -/
theorem inv_iff (s : State) :
    Inv s ↔ s.cfg.wf = true ∧ TblInv s.cfg s.tbl ∧ OutInv s.cfg s.out s.outLen ∧
      s.acc.toNat < 2 ^ s.nbits.toNat ∧ SeqInv s :=
  ⟨fun h => ⟨h.capLegal, ⟨h.tblWf, h.tblIndex, h.tblStrict⟩, ⟨h.outWf, h.outInCap, h.lenFits, h.callWritten⟩,
    h.accFits, h.seqInv⟩,
   fun ⟨hcap, htbl, hout, hacc, hseq⟩ => ⟨hcap, hout.wf, hout.inCap, htbl.wf, htbl.index, htbl.strict, hacc,
    hout.lenFits, hout.written, hseq⟩⟩

/-- The invariant says nothing of the host's side. -/
theorem Inv.withHost {s : State} (h : Inv s) (pc : Nat) (port : List Transaction) (replies : List ReadWord)
    (draws : Nat) : Inv { s with pc := pc, port := port, replies := replies, draws := draws } :=
  (inv_iff _).mpr ((inv_iff s).mp h)

/-- ERR is 0 outside FAULT and a code of R91 in it (R23). -/
theorem Inv.err_le {s : State} (h : Inv s) : s.err.toNat ≤ 6 := by
  by_cases hs : s.state = .fault
  · obtain ⟨-, -, hle, -⟩ := (seqInv_fault hs).mp h.seqInv
    exact hle
  · rw [(h.seqInv.noFaultRecorded hs).1]
    decide

/-- Entering FAULT keeps the invariant (R100, I6). -/
theorem Inv.raise {s : State} (h : Inv s) (e : ErrCode) (w : CmdWord) : Inv (raise e w s) := by
  obtain ⟨hcap, htbl, hout, hacc, hseq⟩ := (inv_iff s).mp h
  exact (inv_iff _).mpr ⟨hcap, htbl, hout, hacc, hseq.raise e w⟩

/-- CLR (R88). -/
theorem Inv.clearToIdle {s : State} (h : Inv s) : Inv (clearToIdle s) := by
  obtain ⟨hcap, htbl, hout, -, -⟩ := (inv_iff s).mp h
  exact (inv_iff _).mpr ⟨hcap, htbl, hout.restart, by simp,
    (seqInv_idle rfl).mpr ⟨⟨rfl, rfl, rfl, rfl, rfl⟩, rfl, rfl⟩⟩

/-- A reset (R35). -/
theorem Inv.resetBlock {s : State} (h : Inv s) : Inv (resetBlock s) :=
  (inv_iff _).mpr ⟨h.capLegal, tblInv_nil _, outInv_nil _, by simp,
    (seqInv_idle rfl).mpr ⟨⟨rfl, rfl, rfl, rfl, rfl⟩, rfl, rfl⟩⟩

/-- TBLW past its check (R68, R69). -/
theorem Inv.setTbl {s : State} (h : Inv s) (idx : Byte) {len : BitVec 6} {code : BitVec 32}
    (hf : tblwFault len code s = none) : Inv (setTbl idx ⟨len, code⟩ s) := by
  obtain ⟨hcap, htbl, hout, hacc, hseq⟩ := (inv_iff s).mp h
  exact (inv_iff _).mpr ⟨hcap, htbl.write idx (tblwFault_none_fits hf), hout, hacc, hseq⟩

/-- START (R76). -/
theorem Inv.openCall {s : State} (h : Inv s) (hs : s.state ≠ .fault) : Inv (openCall s) := by
  obtain ⟨hcap, htbl, hout, -, hseq⟩ := (inv_iff s).mp h
  exact (inv_iff _).mpr ⟨hcap, htbl, hout.restart, by simp,
    (seqInv_active rfl).mpr ⟨⟨rfl, rfl⟩, hseq.noFaultRecorded hs⟩⟩

/-- The extra mask bit falls on a bit of the stream that is there (R80). -/
theorem Inv.applyExtraBit {x : Bool} {s t : State} (h : Inv s) (hs : s.state = .active)
    (hx : applyExtraBit x s = .next t) : Inv t := by
  obtain ⟨hcap, htbl, hout, hacc, hseq⟩ := (inv_iff s).mp h
  rcases applyExtraBit_cases hx with ⟨-, rfl⟩ | ⟨-, hn, rfl⟩ | ⟨-, -, ho, rfl⟩
  · exact h
  · have hpos : s.nbits.toNat ≠ 0 := fun hc => hn (BitVec.eq_of_toNat_eq hc)
    have hor : (s.acc ||| 1).toNat < 2 ^ s.nbits.toNat :=
      Nat.or_lt_two_pow hacc (Nat.one_lt_two_pow hpos)
    exact (inv_iff _).mpr ⟨hcap, htbl, hout, hor,
      (seqInv_active (s := { s with acc := s.acc ||| 1 }) hs).mpr ((seqInv_active hs).mp hseq)⟩
  · have hpos : s.outLen.toNat ≠ 0 := fun hc => ho (BitVec.eq_of_toNat_eq hc)
    have := hout.lenFits
    exact (inv_iff _).mpr ⟨hcap, htbl, hout.write (by omega) _, hacc, hseq⟩

/-- While a call is active TOTAL counts the bits of the stream, and the capacity bounds them below
`2 ^ 31` (R18). -/
theorem Inv.total_bound {s : State} (h : Inv s) (hs : s.state = .active) :
    s.total.toNat = 8 * s.outLen.toNat + s.nbits.toNat ∧
    8 * s.outLen.toNat + s.nbits.toNat ≤ 8 * s.cfg.outCap.toNat + 7 ∧
    8 * s.cfg.outCap.toNat + 7 ≤ 2 ^ 31 - 1 := by
  obtain ⟨⟨htotal, -⟩, -⟩ := (seqInv_active hs).mp h.seqInv
  have hlen := h.lenFits
  have hn := s.nbits.isLt
  have hcap := s.cfg.outCap.isLt
  exact ⟨htotal, by omega, by omega⟩

/-- TOTAL grows by LEN and does not wrap (R18, R77). -/
theorem Inv.appendCode_total_toNat {s : State} (h : Inv s) (hs : s.state = .active) {len : Nat}
    (hlen : len < 64) (m : Nat) : (appendCode len m s).total.toNat = s.total.toNat + len := by
  obtain ⟨htotal, hle, hcap⟩ := h.total_bound hs
  rw [appendCode_total, BitVec.toNat_ofNat]
  omega

/-- SYM's append past the capacity check (R77). -/
theorem Inv.appendCode {s : State} (h : Inv s) (hs : s.state = .active) {len m : Nat} (hlen : len < 64)
    (hfit : s.outLen.toNat + (s.nbits.toNat + len) / 8 ≤ s.cfg.outCap.toNat) :
    Inv (appendCode len m s) := by
  have htotal := h.appendCode_total_toNat hs hlen m
  obtain ⟨hcap, htbl, hout, -, hseq⟩ := (inv_iff s).mp h
  obtain ⟨⟨hcount, hpad⟩, hrec⟩ := (seqInv_active hs).mp hseq
  have houtLen : (Machine.appendCode len m s).outLen.toNat = s.outLen.toNat + (s.nbits.toNat + len) / 8 :=
    appendCode_outLen_toNat (by have := s.cfg.outCap.isLt; omega)
  refine (inv_iff _).mpr ⟨by simpa using hcap, ?_, ?_, ?_, (seqInv_active (by simpa using hs)).mpr ⟨⟨?_, ?_⟩, ?_⟩⟩
  · simpa using htbl
  · rw [appendCode_out, appendCode_outLen, appendCode_cfg]
    exact hout.emitAll (by rwa [octets_length])
  · rw [appendCode_acc, appendCode_nbits_toNat]
    exact residual_lt _ _
  · rw [htotal, houtLen, appendCode_nbits_toNat]
    omega
  · rwa [appendCode_pad]
  · simpa [NoFaultRecorded] using hrec

/-- The byte FIN emits is made of the pending bits and the padding (R81). -/
theorem finBytes_bits (s : State) : 8 * (finBytes s).length = s.nbits.toNat + padCount s.nbits := by
  have hn := s.nbits.isLt
  by_cases h : padCount s.nbits = 0
  · rw [finBytes, if_pos h, h, (padCount_eq_zero _).mp h]
    rfl
  · rw [finBytes, if_neg h]
    rw [padCount] at h ⊢
    simp only [List.length_singleton]
    omega

theorem closeCall_pad_toNat (s : State) : (closeCall s).pad.toNat = padCount s.nbits := by
  rw [closeCall_pad, BitVec.toNat_ofNat]
  exact Nat.mod_eq_of_lt (padCount_lt _)

/-- FIN past the capacity check (R81). -/
theorem Inv.closeCall {s : State} (h : Inv s) (hs : s.state = .active) (hf : finFault s = none) :
    Inv (closeCall s) := by
  obtain ⟨hcap, htbl, hout, -, hseq⟩ := (inv_iff s).mp h
  obtain ⟨⟨hcount, -⟩, hrec⟩ := (seqInv_active hs).mp hseq
  have hfit : s.outLen.toNat + (finBytes s).length ≤ s.cfg.outCap.toNat := by
    have := hout.lenFits
    rw [finBytes_length]
    split
    · omega
    · exact finFault_none_fits hf ‹_›
  have houtLen : (Machine.closeCall s).outLen.toNat = s.outLen.toNat + (finBytes s).length := by
    rw [closeCall_outLen_eq]
    exact emitAll_outLen _ _ (by have := s.cfg.outCap.isLt; omega)
  refine (inv_iff _).mpr ⟨by simpa using hcap, by simpa using htbl, ?_, by simp,
    (seqInv_done rfl).mpr ⟨⟨rfl, rfl, ?_, ?_⟩, by simpa [NoFaultRecorded] using hrec⟩⟩
  · rw [closeCall_out_eq, closeCall_outLen_eq, closeCall_cfg]
    exact hout.emitAll hfit
  · have hbits := finBytes_bits s
    rw [houtLen, closeCall_total, closeCall_pad_toNat]
    omega
  · have hn := s.nbits.isLt
    rw [closeCall_pad_toNat, closeCall_total, padCount]
    omega

/-! Every step. -/

/-- A command keeps the invariant: each effect by its own lemma, given the checks it has passed. -/
theorem ExecCase.inv {i : Instr} {s t : State} (h : ExecCase i s t) (hs : Inv s) : Inv t := by
  cases h with
  | ignored => exact hs
  | errSeq => exact hs.raise _ _
  | noEntry => exact hs.raise _ _
  | wideCode => exact hs.raise _ _
  | symFaults => exact hs.raise _ _
  | finFaults => exact hs.raise _ _
  | nop => exact hs
  | tblw _ hf => exact hs.setTbl _ hf
  | start hq => exact hs.openCall (by rcases hq with hq | hq <;> simp [hq])
  | @sym b e _ s1 hq _ hf hx =>
    have hs1 := hs.applyExtraBit hq hx
    have hframe := applyExtraBit_frame hx
    exact hs1.appendCode (by rw [hframe]; exact hq) e.len.isLt (by rw [hframe]; exact symFault_none_fits hf)
  | fin hq hf => exact hs.closeCall hq hf
  | clr => exact hs.clearToIdle

/-- So does every word. -/
theorem performWord_inv {w : CmdWord} {s t : State} (h : performWord w s = .next t) (hs : Inv s) : Inv t := by
  rcases performWord_cases h with ⟨i, -, hi⟩ | ⟨-, -, ⟨-, rfl⟩ | ⟨-, rfl⟩⟩
  · exact (exec_cases hi).inv hs
  · exact hs
  · exact hs.raise _ _

/-- Every step keeps the invariant (R33). -/
theorem step_inv {s t : State} (h : step s = .next t) (hs : Inv s) : Inv t := by
  rcases step_cases h with ⟨-, rfl⟩ | ⟨w, rest, -, hw⟩ | ⟨addr, rest, -, rfl⟩ | ⟨rest, -, rfl⟩
  · exact hs
  · exact performWord_inv hw (hs.withHost _ _ _ _)
  · exact hs.withHost _ _ _ _
  · exact (hs.withHost _ _ _ _).resetBlock

end Sys2Proof.Machine
end

section
/-! SUPPORT. The words of the read port (R25 to R27, R38), and the bits of 0. -/

namespace Sys2Proof.Machine

/-! The read map (R38). -/

theorem readWord_register {addr : ReadWord} (h : addr.toNat < 0x100) (s : State) :
    readWord s addr = registerWord s addr.toNat :=
  if_pos h

theorem readWord_tblLen {addr : ReadWord} {i : Byte} (h : addr.toNat = 0x100 + i.toNat) (s : State) :
    readWord s addr = tblLenWord s i := by
  have hi := i.isLt
  rw [readWord, if_neg (by omega), if_pos (by omega), h, Nat.add_sub_cancel_left, BitVec.ofNat_toNat,
    BitVec.setWidth_eq]

theorem readWord_tblCode {addr : ReadWord} {i : Byte} (h : addr.toNat = 0x200 + i.toNat) (s : State) :
    readWord s addr = tblCodeWord s i := by
  have hi := i.isLt
  rw [readWord, if_neg (by omega), if_neg (by omega), if_pos (by omega), h, Nat.add_sub_cancel_left,
    BitVec.ofNat_toNat, BitVec.setWidth_eq]

theorem readWord_status (s : State) : readWord s 0 = statusWord s := readWord_register (by decide) s

/-! The fields of the packed words (R25 to R27). -/

/-- Words 0 to 5 of the register window read 0 after reset (R25, R26). -/
theorem registerWord_resetWith (c : Config) {k : Nat} (hk : k ≤ 5) : registerWord (State.resetWith c) k = 0 := by
  match k, hk with
  | 0, _ => exact (by decide : (0#17 ++ 0#3 ++ 0#1 ++ 0#3 ++ 0#4 ++ 0#2 ++ 0#2 : ReadWord) = 0)
  | 1, _ => rfl
  | 2, _ => exact (by decide : (0#25 ++ 0#7 : ReadWord) = 0)
  | 3, _ => rfl
  | 4, _ => exact (by decide : (0#64).extractLsb' 0 32 = 0)
  | 5, _ => exact (by decide : (0#64).extractLsb' 32 32 = 0)

/-- The fields of STATUS (R25). -/
theorem statusWord_fields (s : State) :
    (statusWord s).extractLsb' 0 2 = stateBits s.state ∧
    (statusWord s).extractLsb' 2 2 = 0 ∧
    (statusWord s).extractLsb' 4 4 = s.err ∧
    (statusWord s).extractLsb' 8 3 = s.nbits ∧
    (statusWord s).extractLsb' 11 1 = 0 ∧
    (statusWord s).extractLsb' 12 3 = s.pad ∧
    (statusWord s).extractLsb' 15 17 = 0 := by
  rw [statusWord]
  refine ⟨?_, ?_, ?_, ?_, ?_, ?_, ?_⟩
  case refine_7 =>
    repeat rw [BitVec.extractLsb'_append_eq_of_le (by decide)]
    rw [BitVec.extractLsb'_eq_self]
    rfl
  all_goals
    repeat rw [BitVec.extractLsb'_append_eq_of_le (by decide)]
    rw [BitVec.extractLsb'_append_eq_of_add_le (by decide)]
    exact BitVec.extractLsb'_eq_self

/-- The fields of CONFIG (R26). -/
theorem configWord_fields (c : Config) :
    (configWord c).getLsbD 0 = c.strictCode ∧ (configWord c).getLsbD 1 = c.maskExtraBit ∧
    (configWord c).extractLsb' 2 30 = 0 := by
  rw [configWord]
  generalize c.strictCode = strict
  generalize c.maskExtraBit = extra
  revert strict extra
  decide

/-- The ACC word: ACC in bits 6:0, 0 above (R26). -/
theorem accWord_fields (acc : BitVec 7) :
    (0#25 ++ acc : ReadWord).extractLsb' 0 7 = acc ∧ (0#25 ++ acc : ReadWord).extractLsb' 7 25 = 0 := by
  constructor
  · rw [BitVec.extractLsb'_append_eq_of_add_le (by decide), BitVec.extractLsb'_eq_self]
  · rw [BitVec.extractLsb'_append_eq_of_le (by decide), BitVec.extractLsb'_eq_self]
    rfl

/-- The fields of a TBL_LEN word (R27). -/
theorem tblLenWord_fields (v : BitVec 1) (len : BitVec 6) :
    (v ++ 0#25 ++ len : ReadWord).extractLsb' 6 25 = 0 ∧
    (v ++ 0#25 ++ len : ReadWord).extractLsb' 0 6 = len ∧
    (v ++ 0#25 ++ len : ReadWord).getLsbD 31 = v.getLsbD 0 := by
  refine ⟨?_, ?_, ?_⟩
  · rw [BitVec.extractLsb'_append_eq_of_le (by decide), BitVec.extractLsb'_append_eq_of_add_le (by decide),
      BitVec.extractLsb'_eq_self]
    rfl
  · rw [BitVec.extractLsb'_append_eq_of_add_le (by decide), BitVec.extractLsb'_eq_self]
  · rw [BitVec.getLsbD_append, BitVec.getLsbD_append]
    rfl

theorem tblLenWord_some {s : State} {i : Byte} {e : TblEntry} (h : tblEntry s i = some e) :
    tblLenWord s i = 1#1 ++ 0#25 ++ e.len := by
  rw [tblLenWord, h]

theorem tblLenWord_none {s : State} {i : Byte} (h : tblEntry s i = none) :
    tblLenWord s i = 0#1 ++ 0#25 ++ Config.freeLen s.draws := by
  rw [tblLenWord, h]

theorem tblCodeWord_some {s : State} {i : Byte} {e : TblEntry} (h : tblEntry s i = some e) :
    tblCodeWord s i = e.code := by
  rw [tblCodeWord, h]

theorem tblCodeWord_none {s : State} {i : Byte} (h : tblEntry s i = none) :
    tblCodeWord s i = Config.freeCode s.draws := by
  rw [tblCodeWord, h]

/-- A table address: the window's base and the index, which does not carry out of the 32 bits (R38). -/
theorem window_add_toNat {base : ReadWord} (hbase : base.toNat ≤ 0x200) (i : Byte) :
    (base + i.setWidth 32).toNat = base.toNat + i.toNat := by
  have hi := i.isLt
  rw [BitVec.toNat_add, BitVec.toNat_setWidth]
  omega

/-! Bit strings (R10). -/

theorem bitsOf_zero (n : Nat) : bitsOf n 0 = List.replicate n false := by
  induction n with
  | zero => rfl
  | succ n ih => rw [bitsOf, ih, Nat.zero_testBit, List.replicate_succ]

end Sys2Proof.Machine
end

section
/-! The statements about the state (spec/10_state.md), settled. -/

namespace Sys2Proof.Machine

/-- Settles O16: each shared operation keeps the invariant (`step_inv`), and a step that ends in FAULT
moves no register of the datapath (`step_to_fault`). -/
theorem stepKeepsInv : Obligations.StepKeepsInv := by
  intro s t hs h
  refine ⟨step_inv h hs, fun ht => ?_⟩
  have hsame := (step_to_fault h ht).1
  exact ⟨fun hq => hsame.idle ((seqInv_idle hq).mp hs.seqInv).1,
    fun hq => hsame.active ((seqInv_active hq).mp hs.seqInv).1,
    fun hq => hsame.done ((seqInv_done hq).mp hs.seqInv).1, fun _ => hsame⟩

/-- Settles O11: a word leaves the index alone (`performWord_host`), and its delivery has advanced it. -/
theorem everyCommandAdvancesIndex : Obligations.EveryCommandAdvancesIndex := by
  intro s t w rest hp h
  rw [step_command hp] at h
  exact (performWord_host h).1

/-- Settles O21: the capacity bounds TOTAL (`Inv.total_bound`), and a SYM past its checks completes no byte
past the capacity, so none of them takes TOTAL past the bound. -/
theorem totalNeverWraps : Obligations.TotalNeverWraps := by
  intro s hinv
  refine ⟨hinv.total_bound, fun t hs h => ?_, fun t b e hs he h => ?_, fun t => exec_fin_total⟩
  · rw [exec_start_legal hs] at h
    cases h
    rfl
  · rcases exec_sym_entry he h with hf | ⟨hf, s1, hx, rfl⟩
    · exact ⟨fun hact => absurd (hf.symm.trans hact) (by decide), fun _ => hf⟩
    · have hframe := applyExtraBit_frame hx
      have hs1 : s1.state = .active := by rw [hframe]; exact hs
      have htotal : s1.total = s.total := by rw [hframe]
      refine ⟨fun _ => ?_, fun hpast => ?_⟩
      · rw [(hinv.applyExtraBit hs hx).appendCode_total_toNat hs1 e.len.isLt, htotal]
      · have hcount := (hinv.total_bound hs).1
        have hfit := symFault_none_fits hf
        omega

/-- Settles O29: entering FAULT sets the bit (`step_to_fault`), and no word clears it. -/
theorem ghostBitRemembersFaults : Obligations.GhostBitRemembersFaults := by
  intro s t h
  refine ⟨fun hs ht => (step_to_fault h ht).2.resolve_left hs, fun hs ht => ?_, fun rest hp => ?_,
    fun _ => rfl⟩
  · rcases step_cases h with ⟨-, rfl⟩ | ⟨w, rest, -, hw⟩ | ⟨addr, rest, -, rfl⟩ | ⟨rest, hp, -⟩
    · rw [hs] at ht
      cases ht
    · rw [performWord_keeps_faulted hw hs] at ht
      cases ht
    · rw [serveRead_faulted, hs] at ht
      cases ht
    · exact ⟨rest, hp⟩
  · rw [step_reset hp] at h
    cases h
    rfl

/-- Settles O41: CODE is below `2 ^ 32`, so the mask of 32 or more bits keeps all of it, and the bits
above it are those of 0. -/
theorem longCodesLeadWithZeros : Obligations.LongCodesLeadWithZeros := by
  refine fun e => ⟨fun hlen => ?_, fun hlen => by rw [hlen]; rfl⟩
  calc bitsOf e.len.toNat (maskedCode e)
      = bitsOf (e.len.toNat - 32 + 32) (0 * 2 ^ 32 + e.code.toNat) := by
        rw [maskedCode_eq, bitsOf_mod, Nat.sub_add_cancel hlen, Nat.zero_mul, Nat.zero_add]
    _ = List.replicate (e.len.toNat - 32) false ++ bitsOf 32 e.code.toNat := by
        rw [bitsOf_mul_add _ e.code.isLt, bitsOf_zero]

/-- Settles O13: every field of `resetBlock` is its value of R35. -/
theorem resetPutsResetValues : Obligations.ResetPutsResetValues := by
  intro s rest hp
  exact ⟨_, step_reset hp, rfl, rfl, rfl, rfl, rfl, rfl, rfl, rfl, fun _ => rfl, fun _ => rfl, rfl, rfl⟩

/-- Settles O50: the fields of the packed word (`statusWord_fields`), and ERR under the invariant. -/
theorem statusWordFields : Obligations.StatusWordFields := by
  refine ⟨fun c => registerWord_resetWith c (Nat.zero_le 5), fun s h => h.err_le, fun s => ?_⟩
  rw [readWord_status]
  obtain ⟨hstate, hrest⟩ := statusWord_fields s
  refine ⟨hstate.trans ?_, hrest⟩
  cases s.state <;> rfl

/-- Settles O51: each address gives its arm of `registerWord`, and the two packed words their fields. -/
theorem registerWordFields : Obligations.RegisterWordFields := by
  refine ⟨fun c a _ ha => ?_, fun s => ?_⟩
  · rw [readWord_register (by omega)]
    exact registerWord_resetWith c ha
  · have hacc : readWord s 2 = 0#25 ++ s.acc := readWord_register (by decide) s
    have hcfg : readWord s 6 = configWord s.cfg := readWord_register (by decide) s
    have hcap : readWord s 7 = 0#4 ++ s.cfg.outCap := readWord_register (by decide) s
    rw [hacc, hcfg, hcap]
    obtain ⟨hlow, hhigh⟩ := accWord_fields s.acc
    obtain ⟨hstrict, hextra, hrest⟩ := configWord_fields s.cfg
    exact ⟨readWord_register (by decide) s, hlow, hhigh, readWord_register (by decide) s,
      readWord_register (by decide) s, readWord_register (by decide) s, hstrict, hextra, hrest,
      (BitVec.toNat_append _ _).trans (by simp)⟩

/-- Settles O52: both words by whether the entry is listed. -/
theorem tableWordFields : Obligations.TableWordFields := by
  intro s i
  rw [readWord_tblLen (window_add_toNat (by decide) i), readWord_tblCode (window_add_toNat (by decide) i)]
  cases he : tblEntry s i with
  | none =>
    rw [tblLenWord_none he, tblCodeWord_none he]
    obtain ⟨hzero, hlen, hv⟩ := tblLenWord_fields 0#1 (Config.freeLen s.draws)
    exact ⟨hzero, fun _ h => (nomatch h), fun _ => ⟨hlen, hv, rfl⟩⟩
  | some e =>
    rw [tblLenWord_some he, tblCodeWord_some he]
    obtain ⟨hzero, hlen, hv⟩ := tblLenWord_fields 1#1 e.len
    refine ⟨hzero, ?_, fun h => nomatch h⟩
    rintro _ ⟨⟩
    exact ⟨hlen, hv, rfl⟩

end Sys2Proof.Machine
end

section
/-! SUPPORT. The rest of the read map (R38, R39), which addresses its windows hold, what a read does, and the
stream under a SYM. -/

namespace Sys2Proof.Machine

/-! The unmapped addresses and the output window (R38, R39). -/

theorem registerWord_unmapped (s : State) {k : Nat} (hk : 8 ≤ k) : registerWord s k = 0 := by
  match k, hk with
  | _ + 8, _ => rfl

theorem readWord_gap {addr : ReadWord} (hlo : 0x300 ≤ addr.toNat) (hhi : addr.toNat < 0x10000000) (s : State) :
    readWord s addr = 0 := by
  rw [readWord, if_neg (by omega), if_neg (by omega), if_neg (by omega), if_pos hhi]

theorem readWord_outWindow {addr : ReadWord} {k : Nat} (h : addr.toNat = 0x10000000 + k) (s : State) :
    readWord s addr = outWindowWord s k := by
  rw [readWord, if_neg (by omega), if_neg (by omega), if_neg (by omega), if_neg (by omega), h,
    Nat.add_sub_cancel_left]

theorem outWindowWord_unmapped {s : State} {k : Nat} (h : s.cfg.outCap.toNat ≤ k) : outWindowWord s k = 0 :=
  if_pos h

theorem outWindowWord_stale {s : State} {k : Nat} (hcap : k < s.cfg.outCap.toNat) (hlen : s.outLen.toNat ≤ k) :
    outWindowWord s k = 0#24 ++ Config.freeByte s.draws := by
  rw [outWindowWord, if_neg (by omega), if_pos hlen]

theorem outWindowWord_written {s : State} {k : Nat} (hcap : k < s.cfg.outCap.toNat) (hlen : k < s.outLen.toNat) :
    outWindowWord s k = 0#24 ++ outByte s k := by
  rw [outWindowWord, if_neg (by omega), if_neg (by omega)]

/-- An address of a window of 256 words is the window's base and the index of an entry. -/
theorem window_index {a base : Nat} (hlo : base ≤ a) (hhi : a < base + 0x100) : ∃ i : Byte, a = base + i.toNat :=
  ⟨BitVec.ofNat 8 (a - base), by rw [BitVec.toNat_ofNat]; omega⟩

/-- Every address stands in one window of R38. -/
theorem readWindow_cases (addr : ReadWord) :
    addr.toNat < 0x100 ∨ (∃ i : Byte, addr.toNat = 0x100 + i.toNat) ∨ (∃ i : Byte, addr.toNat = 0x200 + i.toNat) ∨
    (0x300 ≤ addr.toNat ∧ addr.toNat < 0x10000000) ∨ ∃ k, addr.toNat = 0x10000000 + k := by
  by_cases hreg : addr.toNat < 0x100
  · exact .inl hreg
  by_cases hlen : addr.toNat < 0x200
  · exact .inr (.inl (window_index (by omega) hlen))
  by_cases hcode : addr.toNat < 0x300
  · exact .inr (.inr (.inl (window_index (by omega) hcode)))
  by_cases hgap : addr.toNat < 0x10000000
  · exact .inr (.inr (.inr (.inl ⟨by omega, hgap⟩)))
  · exact .inr (.inr (.inr (.inr (Nat.exists_eq_add_of_le (by omega)))))

/-! A read transaction (R37). -/

/-- A step on a read transaction serves the read. -/
theorem step_read {s : State} {addr : ReadWord} {rest : List Transaction} (hp : s.port = .read addr :: rest) :
    step s = .next (serveRead addr { s with port := rest }) := by
  simp [step, takeTransaction, hp, perform]

/-- A word that the spec fixes does not depend on the host's side, nor on the draws taken (R37). -/
theorem readWord_withHost {s : State} {addr : ReadWord} (h : ¬ UnspecifiedRead s addr)
    (port : List Transaction) (replies : List ReadWord) (draws : Nat) :
    readWord { s with port := port, replies := replies, draws := draws } addr = readWord s addr := by
  rcases readWindow_cases addr with haddr | ⟨i, haddr⟩ | ⟨i, haddr⟩ | ⟨hlo, hhi⟩ | ⟨k, haddr⟩
  · rw [readWord_register haddr, readWord_register haddr]
    rfl
  · obtain ⟨e, he⟩ := Option.ne_none_iff_exists'.mp fun hnone => h (.inl ⟨i, .inl haddr, hnone⟩)
    rw [readWord_tblLen haddr, readWord_tblLen haddr, tblLenWord_some he]
    exact tblLenWord_some he
  · obtain ⟨e, he⟩ := Option.ne_none_iff_exists'.mp fun hnone => h (.inl ⟨i, .inr haddr, hnone⟩)
    rw [readWord_tblCode haddr, readWord_tblCode haddr, tblCodeWord_some he]
    exact tblCodeWord_some he
  · rw [readWord_gap hlo hhi, readWord_gap hlo hhi]
  · rw [readWord_outWindow haddr, readWord_outWindow haddr]
    by_cases hcap : k < s.cfg.outCap.toNat
    · have hlen : k < s.outLen.toNat := by
        by_contra hlen
        exact h (.inr ⟨k, haddr, Nat.le_of_not_lt hlen, hcap⟩)
      rw [outWindowWord_written hcap hlen]
      exact outWindowWord_written hcap hlen
    · rw [outWindowWord_unmapped (Nat.le_of_not_lt hcap)]
      exact outWindowWord_unmapped (Nat.le_of_not_lt hcap)

/-! The stream under a SYM (R40). -/

/-- A SYM past its checks appends its masked code to the stream: the capacity keeps OUT_LEN from wrapping, and
the extra mask bit moves neither counter. -/
theorem stream_sym {s s1 : State} {e : TblEntry} (hf : symFault e s = none)
    (hx : applyExtraBit (extraBit s.cfg e) s = .next s1) :
    stream (appendCode e.len.toNat (maskedCode e) s1) = stream s1 ++ bitsOf e.len.toNat (maskedCode e) := by
  have hcap := s.cfg.outCap.isLt
  have hfit := symFault_none_fits hf
  refine stream_appendCode (maskedCode_lt e) ?_
  rw [applyExtraBit_frame hx]
  change s.outLen.toNat + (s.nbits.toNat + e.len.toNat) / 8 < 2 ^ 32
  omega

end Sys2Proof.Machine
end

section
/-! The statements about the read port and the stream (spec/20_memory.md), settled. -/

namespace Sys2Proof.Machine

/-- Settles O39: a SYM that does not end in FAULT is performed (`exec_sym_entry`); the extra mask bit sets the
last bit of the stream (`stream_applyExtraBit`), and the masked code follows it (`stream_sym`). -/
theorem symAppendsToStream : Obligations.SymAppendsToStream := by
  intro s t b e _ he h ht
  obtain hfault | ⟨hf, s1, hx, rfl⟩ := exec_sym_entry he h
  · exact absurd (hfault.symm.trans ht) (by decide)
  · rw [stream_sym hf hx, stream_applyExtraBit hx, maskedCode_eq]

/-- Settles O49: a read is served (`step_read`), with a word that the port it left does not change, and a word
that the spec fixes reads the same whatever draws were taken (`readWord_withHost`). -/
theorem readsChangeNothing : Obligations.ReadsChangeNothing :=
  fun _ _ => ⟨fun _ hp => step_read hp, readWord_withHost⟩

/-- Settles O53: the word of each window, and the two fields of a word of the output window. -/
theorem readMapWindows : Obligations.ReadMapWindows := by
  refine fun s addr => ⟨fun hlo hhi => ?_, fun hlo hhi => readWord_gap hlo (Nat.lt_succ_of_le hhi) s,
    fun k haddr => ?_⟩
  · rw [readWord_register (Nat.lt_succ_of_le hhi), registerWord_unmapped s hlo]
  · rw [readWord_outWindow haddr]
    refine ⟨fun hcap hlen => ?_, fun hcap hlen => ?_, outWindowWord_unmapped⟩
    · rw [outWindowWord_written hcap hlen]
      exact ⟨BitVec.extractLsb'_append_eq_right, BitVec.extractLsb'_append_eq_left⟩
    · rw [outWindowWord_stale hcap hlen]
      exact ⟨BitVec.extractLsb'_append_eq_right, BitVec.extractLsb'_append_eq_left⟩

end Sys2Proof.Machine
end

section
/-! SUPPORT. The fields of a command word (R57, R58), and what they say of the encoder, the decoder and the
opcode map (R60, R61). -/

namespace Sys2Proof.Machine

/-! The fields of a command's word (R57). -/

/-- Where format T places its fields. -/
theorem encode_tblw_fields (idx : BitVec 8) (len : BitVec 6) (code : BitVec 32) :
    fieldOp (encode (.tblw idx len code)) = 0x1#4 ∧ fieldIdx (encode (.tblw idx len code)) = idx ∧
    fieldLen (encode (.tblw idx len code)) = len ∧ fieldRsvT (encode (.tblw idx len code)) = 0#14 ∧
    fieldCode (encode (.tblw idx len code)) = code := by
  rw [fieldOp, fieldIdx, fieldLen, fieldRsvT, fieldCode, encode]
  refine ⟨?_, ?_, ?_, ?_, ?_⟩
  case refine_1 =>
    repeat rw [BitVec.extractLsb'_append_eq_of_le (by decide)]
    exact BitVec.extractLsb'_eq_self
  all_goals
    repeat rw [BitVec.extractLsb'_append_eq_of_le (by decide)]
    rw [BitVec.extractLsb'_append_eq_of_add_le (by decide)]
    exact BitVec.extractLsb'_eq_self

/-- Where format S places its fields. -/
theorem encode_sym_fields (byte : BitVec 8) :
    fieldOp (encode (.sym byte)) = 0x3#4 ∧ fieldRsvS (encode (.sym byte)) = 0#52 ∧
    fieldByte (encode (.sym byte)) = byte := by
  rw [fieldOp, fieldRsvS, fieldByte, encode]
  refine ⟨?_, ?_, BitVec.extractLsb'_append_eq_right⟩
  · rw [BitVec.extractLsb'_append_eq_of_le (by decide)]
    rfl
  · rw [BitVec.extractLsb'_append_eq_of_le (by decide)]
    rfl

/-! A word is made of its fields: one whose reserved field is 0 is the word of a command. -/

theorem formatN_word {w : CmdWord} {op : BitVec 4} (hop : fieldOp w = op) (hrsv : fieldRsvN w = 0) :
    op ++ 0#60 = w := by
  have hsplit : fieldOp w ++ fieldRsvN w = w := BitVec.extractLsb'_append_extractLsb'
  rwa [hop, hrsv] at hsplit

theorem formatT_word {w : CmdWord} (hop : fieldOp w = 1) (hrsv : fieldRsvT w = 0) :
    encode (.tblw (fieldIdx w) (fieldLen w) (fieldCode w)) = w := by
  have hsplit : fieldOp w ++ fieldIdx w ++ fieldLen w ++ fieldRsvT w ++ fieldCode w = w := by
    rw [fieldOp, fieldIdx, fieldLen, fieldRsvT, fieldCode]
    repeat rw [BitVec.extractLsb'_append_extractLsb'_eq_extractLsb' (by decide)]
    exact BitVec.extractLsb'_eq_self
  rwa [hop, hrsv] at hsplit

theorem formatS_word {w : CmdWord} (hop : fieldOp w = 3) (hrsv : fieldRsvS w = 0) :
    encode (.sym (fieldByte w)) = w := by
  have hsplit : fieldOp w ++ fieldRsvS w ++ fieldByte w = w := by
    rw [fieldOp, fieldRsvS, fieldByte]
    repeat rw [BitVec.extractLsb'_append_extractLsb'_eq_extractLsb' (by decide)]
    exact BitVec.extractLsb'_eq_self
  rwa [hop, hrsv] at hsplit

/-! The decoder (R61). Each format checks its reserved field and answers its command. -/

theorem checked_outcome (p : Prop) [Decidable p] (i : Instr) (r : Illegal) :
    if p then (if p then Decoded.cmd i else .illegal r) = .cmd i
    else ∃ why, (if p then Decoded.cmd i else .illegal r) = .illegal why := by
  split
  · rfl
  · exact ⟨r, rfl⟩

theorem checked_cmd {p : Prop} [Decidable p] {i j : Instr} {r : Illegal}
    (h : (if p then Decoded.cmd i else .illegal r) = .cmd j) : p ∧ i = j := by
  split at h
  · exact ⟨‹p›, Decoded.cmd.inj h⟩
  · cases h

theorem decode_reserved {w : CmdWord} (h : 6 ≤ (fieldOp w).toNat) : decode w = .illegal .reservedOpcode := by
  unfold decode
  split
  case h_7 => rfl
  all_goals omega

/-- The decoder inverts the encoder. -/
theorem decode_encode (i : Instr) : decode (encode i) = .cmd i := by
  cases i with
  | tblw idx len code =>
    obtain ⟨hop, hidx, hlen, hrsv, hcode⟩ := encode_tblw_fields idx len code
    have hword : decode (encode (.tblw idx len code)) = decodeT (encode (.tblw idx len code)) := by
      rw [decode, hop]
      rfl
    rw [hword, decodeT, hidx, hlen, hcode]
    exact if_pos hrsv
  | sym byte =>
    obtain ⟨hop, hrsv, hbyte⟩ := encode_sym_fields byte
    have hword : decode (encode (.sym byte)) = decodeS (encode (.sym byte)) := by
      rw [decode, hop]
      rfl
    rw [hword, decodeS, hbyte]
    exact if_pos hrsv
  | _ => decide

/-- A word that decodes to a command is that command's own word. -/
theorem encode_of_decode {w : CmdWord} {i : Instr} (h : decode w = .cmd i) : encode i = w := by
  unfold decode at h
  split at h
  case h_2 hop =>
    obtain ⟨hrsv, rfl⟩ := checked_cmd h
    exact formatT_word (BitVec.eq_of_toNat_eq hop) hrsv
  case h_4 hop =>
    obtain ⟨hrsv, rfl⟩ := checked_cmd h
    exact formatS_word (BitVec.eq_of_toNat_eq hop) hrsv
  case h_7 => cases h
  all_goals
    rename_i hop
    obtain ⟨hrsv, rfl⟩ := checked_cmd h
    exact formatN_word (BitVec.eq_of_toNat_eq hop) hrsv

/-! The opcode map (R60). -/

/-- A word that selects a row has the row's own value in every field that the mask covers. -/
theorem selects_field {r : OpRow} {w : CmdWord} (h : r.selects w = true) {lo len : Nat}
    (hmask : r.mask.extractLsb' lo len = BitVec.allOnes len) :
    w.extractLsb' lo len = r.pattern.extractLsb' lo len := by
  rw [← beq_iff_eq.mp h, BitVec.extractLsb'_and, hmask, BitVec.and_allOnes]

/-- A word that selects a row whose mask covers all of it is the row's pattern. -/
theorem pattern_eq_of_selects {r : OpRow} {w : CmdWord} (h : r.selects w = true)
    (hmask : r.mask = BitVec.allOnes 64) : r.pattern = w := by
  rw [← beq_iff_eq.mp h, hmask, BitVec.and_allOnes]

/-- A word that selects a row is the word of a command with the row's mnemonic. -/
theorem encode_of_selects {r : OpRow} (hr : r ∈ opcodeMap) {w : CmdWord} (h : r.selects w = true) :
    ∃ i, encode i = w ∧ mnemonicOf i = r.mnemonic := by
  simp only [opcodeMap, List.mem_cons, List.not_mem_nil, or_false] at hr
  obtain rfl | rfl | rfl | rfl | rfl | rfl := hr
  · exact ⟨.nop, (pattern_eq_of_selects h rfl :), rfl⟩
  · exact ⟨_, formatT_word (selects_field h (by decide)) (selects_field h (by decide)), rfl⟩
  · exact ⟨.start, (pattern_eq_of_selects h rfl :), rfl⟩
  · exact ⟨_, formatS_word (selects_field h (by decide)) (selects_field h (by decide)), rfl⟩
  · exact ⟨.fin, (pattern_eq_of_selects h rfl :), rfl⟩
  · exact ⟨.clr, (pattern_eq_of_selects h rfl :), rfl⟩

/-- The word of a command selects the row that has its mnemonic. -/
theorem encode_selects (i : Instr) : Laws.Row.Statement i := by
  cases i with
  | nop => exact Laws.Row.nop
  | tblw idx len code => exact Laws.Row.tblw idx len code
  | start => exact Laws.Row.start
  | sym byte => exact Laws.Row.sym byte
  | fin => exact Laws.Row.fin
  | clr => exact Laws.Row.clr

/-- No two rows have the same mnemonic. -/
theorem opcodeMap_mnemonic_inj : ∀ r ∈ opcodeMap, ∀ r' ∈ opcodeMap, r.mnemonic = r'.mnemonic → r = r' := by
  decide

/-! The assembler's lines (R64, R65). -/

theorem assemble_of_wf {l : AsmLine} (h : l.wf = true) : assemble l = some (l.commands.map encode) := if_pos h

theorem assemble_of_not_wf {l : AsmLine} (h : ¬ l.wf = true) : assemble l = none := if_neg h

theorem wf_tblw_iff (idx len code : Nat) :
    (AsmLine.tblw idx len code).wf = true ↔ idx < 256 ∧ len < 64 ∧ code < 2 ^ 32 := by
  simp [AsmLine.wf, wfByte, wfLen, wfCode, and_assoc]

theorem wf_sym_iff (byte : Nat) : (AsmLine.sym byte).wf = true ↔ byte < 256 := by
  simp [AsmLine.wf, wfByte]

theorem wf_encodeCall_iff (bytes : List Nat) : (AsmLine.encodeCall bytes).wf = true ↔ ∀ b ∈ bytes, b < 256 := by
  simp [AsmLine.wf, wfByte]

theorem wf_newTable_iff (lens codes : List Nat) : (AsmLine.newTable lens codes).wf = true ↔
    lens.length = 256 ∧ codes.length = 256 ∧ (∀ l ∈ lens, l < 64) ∧ ∀ c ∈ codes, c < 2 ^ 32 := by
  simp [AsmLine.wf, wfLen, wfCode, and_assoc]

/-- `new` gives the entry of each pair of a length and a code, by its index. -/
theorem newTableCommands_eq (i : Nat) (lens codes : List Nat) :
    newTableCommands i lens codes = (lens.zip codes).mapIdx fun k p =>
      .tblw (BitVec.ofNat 8 (i + k)) (BitVec.ofNat 6 p.1) (BitVec.ofNat 32 p.2) := by
  induction lens generalizing i codes with
  | nil => rfl
  | cons l ls ih =>
    cases codes with
    | nil => rfl
    | cons c cs => simp [newTableCommands, ih, Nat.add_comm, Nat.add_left_comm]

theorem newTableCommands_getElem? {lens codes : List Nat} {k : Nat} (hl : k < lens.length)
    (hc : k < codes.length) : (newTableCommands 0 lens codes)[k]? = some
      (.tblw (BitVec.ofNat 8 k) (BitVec.ofNat 6 (lens.getD k 0)) (BitVec.ofNat 32 (codes.getD k 0))) := by
  simp [newTableCommands_eq, hl, hc]

end Sys2Proof.Machine
end

section
/-! SUPPORT. How the assembler reads a whole line of text (R64): its comment and outer blanks off, its mnemonic
up to the first blank, its operands after it. -/

namespace Sys2Proof.Machine

/-- A comment, or none, leaves nothing. -/
theorem stripComment_comment {comment : List Char} (h : comment = [] ∨ ∃ rest, comment = ';' :: rest) :
    stripComment comment = [] := by
  obtain rfl | ⟨rest, rfl⟩ := h
  · rfl
  · rfl

/-- A line of blanks, or with nothing but a comment, gives no word. -/
theorem assembleLine_empty {gap comment : List Char} (hg : ∀ c ∈ gap, isBlank c = true)
    (hc : stripComment comment = []) : assembleLine (gap ++ comment) = some [] := by
  have htext : trimBlanks (stripComment (gap ++ comment)) = [] := by
    rw [stripComment_piece (isPiece_blanks hg), hc, trimBlanks, dropWhile_blanks hg (by simp)]
    rfl
  simp [assembleLine, htext]

/-- A text without blanks is parted at the blank that follows it. -/
theorem span_word {m rest : List Char} (hm : ∀ c ∈ m, isBlank c = false)
    (hrest : ∀ c, rest.head? = some c → isBlank c = true) :
    (m ++ rest).takeWhile (fun c => !isBlank c) = m ∧ (m ++ rest).dropWhile (fun c => !isBlank c) = rest := by
  have hpos : ∀ c ∈ m, (!isBlank c) = true := fun c hc => by simp [hm c hc]
  rw [List.takeWhile_append_of_pos hpos, List.dropWhile_append_of_pos hpos]
  cases rest with
  | nil => simp
  | cons c rest => simp [hrest c rfl]

/-- A line whose text is a mnemonic and operands assembles to what the line they make does. -/
theorem assembleLine_text {line m rest : List Char} {ns : List Nat} {l : AsmLine}
    (htext : trimBlanks (stripComment line) = m ++ rest) (hne : m ≠ []) (hm : ∀ c ∈ m, isBlank c = false)
    (hrest : ∀ c, rest.head? = some c → isBlank c = true) (hread : readOperands rest = some ns)
    (hbuild : buildLine m ns = some l) : assembleLine line = assemble l := by
  obtain ⟨htake, hdrop⟩ := span_word hm hrest
  simp [assembleLine, htext, hne, htake, hdrop, hread, hbuild]

/-- The operands of a line, but for the blanks after the last: after an unblank text they end with no blank, the
first character of theirs is a blank, and they are read for their numbers. -/
theorem operands_text {ops : List OperandText} {ns : List Nat} (h : List.Forall₂ OperandText.Reads ops ns)
    (hgap : ∀ o, ops.head? = some o → o.before ≠ []) :
    ∃ rest after, operandChars ops = rest ++ after ∧ (∀ c ∈ after, isBlank c = true) ∧
      (∀ m, Unblank m → Unblank (m ++ rest)) ∧ (∀ c, rest.head? = some c → isBlank c = true) ∧
      readOperands rest = some ns := by
  cases h with
  | nil => exact ⟨[], [], rfl, by simp, fun m hm => by rwa [List.append_nil], by simp, rfl⟩
  | @cons o n os ns ho hos =>
    obtain ⟨text, after, hchars, hafter, hunb, hsplit⟩ := operands_trimmed ho hos
    refine ⟨o.before ++ text, after, hchars, hafter, fun m hm => ?_, fun c hc => ?_, ?_⟩
    · rw [← List.append_assoc]
      exact hm.append hunb o.before
    · rw [List.head?_append_of_ne_nil _ (hgap o rfl)] at hc
      exact ho.before c (List.mem_of_mem_head? hc)
    · rw [readOperands_trimmed ho.before hunb]
      exact hsplit [] (by simp)

/-- A line's text is its mnemonic and its operands, whatever blanks and comment stand around them. -/
theorem trimBlanks_line {lead m rest after trail comment : List Char} {ops : List OperandText} {ns : List Nat}
    (hlead : ∀ c ∈ lead, isBlank c = true) (hm : IsPiece m) (hops : List.Forall₂ OperandText.Reads ops ns)
    (hchars : operandChars ops = rest ++ after) (hunb : Unblank (m ++ rest))
    (hafter : ∀ c ∈ after, isBlank c = true) (htrail : ∀ c ∈ trail, isBlank c = true)
    (hcomment : stripComment comment = []) :
    trimBlanks (stripComment (lead ++ m ++ operandChars ops ++ trail ++ comment)) = m ++ rest := by
  have hstrip : stripComment (lead ++ m ++ operandChars ops ++ trail ++ comment) =
      lead ++ (m ++ rest) ++ (after ++ trail) := by
    simp only [List.append_assoc]
    rw [stripComment_piece (isPiece_blanks hlead), stripComment_piece hm, stripComment_operands hops,
      stripComment_piece (isPiece_blanks htrail), hcomment, hchars]
    simp
  rw [hstrip]
  exact trimBlanks_around hlead (fun c hc => (List.mem_append.mp hc).elim (hafter c) (htrail c)) hunb

end Sys2Proof.Machine
end

section
/-! The statements about the encoding and the assembler (spec/30_encoding.md), settled. -/

namespace Sys2Proof.Machine

/-- Settles O3: a word that decodes to a command is that command's own word (`encode_of_decode`), a word that
selects a row is the word of a command with its mnemonic (`encode_of_selects`), and no two rows share one. -/
theorem opcodeMapSelectsMnemonic : Obligations.OpcodeMapSelectsMnemonic := by
  intro w
  have hdecoded : ∀ i, decode w = .cmd i → ∃ r ∈ opcodeMap, r.selects w = true ∧ r.mnemonic = mnemonicOf i := by
    intro i hi
    obtain ⟨r, hr, hm, hs⟩ := encode_selects i
    exact ⟨r, hr, encode_of_decode hi ▸ hs, hm⟩
  have hselected : ∀ r ∈ opcodeMap, r.selects w = true → ∃ i, decode w = .cmd i ∧ mnemonicOf i = r.mnemonic := by
    intro r hr hs
    obtain ⟨i, rfl, hm⟩ := encode_of_selects hr hs
    exact ⟨i, decode_encode i, hm⟩
  refine ⟨hdecoded, hselected, fun r hr r' hr' hs hs' => ?_, fun hnone => ?_⟩
  · obtain ⟨i, hi, hm⟩ := hselected r hr hs
    obtain ⟨i', hi', hm'⟩ := hselected r' hr' hs'
    cases hi.symm.trans hi'
    exact opcodeMap_mnemonic_inj r hr r' hr' (hm.symm.trans hm')
  · cases hd : decode w with
    | cmd i =>
      obtain ⟨r, hr, hs, -⟩ := hdecoded i hd
      exact absurd (hs.symm.trans (hnone r hr)) (by decide)
    | illegal why => exact ⟨why, rfl⟩

/-- Settles O8: a line in range gives the words of its commands (`assemble_of_wf`), any other none
(`assemble_of_not_wf`); `new` gives the command of each index (`newTableCommands_getElem?`). -/
theorem pseudoInstructionsExpand : Obligations.PseudoInstructionsExpand := by
  refine ⟨⟨rfl, rfl, rfl, rfl⟩, fun idx len code => ⟨fun h => ?_, fun h => ?_⟩,
    fun byte => ⟨fun h => ?_, fun h => ?_⟩, fun bytes => ⟨fun h => ?_, fun h => ?_⟩,
    fun lens codes => ⟨fun hlens hcodes hl hc => ?_, fun h => ?_⟩⟩
  · exact assemble_of_wf ((wf_tblw_iff idx len code).mpr h)
  · exact assemble_of_not_wf (mt (wf_tblw_iff idx len code).mp (by omega))
  · exact assemble_of_wf ((wf_sym_iff byte).mpr h)
  · exact assemble_of_not_wf (mt (wf_sym_iff byte).mp (by omega))
  · rw [assemble_of_wf ((wf_encodeCall_iff bytes).mpr h)]
    simp [AsmLine.commands, callCommands]
  · obtain ⟨b, hb, hbig⟩ := h
    exact assemble_of_not_wf fun hwf => absurd ((wf_encodeCall_iff bytes).mp hwf b hb) (by omega)
  · refine ⟨_, assemble_of_wf ((wf_newTable_iff lens codes).mpr ⟨hlens, hcodes, hl, hc⟩), ?_, fun i hi => ?_⟩
    · simp [AsmLine.commands, newTableCommands_eq, hlens, hcodes]
    · rw [List.getElem?_map, AsmLine.commands, newTableCommands_getElem? (by omega) (by omega)]
      rfl
  · refine assemble_of_not_wf fun hwf => ?_
    obtain ⟨hlens, hcodes, hl, hc⟩ := (wf_newTable_iff lens codes).mp hwf
    obtain h | h | ⟨l, hmem, h⟩ | ⟨c, hmem, h⟩ := h
    · exact h hlens
    · exact h hcodes
    · exact absurd (hl l hmem) (by omega)
    · exact absurd (hc c hmem) (by omega)

/-- Settles O54: comment and outer blanks come off (`trimBlanks_line`), and what is left is parted into the
mnemonic and the operands' numbers (`operands_text`), which make the line (`buildLine_self`). -/
theorem assemblerReadsText : Obligations.AssemblerReadsText := by
  intro lead trail comment hblank hcomment
  have hlead : ∀ c ∈ lead, isBlank c = true := fun c hc => hblank c (List.mem_append_left _ hc)
  have htrail : ∀ c ∈ trail, isBlank c = true := fun c hc => hblank c (List.mem_append_right _ hc)
  have hstrip := stripComment_comment hcomment
  refine ⟨assembleLine_empty hlead hstrip, fun l ops hlen hspell hgaps hfirst hnew => ?_⟩
  obtain ⟨hne, hplain⟩ := mnemonic_plain l
  obtain ⟨hpiece, hunb⟩ := piece_of_plain hne hplain
  have hword : ∀ c ∈ lineMnemonic l, isBlank c = false := fun c hc =>
    have ⟨_, _, _, hb⟩ := hplain c hc
    hb
  have hops := operands_read hlen hspell hgaps
  obtain ⟨rest, after, hchars, hafter, happend, hhead, hread⟩ := operands_text hops hfirst
  exact assembleLine_text (trimBlanks_line hlead hpiece hops hchars (happend _ hunb) hafter htrail hstrip) hne
    hword hhead hread (buildLine_self l hnew)

/-- Settles O4: the two formats with operands (`encode_tblw_fields`, `encode_sym_fields`); the words of format N
are numbers. -/
theorem formatsPlaceFields : Obligations.FormatsPlaceFields :=
  ⟨by decide, by decide, by decide, by decide, encode_tblw_fields, encode_sym_fields⟩

/-- Settles O5: each opcode leads to its format's check of the reserved field (`checked_outcome`), and an illegal word
raises outside FAULT (`execIllegal_raise`). -/
theorem decodesByFields : Obligations.DecodesByFields := by
  intro w
  refine ⟨fun hop => ?_, fun hop => ?_, fun hop => ?_, fun hop => ?_, fun hop => ?_, fun hop => ?_,
    fun hop => ⟨_, decode_reserved hop⟩, fun why s hd => ?_⟩
  case refine_7 =>
    rw [performWord_illegal hd]
    exact ⟨fun hs => execIllegal_raise hs w, fun hs => execIllegal_fault hs w⟩
  all_goals
    rw [decode, fieldOp, hop]
    exact checked_outcome ..

end Sys2Proof.Machine
end

section
/-! SUPPORT. What TBLW does past R93 (R68, R69), and what performing an illegal word does (R61, R92). -/

namespace Sys2Proof.Machine

/-! Illegal words. -/

/-- An illegal word raises `E_ILL`, and in FAULT it is ignored. -/
theorem performWord_illegal_effect {w : CmdWord} {why : Illegal} (h : decode w = .illegal why) (s : State) :
    (s.state ≠ .fault → performWord w s = .next (raise .ill w s)) ∧
    (s.state = .fault → performWord w s = .next s) := by
  rw [performWord_illegal h]
  exact ⟨fun hs => execIllegal_raise hs w, fun hs => execIllegal_fault hs w⟩

theorem decode_formatT_reserved {w : CmdWord} (hop : fieldOp w = 1) (hrsv : fieldRsvT w ≠ 0) :
    decode w = .illegal .reservedBits := by
  rw [decode, hop]
  exact if_neg hrsv

/-! TBLW in IDLE and DONE. -/

/-- TBLW's check finds a fault just where R69 has one. -/
theorem tblwFault_eq_code_iff {len : BitVec 6} {code : BitVec 32} {s : State} :
    tblwFault len code s = some .code ↔
      s.cfg.strictCode = true ∧ len.toNat < 32 ∧ 2 ^ len.toNat ≤ code.toNat := by
  rw [← codeTooWide_iff]
  obtain ⟨hf, hwide⟩ | ⟨hf, hfits⟩ := tblwFault_cases len code s
  · exact iff_of_true hf hwide
  · exact iff_of_false (by simp [hf]) hfits

theorem tblwFault_eq_none_iff {len : BitVec 6} {code : BitVec 32} {s : State} :
    tblwFault len code s = none ↔
      ¬ (s.cfg.strictCode = true ∧ len.toNat < 32 ∧ 2 ^ len.toNat ≤ code.toNat) := by
  rw [← tblwFault_eq_code_iff]
  obtain ⟨hf, -⟩ | ⟨hf, -⟩ := tblwFault_cases len code s <;> simp [hf]

theorem exec_tblw_raises {s : State} (hs : s.state = .idle ∨ s.state = .done) {idx : Byte} {len : BitVec 6}
    {code : BitVec 32} (hf : tblwFault len code s = some .code) :
    exec (.tblw idx len code) s = .next (raise .code (encode (.tblw idx len code)) s) := by
  rw [exec_tblw_legal hs, hf, orRaise_some]

theorem exec_tblw_writes {s : State} (hs : s.state = .idle ∨ s.state = .done) {idx : Byte} {len : BitVec 6}
    {code : BitVec 32} (hf : tblwFault len code s = none) :
    exec (.tblw idx len code) s = .next (setTbl idx ⟨len, code⟩ s) := by
  rw [exec_tblw_legal hs, hf, orRaise_none]

/-- The entry written reads back as given. -/
theorem tblEntry_setTbl_same (idx : Byte) (e : TblEntry) (s : State) : tblEntry (setTbl idx e s) idx = some e := by
  rw [tblEntry_setTbl, if_pos rfl]

/-- Every other entry reads as before. -/
theorem tblEntry_setTbl_ne {idx j : Byte} (h : j ≠ idx) (e : TblEntry) (s : State) :
    tblEntry (setTbl idx e s) j = tblEntry s j := by
  rw [tblEntry_setTbl, if_neg h]

end Sys2Proof.Machine
end

section
/-! The statement about table construction (spec/40_construction.md), settled. -/

namespace Sys2Proof.Machine

/-- Settles O32: in IDLE and DONE the check of R69 decides between `E_CODE` (`exec_tblw_raises`) and the write
(`exec_tblw_writes`), which moves one entry and nothing else; the other states are R93's, and a reserved bit makes the
word illegal (`decode_formatT_reserved`). -/
theorem tblwWritesEntry : Obligations.TblwWritesEntry := by
  refine fun s idx len code => ⟨fun hs => ⟨fun hwide => ?raises, fun hfits => ?writes⟩, fun hs => ?active,
    fun hs => ?fault, fun w hop hrsv => ?reserved⟩
  case raises => exact exec_tblw_raises hs (tblwFault_eq_code_iff.mpr hwide)
  case writes =>
    exact ⟨setTbl idx ⟨len, code⟩ s, exec_tblw_writes hs (tblwFault_eq_none_iff.mpr hfits),
      tblEntry_setTbl_same .., fun j hj => tblEntry_setTbl_ne hj .., rfl⟩
  case active => exact exec_errSeq (by rw [hs]; rfl)
  case fault => exact exec_ignored hs Instr.noConfusion
  case reserved => exact performWord_illegal_effect (decode_formatT_reserved hop hrsv) s

end Sys2Proof.Machine
end

section
/-! SUPPORT. The datapath's one append (R77 to R79): SYM and FIN both put a word behind the stream, its whole octets
into OUT and its residual into ACC. -/

namespace Sys2Proof.Machine

/-- The `n`-bit word `w`, whose high bits are the pending ones, takes their place: its whole octets go out and its
residual is pending. -/
def appendWord (w n : Nat) (s : State) : State :=
  { emitAll (octets w n) s with acc := residual w n, nbits := BitVec.ofNat 3 (n % 8) }

/-- The word that FIN completes: the pending bits, and ones up to an octet (R81). -/
def finWord (s : State) : Nat := shifterWord s.acc.toNat (padCount s.nbits) (mask (padCount s.nbits))

/-- SYM appends the shifter's word, and counts its bits. -/
theorem appendCode_eq_appendWord (len m : Nat) (s : State) : appendCode len m s =
    { appendWord (shifterWord s.acc.toNat len m) (s.nbits.toNat + len) s with
      total := BitVec.ofNat 32 (s.total.toNat + len) } := rfl

theorem mask_lt (n : Nat) : mask n < 2 ^ n := Nat.sub_lt (Nat.two_pow_pos n) Nat.one_pos

/-- The pending bits and the padding make no octet, or one. -/
theorem nbits_add_padCount (n : BitVec 3) :
    (padCount n = 0 ∧ n = 0) ∨ (padCount n ≠ 0 ∧ n.toNat + padCount n = 8) := by
  have := n.isLt
  by_cases h : padCount n = 0
  · exact .inl ⟨h, (padCount_eq_zero n).mp h⟩
  · exact .inr ⟨h, by rw [padCount] at h ⊢; omega⟩

/-- The octets of FIN's word are the bytes it emits. -/
theorem octets_finWord (s : State) : octets (finWord s) (s.nbits.toNat + padCount s.nbits) = finBytes s := by
  obtain ⟨hp, hn⟩ | ⟨hp, hsum⟩ := nbits_add_padCount s.nbits
  · rw [finBytes, if_pos hp, hp, hn]
    rfl
  · rw [finBytes, if_neg hp, hsum]
    rfl

/-- FIN appends its word, which leaves nothing pending, and closes the call. -/
theorem closeCall_eq_appendWord (s : State) : closeCall s =
    { appendWord (finWord s) (s.nbits.toNat + padCount s.nbits) s with
      pad := BitVec.ofNat 3 (padCount s.nbits), state := .done } := by
  have hmod : (s.nbits.toNat + padCount s.nbits) % 8 = 0 := by
    have := finBytes_bits s
    omega
  have hacc : residual (finWord s) (s.nbits.toNat + padCount s.nbits) = 0 := by
    apply BitVec.eq_of_toNat_eq
    rw [residual_toNat, hmod, Nat.pow_zero, Nat.mod_one]
    rfl
  rw [closeCall_frame, closeCall_out_eq, closeCall_outLen_eq, emitAll_frame, appendWord, octets_finWord, hacc, hmod]
  apply State.ext <;> simp

/-- The stream after an append: the bytes that stood there, then the word (R32). -/
theorem stream_appendWord {w n : Nat} {s : State} (h : s.outLen.toNat + n / 8 < 2 ^ 32) :
    stream (appendWord w n s) = byteBits (outBytes s) ++ bitsOf n w := by
  have hout : outBytes (appendWord w n s) = outBytes s ++ octets w n :=
    outBytes_emitAll _ s (by rwa [octets_length])
  have hn : (appendWord w n s).nbits.toNat = n % 8 := by
    change n % 8 % 2 ^ 3 = n % 8
    omega
  have hacc : (appendWord w n s).acc.toNat = w % 2 ^ (n % 8) := residual_toNat w n
  rw [stream, hout, hn, hacc, bitsOf_mod, byteBits_append, List.append_assoc, byteBits_octets]

/-! The bit-serial form (R79). -/

/-- A state whose pending bits fit is itself after the append of just those. -/
theorem appendWord_pending {s : State} (h : s.acc.toNat < 2 ^ s.nbits.toNat) :
    appendWord s.acc.toNat s.nbits.toNat s = s := by
  have hn := s.nbits.isLt
  have hmod : s.nbits.toNat % 8 = s.nbits.toNat := Nat.mod_eq_of_lt hn
  have hacc : residual s.acc.toNat s.nbits.toNat = s.acc := by
    apply BitVec.eq_of_toNat_eq
    rw [residual_toNat, hmod, Nat.mod_eq_of_lt h]
  have hoct : octets s.acc.toNat s.nbits.toNat = [] := by
    rw [octets, Nat.div_eq_of_lt hn]
    rfl
  rw [appendWord, hoct, hacc, hmod, BitVec.ofNat_toNat, BitVec.setWidth_eq]
  rfl

/-- The residual of a word with one more bit that completes no octet. -/
theorem residual_snoc {w n : Nat} (b : Bool) (h : n % 8 ≠ 7) :
    residual (2 * w + b.toNat) (n + 1) = BitVec.ofNat 7 (2 * (w % 2 ^ (n % 8)) + b.toNat) := by
  have hlow : (2 * w + b.toNat) % 2 ^ (n % 8 + 1) = 2 * (w % 2 ^ (n % 8)) + b.toNat := by
    have hb := b.toNat_lt
    rw [Nat.pow_succ', Nat.mod_mul, show (2 * w + b.toNat) / 2 = w by omega]
    omega
  rw [residual, slice, Nat.pow_zero, Nat.div_one, show (n + 1) % 8 = n % 8 + 1 by omega, hlow]

/-- One more bit pushed is one more bit at the word's low end. -/
theorem pushBit_appendWord (b : Bool) (w n : Nat) (s : State) :
    pushBit b (appendWord w n s) = appendWord (2 * w + b.toNat) (n + 1) s := by
  have hacc : (appendWord w n s).acc.toNat = w % 2 ^ (n % 8) := residual_toNat w n
  have hnbits : (appendWord w n s).nbits = BitVec.ofNat 3 (n % 8) := rfl
  have hseven : BitVec.ofNat 3 (n % 8) = 7 ↔ n % 8 = 7 := by
    rw [← BitVec.toNat_inj, BitVec.toNat_ofNat]
    simp
  rw [pushBit, hacc, hnbits]
  by_cases h : n % 8 = 7
  · have hres : residual (2 * w + b.toNat) (n + 1) = 0 := by
      apply BitVec.eq_of_toNat_eq
      rw [residual_toNat, show (n + 1) % 8 = 0 by omega, Nat.pow_zero, Nat.mod_one]
      rfl
    rw [if_pos (hseven.mpr h), h, appendWord, appendWord, octets_snoc, if_pos h, emitAll_append, hres,
      show (n + 1) % 8 = 0 by omega]
    rfl
  · rw [if_neg (mt hseven.mp h), appendWord, appendWord, octets_snoc, if_neg h, residual_snoc b h,
      show (n + 1) % 8 = n % 8 + 1 by omega, BitVec.ofNat_add (n % 8) 1]
    rfl

/-- So the bits pushed one by one are a word's low bits. -/
theorem pushBits_appendWord (bs : List Bool) (w n : Nat) (s : State) :
    pushBits bs (appendWord w n s) = appendWord (w * 2 ^ bs.length + valOf bs) (n + bs.length) s := by
  induction bs generalizing w n with
  | nil => simp [pushBits, valOf]
  | cons b bs ih =>
    rw [pushBits, pushBit_appendWord, ih, valOf_cons, List.length_cons]
    congr 1
    · ring
    · omega

theorem pushBits_bitsOf {s : State} (h : s.acc.toNat < 2 ^ s.nbits.toNat) {len m : Nat} (hm : m < 2 ^ len) :
    pushBits (bitsOf len m) s = appendWord (shifterWord s.acc.toNat len m) (s.nbits.toNat + len) s := by
  conv_lhs => rw [← appendWord_pending h]
  rw [pushBits_appendWord, bitsOf_length, valOf_bitsOf, Nat.mod_eq_of_lt hm, shifterWord_eq _ hm]

/-- R79 for SYM. -/
theorem serialAppend_eq_appendCode {s : State} (h : s.acc.toNat < 2 ^ s.nbits.toNat) {len m : Nat}
    (hm : m < 2 ^ len) : serialAppend len m s = appendCode len m s := by
  rw [serialAppend, pushBits_bitsOf h hm, appendCode_eq_appendWord]

/-- R79 for FIN. -/
theorem serialClose_eq_closeCall {s : State} (h : s.acc.toNat < 2 ^ s.nbits.toNat) :
    serialClose s = closeCall s := by
  rw [serialClose, ← bitsOf_mask, pushBits_bitsOf h (mask_lt _), closeCall_eq_appendWord, finWord]

end Sys2Proof.Machine
end

section
/-! SUPPORT. What R118 observes after each operation is a function of what it observed before, of ACC and of NBITS. -/

namespace Sys2Proof.Machine

/-! The extra mask bit, case by case (R77, R80). -/

theorem applyExtraBit_pending {s : State} (hn : s.nbits ≠ 0) :
    applyExtraBit true s = .next { s with acc := s.acc ||| 1 } := by
  rw [applyExtraBit, if_neg Bool.noConfusion, if_pos hn]

theorem applyExtraBit_emitted {s : State} (hn : s.nbits = 0) (ho : s.outLen ≠ 0) :
    applyExtraBit true s = .next (setOut (s.outLen.toNat - 1) (outByte s (s.outLen.toNat - 1) ||| 1) s) := by
  rw [applyExtraBit, if_neg Bool.noConfusion, if_neg (not_not.mpr hn), if_neg ho]

theorem applyExtraBit_missing {s : State} (hn : s.nbits = 0) (ho : s.outLen = 0) :
    applyExtraBit true s = .fault .outIndexMissing := by
  rw [applyExtraBit, if_neg Bool.noConfusion, if_neg (not_not.mpr hn), if_pos ho]

/-! What past the checks does not wrap. -/

/-- A SYM past its checks does not wrap OUT_LEN, whatever the extra mask bit has done (R96). -/
theorem symFault_none_no_wrap {e : TblEntry} {x : Bool} {s s1 : State} (hf : symFault e s = none)
    (hx : applyExtraBit x s = .next s1) : s1.outLen.toNat + (s1.nbits.toNat + e.len.toNat) / 8 < 2 ^ 32 := by
  have hcap := s.cfg.outCap.isLt
  have hfit := symFault_none_fits hf
  rw [applyExtraBit_frame hx]
  change s.outLen.toNat + (s.nbits.toNat + e.len.toNat) / 8 < 2 ^ 32
  omega

/-- Nor does a FIN past its check. -/
theorem finFault_none_no_wrap {s : State} (hf : finFault s = none) :
    s.outLen.toNat + (s.nbits.toNat + padCount s.nbits) / 8 < 2 ^ 32 := by
  have hcap := s.cfg.outCap.isLt
  have hlen := s.outLen.isLt
  obtain ⟨hp, hn⟩ | ⟨hp, hsum⟩ := nbits_add_padCount s.nbits
  · rw [hp, hn]
    exact hlen
  · have hfit := finFault_none_fits hf (mt (padCount_eq_zero _).mpr hp)
    rw [hsum]
    omega

/-! The observation of each operation. -/

theorem observe_raise (e : ErrCode) (w : CmdWord) (s : State) : observe (raise e w s) =
    { observe s with state := .fault, err := errBits e, errcmd := w, faulted := true } := by
  rfl

theorem observe_clearToIdle (s : State) : observe (clearToIdle s) =
    { observe s with state := .idle, err := 0, errcmd := 0, total := 0, pad := 0, outLen := 0, bytes := [] } := by
  rfl

theorem observe_openCall (s : State) : observe (openCall s) =
    { observe s with state := .active, total := 0, pad := 0, outLen := 0, bytes := [] } := by
  rfl

theorem observe_setTbl (idx : Byte) (e : TblEntry) (s : State) : observe (setTbl idx e s) =
    { observe s with entries := (observe s).entries.set idx.toNat (some e) } := by
  have hentries : (List.range 256).map (cellRead (setTbl idx e s).tbl) =
      ((List.range 256).map (cellRead s.tbl)).set idx.toNat (some e) := by
    apply List.ext_getElem
    · simp
    · intro k _ _
      simp [List.getElem_set, cellRead_cellWrite, eq_comm]
  exact congrArg (fun es => { observe s with entries := es }) hentries

theorem outBytes_setOut (k : Nat) (v : Byte) (s : State) : outBytes (setOut k v s) = (outBytes s).set k v := by
  apply List.ext_getElem
  · simp
  · intro j _ _
    simp [outBytes, List.getElem_set, outByte_setOut, eq_comm]

theorem observe_setOut (k : Nat) (v : Byte) (s : State) : observe (setOut k v s) =
    { observe s with bytes := (observe s).bytes.set k v } :=
  congrArg (fun bs => { observe s with bytes := bs }) (outBytes_setOut k v s)

theorem observe_appendWord {w n : Nat} {s : State} (h : s.outLen.toNat + n / 8 < 2 ^ 32) :
    observe (appendWord w n s) = { observe s with
      outLen := BitVec.ofNat 32 (s.outLen.toNat + n / 8), bytes := (observe s).bytes ++ octets w n } := by
  have hlen : (emitAll (octets w n) s).outLen = BitVec.ofNat 32 (s.outLen.toNat + n / 8) := by
    apply BitVec.eq_of_toNat_eq
    rw [emitAll_outLen _ _ (by rwa [octets_length]), octets_length, BitVec.toNat_ofNat, Nat.mod_eq_of_lt h]
  have hbytes : outBytes (appendWord w n s) = outBytes s ++ octets w n :=
    outBytes_emitAll _ s (by rwa [octets_length])
  simp only [observe, hbytes]
  simp [appendWord, hlen]

/-! What two states that look alike have in common. -/

namespace SameVisible

variable {s t : State} (h : SameVisible s t)

include h

theorem state_eq : s.state = t.state := congrArg Observation.state h.observation

theorem total_eq : s.total = t.total := congrArg Observation.total h.observation

theorem outLen_eq : s.outLen = t.outLen := congrArg Observation.outLen h.observation

theorem tblEntry_eq (b : Byte) : tblEntry s b = tblEntry t b := by
  have hentries := congrArg (fun o => o.entries[b.toNat]?) h.observation
  simpa [observe, tblEntry, List.getElem?_range b.isLt] using hentries

theorem outByte_eq {k : Nat} (hk : k < s.outLen.toNat) : outByte s k = outByte t k := by
  have hbytes := congrArg (fun o => o.bytes[k]?) h.observation
  simpa [observe, outBytes, List.getElem?_range hk, List.getElem?_range (h.outLen_eq ▸ hk)] using hbytes

theorem tblwFault_eq (len : BitVec 6) (code : BitVec 32) : tblwFault len code s = tblwFault len code t := by
  rw [tblwFault, tblwFault, h.cfg]

theorem symFault_eq (e : TblEntry) : symFault e s = symFault e t := by
  rw [symFault, symFault, bytesPassCap, bytesPassCap, h.cfg, h.nbits, h.total_eq, h.outLen_eq]

theorem finFault_eq : finFault s = finFault t := by
  rw [finFault, finFault, bytesPassCap, bytesPassCap, h.cfg, h.nbits, h.outLen_eq]

/-! Each operation keeps them alike. -/

theorem raise (e : ErrCode) (w : CmdWord) : SameVisible (raise e w s) (raise e w t) where
  observation := by rw [observe_raise, observe_raise, h.observation]
  acc := h.acc
  nbits := h.nbits
  cfg := h.cfg

theorem clearToIdle : SameVisible (clearToIdle s) (clearToIdle t) where
  observation := by rw [observe_clearToIdle, observe_clearToIdle, h.observation]
  acc := rfl
  nbits := rfl
  cfg := h.cfg

theorem openCall : SameVisible (openCall s) (openCall t) where
  observation := by rw [observe_openCall, observe_openCall, h.observation]
  acc := rfl
  nbits := rfl
  cfg := h.cfg

theorem setTbl (idx : Byte) (e : TblEntry) : SameVisible (setTbl idx e s) (setTbl idx e t) where
  observation := by rw [observe_setTbl, observe_setTbl, h.observation]
  acc := h.acc
  nbits := h.nbits
  cfg := h.cfg

theorem setOut (k : Nat) (v : Byte) : SameVisible (setOut k v s) (setOut k v t) where
  observation := by rw [observe_setOut, observe_setOut, h.observation]
  acc := h.acc
  nbits := h.nbits
  cfg := h.cfg

theorem appendWord {n : Nat} (hfit : s.outLen.toNat + n / 8 < 2 ^ 32) (w : Nat) :
    SameVisible (appendWord w n s) (appendWord w n t) where
  observation := by
    rw [observe_appendWord hfit, observe_appendWord (h.outLen_eq ▸ hfit), h.observation, h.outLen_eq]
  acc := rfl
  nbits := rfl
  cfg := by simpa [Machine.appendWord] using h.cfg

theorem appendCode {len : Nat} (hfit : s.outLen.toNat + (s.nbits.toNat + len) / 8 < 2 ^ 32) (m : Nat) :
    SameVisible (appendCode len m s) (appendCode len m t) := by
  have hw := h.appendWord hfit (shifterWord s.acc.toNat len m)
  rw [appendCode_eq_appendWord, appendCode_eq_appendWord, ← h.acc, ← h.nbits, ← h.total_eq]
  exact ⟨congrArg (fun o => { o with total := BitVec.ofNat 32 (s.total.toNat + len) }) hw.observation,
    hw.acc, hw.nbits, hw.cfg⟩

theorem closeCall (hf : finFault s = none) : SameVisible (closeCall s) (closeCall t) := by
  have hw := h.appendWord (finFault_none_no_wrap hf) (finWord s)
  have hword : finWord t = finWord s := by rw [finWord, finWord, h.acc, h.nbits]
  rw [closeCall_eq_appendWord, closeCall_eq_appendWord, hword, ← h.nbits]
  exact ⟨congrArg (fun o => { o with pad := BitVec.ofNat 3 (padCount s.nbits), state := .done }) hw.observation,
    hw.acc, hw.nbits, hw.cfg⟩

end SameVisible

/-! Two outcomes that look alike. -/

/-- Both answer a next state, and the two look alike; or both stop with one fault. -/
def SameOutcome (r q : Result) : Prop :=
  (∃ s' t', r = .next s' ∧ q = .next t' ∧ SameVisible s' t') ∨ ∃ f, r = .fault f ∧ q = .fault f

theorem SameVisible.next {s t : State} (h : SameVisible s t) : SameOutcome (.next s) (.next t) :=
  .inl ⟨s, t, rfl, rfl, h⟩

theorem sameOutcome_whenLegal {s t : State} (h : SameVisible s t) (i : Instr) {r q : Result}
    (hact : SameOutcome r q) : SameOutcome (whenLegal i s r) (whenLegal i t q) := by
  cases hl : legality i s.state with
  | ok => rwa [whenLegal_ok hl, whenLegal_ok (h.state_eq ▸ hl)]
  | errSeq =>
    rw [whenLegal_errSeq hl, whenLegal_errSeq (h.state_eq ▸ hl)]
    exact (h.raise ..).next
  | ignored =>
    rw [whenLegal_ignored hl, whenLegal_ignored (h.state_eq ▸ hl)]
    exact h.next

theorem sameOutcome_orRaise {s t : State} (h : SameVisible s t) (f : Option ErrCode) (i : Instr) {r q : Result}
    (hact : f = none → SameOutcome r q) : SameOutcome (orRaise f i s r) (orRaise f i t q) := by
  cases f with
  | none => exact hact rfl
  | some e => exact (h.raise ..).next

/-- The extra mask bit goes to a bit that is seen, or has nowhere to go in either state. -/
theorem sameOutcome_applyExtraBit {s t : State} (h : SameVisible s t) (x : Bool) :
    SameOutcome (applyExtraBit x s) (applyExtraBit x t) := by
  cases x with
  | false => exact h.next
  | true =>
    by_cases hn : s.nbits = 0
    · have hn' : t.nbits = 0 := h.nbits ▸ hn
      by_cases ho : s.outLen = 0
      · have ho' : t.outLen = 0 := h.outLen_eq ▸ ho
        rw [applyExtraBit_missing hn ho, applyExtraBit_missing hn' ho']
        exact .inr ⟨_, rfl, rfl⟩
      · have ho' : t.outLen ≠ 0 := h.outLen_eq ▸ ho
        have hpos : s.outLen.toNat ≠ 0 := fun hzero => ho (BitVec.eq_of_toNat_eq hzero)
        rw [applyExtraBit_emitted hn ho, applyExtraBit_emitted hn' ho', ← h.outLen_eq, ← h.outByte_eq (by omega)]
        exact (h.setOut ..).next
    · have hn' : t.nbits ≠ 0 := h.nbits ▸ hn
      rw [applyExtraBit_pending hn, applyExtraBit_pending hn']
      exact SameVisible.next ⟨h.observation, congrArg (· ||| 1) h.acc, h.nbits, h.cfg⟩

theorem sameOutcome_commitSym {s t : State} (h : SameVisible s t) {e : TblEntry} (hf : symFault e s = none) :
    SameOutcome (commitSym e s) (commitSym e t) := by
  rw [commitSym, commitSym, ← h.cfg]
  obtain ⟨s1, t1, hs1, ht1, h1⟩ | ⟨f, hs1, ht1⟩ := sameOutcome_applyExtraBit h (extraBit s.cfg e)
  · rw [hs1, ht1]
    exact (h1.appendCode (symFault_none_no_wrap hf hs1) _).next
  · rw [hs1, ht1]
    exact .inr ⟨f, rfl, rfl⟩

/-- Every command does the same to both. -/
theorem sameOutcome_exec {s t : State} (h : SameVisible s t) (i : Instr) : SameOutcome (exec i s) (exec i t) := by
  cases i with
  | nop => exact sameOutcome_whenLegal h _ h.next
  | tblw idx len code =>
    refine sameOutcome_whenLegal h _ ?_
    rw [← h.tblwFault_eq]
    exact sameOutcome_orRaise h _ _ fun _ => (h.setTbl ..).next
  | start => exact sameOutcome_whenLegal h _ h.openCall.next
  | sym b =>
    refine sameOutcome_whenLegal h _ ?_
    rw [← h.tblEntry_eq b]
    cases tblEntry s b with
    | none => exact (h.raise ..).next
    | some e =>
      change SameOutcome (orRaise (symFault e s) _ s (commitSym e s)) (orRaise (symFault e t) _ t (commitSym e t))
      rw [← h.symFault_eq]
      exact sameOutcome_orRaise h _ _ fun hf => sameOutcome_commitSym h hf
  | fin =>
    refine sameOutcome_whenLegal h _ ?_
    rw [← h.finFault_eq]
    exact sameOutcome_orRaise h _ _ fun hf => (h.closeCall hf).next
  | clr => exact sameOutcome_whenLegal h _ h.clearToIdle.next

theorem sameOutcome_execIllegal {s t : State} (h : SameVisible s t) (w : CmdWord) :
    SameOutcome (execIllegal w s) (execIllegal w t) := by
  by_cases hs : s.state = .fault
  · rw [execIllegal_fault hs, execIllegal_fault (h.state_eq ▸ hs)]
    exact h.next
  · rw [execIllegal_raise hs, execIllegal_raise (h.state_eq ▸ hs)]
    exact (h.raise ..).next

end Sys2Proof.Machine
end

section
/-! SUPPORT. What SYM and FIN do past R93, check by check (R77, R81), and the words that R57's reserved bits make
illegal. -/

namespace Sys2Proof.Machine

/-! Illegal words. -/

theorem decode_formatS_reserved {w : CmdWord} (hop : fieldOp w = 3) (hrsv : fieldRsvS w ≠ 0) :
    decode w = .illegal .reservedBits := by
  rw [decode, hop]
  exact if_neg hrsv

theorem decode_formatN_reserved {w : CmdWord}
    (hop : fieldOp w = 0 ∨ fieldOp w = 2 ∨ fieldOp w = 4 ∨ fieldOp w = 5) (hrsv : fieldRsvN w ≠ 0) :
    decode w = .illegal .reservedBits := by
  obtain hop | hop | hop | hop := hop
  all_goals
    rw [decode, hop]
    exact if_neg hrsv

/-! SYM in ACTIVE. -/

theorem symFault_eq_compat {e : TblEntry} {s : State} (h : extraBit s.cfg e = true ∧ s.total = 0) :
    symFault e s = some .compat := by
  obtain ⟨hf, -⟩ | ⟨-, hkept, -⟩ | ⟨-, hkept, -⟩ := symFault_cases e s
  · exact hf
  · exact absurd h hkept
  · exact absurd h hkept

theorem symFault_eq_ovf {e : TblEntry} {s : State} (h : ¬ (extraBit s.cfg e = true ∧ s.total = 0))
    (hcap : s.cfg.outCap.toNat < s.outLen.toNat + (s.nbits.toNat + e.len.toNat) / 8) :
    symFault e s = some .ovf := by
  obtain ⟨-, hlost⟩ | ⟨hf, -⟩ | ⟨-, -, hfit⟩ := symFault_cases e s
  · exact absurd hlost h
  · exact hf
  · exact absurd hcap (Nat.not_lt.mpr hfit)

theorem symFault_eq_none {e : TblEntry} {s : State} (h : ¬ (extraBit s.cfg e = true ∧ s.total = 0))
    (hfit : s.outLen.toNat + (s.nbits.toNat + e.len.toNat) / 8 ≤ s.cfg.outCap.toNat) :
    symFault e s = none := by
  obtain ⟨-, hlost⟩ | ⟨-, -, hcap⟩ | ⟨hf, -⟩ := symFault_cases e s
  · exact absurd hlost h
  · exact absurd hcap (Nat.not_lt.mpr hfit)
  · exact hf

theorem exec_sym_raises {s : State} (hs : s.state = .active) {b : Byte} {e : TblEntry}
    (he : tblEntry s b = some e) {f : ErrCode} (hf : symFault e s = some f) :
    exec (.sym b) s = .next (raise f (encode (.sym b)) s) := by
  rw [exec_sym_legal hs he, hf, orRaise_some]

theorem exec_sym_appends {s s1 : State} (hs : s.state = .active) {b : Byte} {e : TblEntry}
    (he : tblEntry s b = some e) (hf : symFault e s = none) (hx : applyExtraBit (extraBit s.cfg e) s = .next s1) :
    exec (.sym b) s = .next (appendCode e.len.toNat (maskedCode e) s1) := by
  rw [exec_sym_legal hs he, hf, orRaise_none, commitSym_of_next hx]

theorem applyExtraBit_exists {x : Bool} {s : State} (h : x = true → s.nbits = 0 → s.outLen ≠ 0) :
    ∃ t, applyExtraBit x s = .next t :=
  (applyExtraBit_total x s).resolve_right fun ⟨_, hx, hn, ho⟩ => h hx hn ho

/-- The extra mask bit sets bit 0 of ACC where a bit is pending. -/
theorem applyExtraBit_acc_toNat {x : Bool} {s t : State} (h : applyExtraBit x s = .next t) :
    t.acc.toNat = if x = true ∧ s.nbits ≠ 0 then s.acc.toNat ||| 1 else s.acc.toNat := by
  obtain ⟨rfl, rfl⟩ | ⟨rfl, hn, rfl⟩ | ⟨rfl, hn, -, rfl⟩ := applyExtraBit_cases h
  · rw [if_neg (by simp)]
  · rw [if_pos ⟨rfl, hn⟩]
    exact BitVec.toNat_or ..
  · rw [if_neg (by simp [hn])]
    rfl

/-- It sets bit 0 of the last byte of the call where none is pending, and changes no other byte. -/
theorem cellRead_applyExtraBit {x : Bool} {s t : State} (h : applyExtraBit x s = .next t) (k : Nat) :
    cellRead t.out k = if x = true ∧ s.nbits = 0 ∧ k + 1 = s.outLen.toNat then some (outByte s k ||| 1)
      else cellRead s.out k := by
  obtain ⟨rfl, rfl⟩ | ⟨rfl, hn, rfl⟩ | ⟨rfl, hn, ho, rfl⟩ := applyExtraBit_cases h
  · rw [if_neg (by simp)]
  · rw [if_neg fun hc => hn hc.2.1]
  · have hpos : s.outLen.toNat ≠ 0 := fun hzero => ho (BitVec.eq_of_toNat_eq hzero)
    rw [setOut_out, cellRead_cellWrite]
    by_cases hk : k + 1 = s.outLen.toNat
    · rw [if_pos (by omega), if_pos ⟨rfl, hn, hk⟩, ← hk, Nat.add_sub_cancel]
    · rw [if_neg (by omega), if_neg fun hc => hk hc.2.2]

/-- It keeps the pending bits below `2 ^ NBITS` (I1). -/
theorem applyExtraBit_acc_lt {x : Bool} {s t : State} (hacc : s.acc.toNat < 2 ^ s.nbits.toNat)
    (h : applyExtraBit x s = .next t) : t.acc.toNat < 2 ^ t.nbits.toNat := by
  obtain ⟨-, rfl⟩ | ⟨-, hn, rfl⟩ | ⟨-, -, -, rfl⟩ := applyExtraBit_cases h
  · exact hacc
  · have hpos : s.nbits.toNat ≠ 0 := fun hzero => hn (BitVec.eq_of_toNat_eq hzero)
    rw [BitVec.toNat_or]
    exact Nat.or_lt_two_pow hacc (Nat.one_lt_two_pow hpos)
  · exact hacc

/-! FIN in ACTIVE. -/

theorem finFault_eq_ovf {s : State} (hn : s.nbits ≠ 0) (hcap : s.cfg.outCap.toNat < s.outLen.toNat + 1) :
    finFault s = some .ovf := by
  obtain ⟨hf, -⟩ | ⟨-, hfit⟩ := finFault_cases s
  · exact hf
  · exact absurd hcap (Nat.not_lt.mpr (hfit hn))

theorem finFault_eq_none {s : State} (hfit : s.nbits ≠ 0 → s.outLen.toNat + 1 ≤ s.cfg.outCap.toNat) :
    finFault s = none := by
  obtain ⟨-, hn, hcap⟩ | ⟨hf, -⟩ := finFault_cases s
  · exact absurd hcap (Nat.not_lt.mpr (hfit hn))
  · exact hf

theorem exec_fin_raises {s : State} (hs : s.state = .active) (hf : finFault s = some .ovf) :
    exec .fin s = .next (raise .ovf (encode .fin) s) := by
  rw [exec_fin_legal hs, hf, orRaise_some]

theorem exec_fin_closes {s : State} (hs : s.state = .active) (hf : finFault s = none) :
    exec .fin s = .next (closeCall s) := by
  rw [exec_fin_legal hs, hf, orRaise_none]

/-- The close where a padded byte is needed. -/
theorem closeCall_of_padCount_ne_zero {s : State} (hp : padCount s.nbits ≠ 0) : closeCall s =
    { emit (padByte s.acc (padCount s.nbits)) s with
      acc := 0, nbits := 0, pad := BitVec.ofNat 3 (padCount s.nbits), state := .done } := by
  rw [closeCall]
  simp only [if_neg hp]

/-- The close on an octet boundary. -/
theorem closeCall_of_padCount_eq_zero {s : State} (hp : padCount s.nbits = 0) :
    closeCall s = { s with acc := 0, nbits := 0, pad := 0, state := .done } := by
  rw [closeCall]
  simp only [hp]
  rfl

/-- A FIN that takes a call from ACTIVE to DONE has passed its check and closed it. -/
theorem exec_fin_done {s t : State} (hs : s.state = .active) (h : exec .fin s = .next t) (ht : t.state = .done) :
    finFault s = none ∧ t = closeCall s := by
  obtain ⟨hf, -⟩ | ⟨hf, -⟩ := finFault_cases s
  · rw [exec_fin_raises hs hf] at h
    cases h
    cases ht
  · rw [exec_fin_closes hs hf] at h
    cases h
    exact ⟨hf, rfl⟩

/-- R82: the bytes of the closed call spell the stream before it, followed by the padding's ones. -/
theorem byteBits_closeCall {s : State} (hf : finFault s = none) :
    byteBits (outBytes (closeCall s)) = stream s ++ List.replicate (padCount s.nbits) true := by
  have hstream : stream (closeCall s) = byteBits (outBytes (closeCall s)) := by
    rw [stream, closeCall_nbits]
    exact List.append_nil _
  calc byteBits (outBytes (closeCall s))
      = stream (appendWord (finWord s) (s.nbits.toNat + padCount s.nbits) s) := by
        rw [← hstream, closeCall_eq_appendWord]
        rfl
    _ = byteBits (outBytes s) ++ bitsOf (s.nbits.toNat + padCount s.nbits) (finWord s) :=
        stream_appendWord (finFault_none_no_wrap hf)
    _ = stream s ++ List.replicate (padCount s.nbits) true := by
        rw [finWord, shifterWord_eq _ (mask_lt _), bitsOf_mul_add _ (mask_lt _), bitsOf_mask, stream,
          List.append_assoc]

end Sys2Proof.Machine
end

section
/-! SUPPORT. The source's encode function (R70 to R72): its bytes as bits, and when its padded value fits in them. -/

namespace Sys2Proof.Machine

variable (c : Config) (T : Byte → TblEntry)

/-! Lengths. -/

theorem totalBits_append (xs ys : List Byte) : totalBits T (xs ++ ys) = totalBits T xs + totalBits T ys := by
  induction xs with
  | nil => simp [totalBits]
  | cons x xs ih => rw [List.cons_append, totalBits, totalBits, ih, Nat.add_assoc]

theorem totalBits_snoc (xs : List Byte) (b : Byte) : totalBits T (xs ++ [b]) = totalBits T xs + (T b).len.toNat :=
  totalBits_append T xs [b]

theorem totalBytes_eq (total : Nat) : totalBytes total = (total + 7) / 8 := by
  rw [totalBytes, refPadding]
  omega

theorem eight_mul_totalBytes (total : Nat) : 8 * totalBytes total = total + refPadding total := by
  rw [totalBytes, refPadding]
  omega

/-! The bits of the result. -/

/-- One step of the variant is the shifter's word over the accumulator that the extra mask bit has been put into. -/
theorem refStep_eq (acc : Nat) (b : Byte) : refStep c.maskExtraBit T acc b =
    shifterWord (acc ||| (extraBit c (T b)).toNat) (T b).len.toNat (maskedCode (T b)) := by
  have hcode : (T b).code.toNat &&& mask ((T b).len.toNat + c.maskExtraBit.toNat) =
      (extraBit c (T b)).toNat <<< (T b).len.toNat ||| maskedCode (T b) := by
    have hsum := shifterWord_eq (extraBit c (T b)).toNat (maskedCode_lt (T b))
    rw [shifterWord] at hsum
    rw [hsum, and_mask, maskedCode_eq, extraBit]
    cases c.maskExtraBit with
    | false => simp
    | true =>
      rw [Bool.true_and, BitVec.getLsbD, Nat.toNat_testBit, Bool.toNat_true, Nat.pow_succ, Nat.mod_mul, Nat.add_comm,
        Nat.mul_comm]
  rw [refStep, hcode, shifterWord, Nat.shiftLeft_or_distrib, Nat.or_assoc]

theorem refAcc_snoc (extra : Bool) (xs : List Byte) (b : Byte) :
    refAcc extra T (xs ++ [b]) = refStep extra T (refAcc extra T xs) b := by
  rw [refAcc, List.foldl_append]
  rfl

/-- R71: the general case covers the empty input. -/
theorem encodeRef_eq_render (extra : Bool) (input : List Byte) : encodeRef extra T input =
    render (totalBytes (totalBits T input)) (refPaddedAcc extra T input) := by
  cases input with
  | nil =>
    have hzero : totalBytes (totalBits T []) = 0 := totalBytes_eq 0
    rw [hzero]
    rfl
  | cons b bs => rfl

theorem refPaddedAcc_eq (extra : Bool) (input : List Byte) : refPaddedAcc extra T input =
    shifterWord (refAcc extra T input) (refPadding (totalBits T input)) (mask (refPadding (totalBits T input))) := rfl

/-- The result spells the accumulator's low bits, then the padding's ones. -/
theorem byteBits_encodeRef (extra : Bool) (input : List Byte) : byteBits (encodeRef extra T input) =
    bitsOf (totalBits T input) (refAcc extra T input) ++ List.replicate (refPadding (totalBits T input)) true := by
  rw [encodeRef_eq_render, byteBits_render, eight_mul_totalBytes, refPaddedAcc_eq, shifterWord_eq _ (mask_lt _),
    bitsOf_mul_add _ (mask_lt _), bitsOf_mask]

/-! Whether the value fits. -/

/-- The padded value fits in its bytes just where the accumulator fits in its bits. -/
theorem le_refPaddedAcc_iff (extra : Bool) (input : List Byte) :
    2 ^ (8 * totalBytes (totalBits T input)) ≤ refPaddedAcc extra T input ↔
      2 ^ totalBits T input ≤ refAcc extra T input := by
  rw [eight_mul_totalBytes, refPaddedAcc_eq]
  constructor
  · intro h
    by_contra hlt
    exact absurd h (Nat.not_le.mpr (shifterWord_lt (Nat.not_le.mp hlt) (mask_lt _)))
  · intro h
    rw [shifterWord_eq _ (mask_lt _), Nat.pow_add]
    exact le_trans (Nat.mul_le_mul_right _ h) (Nat.le_add_right _ _)

/-- No extra mask bit of the input comes up with no bit in the stream yet, counting from `total` bits. -/
def NoneLost : Nat → List Byte → Prop
  | _, [] => True
  | total, b :: bs =>
    ¬ (extraBit c (T b) = true ∧ total = 0) ∧ NoneLost (total + (T b).len.toNat) bs

variable {c T}

theorem noneLost_of_pos {total : Nat} (h : 0 < total) (input : List Byte) : NoneLost c T total input := by
  induction input generalizing total with
  | nil => trivial
  | cons b bs ih => exact ⟨fun hlost => h.ne' hlost.2, ih (Nat.add_pos_left h _)⟩

/-- Where no byte is the first to lose its extra mask bit, none is lost. -/
theorem noneLost_of_no_firstLost {input : List Byte} (h : ∀ pre b, ¬ FirstLostExtraBit c T input pre b) :
    NoneLost c T 0 input := by
  induction input with
  | nil => trivial
  | cons b bs ih =>
    have hb : ¬ extraBit c (T b) = true := fun hx => h [] b ⟨⟨bs, rfl⟩, rfl, hx, by simp⟩
    refine ⟨fun hlost => hb hlost.1, ?_⟩
    by_cases hlen : (T b).len.toNat = 0
    · rw [hlen]
      refine ih ?_
      rintro pre b' ⟨⟨post, rfl⟩, hpre, hx, hfirst⟩
      refine h (b :: pre) b' ⟨⟨post, rfl⟩, ?_, hx, ?_⟩
      · rw [totalBits, hlen, hpre]
      · exact List.forall_mem_cons.mpr ⟨Bool.eq_false_of_not_eq_true hb, hfirst⟩
    · exact noneLost_of_pos (by omega) bs

/-- An accumulator that fits its bits still does after the input, if none is lost. -/
theorem foldl_refStep_lt {total acc : Nat} {input : List Byte} (hacc : acc < 2 ^ total)
    (h : NoneLost c T total input) :
    input.foldl (refStep c.maskExtraBit T) acc < 2 ^ (total + totalBits T input) := by
  induction input generalizing total acc with
  | nil => exact hacc
  | cons b bs ih =>
    obtain ⟨hkept, hrest⟩ := h
    have hor : acc ||| (extraBit c (T b)).toNat < 2 ^ total := by
      cases hx : extraBit c (T b) with
      | false => exact (Nat.or_zero acc).symm ▸ hacc
      | true => exact Nat.or_lt_two_pow hacc (Nat.one_lt_two_pow fun hzero => hkept ⟨hx, hzero⟩)
    rw [List.foldl_cons, refStep_eq, totalBits, ← Nat.add_assoc]
    exact ih (shifterWord_lt hor (maskedCode_lt _)) hrest

/-- One that does not fit its bits never does again. -/
theorem le_foldl_refStep {extra : Bool} {total acc : Nat} (hacc : 2 ^ total ≤ acc) (input : List Byte) :
    2 ^ (total + totalBits T input) ≤ input.foldl (refStep extra T) acc := by
  induction input generalizing total acc with
  | nil => exact hacc
  | cons b bs ih =>
    rw [List.foldl_cons, totalBits, ← Nat.add_assoc]
    refine ih (le_trans ?_ Nat.left_le_or)
    rw [Nat.shiftLeft_eq, Nat.pow_add]
    exact Nat.mul_le_mul_right _ hacc

/-- A lost bit takes the accumulator past its bits. -/
theorem le_refAcc_of_firstLost {input pre : List Byte} {b : Byte} (h : FirstLostExtraBit c T input pre b) :
    2 ^ totalBits T input ≤ refAcc c.maskExtraBit T input := by
  obtain ⟨⟨post, rfl⟩, hpre, hx, -⟩ := h
  rw [totalBits_append, hpre, Nat.zero_add, totalBits, refAcc, List.foldl_append, List.foldl_cons]
  refine le_foldl_refStep ?_ post
  rw [refStep_eq, hx, shifterWord, Nat.shiftLeft_eq]
  exact le_trans (Nat.le_mul_of_pos_left _ (Nat.lt_of_lt_of_le Nat.one_pos Nat.right_le_or)) Nat.left_le_or

/-- R83: with the extra mask bit, the padded value does not fit just where one is lost. -/
theorem firstLost_iff_le_refPaddedAcc {input : List Byte} (hextra : c.maskExtraBit = true) :
    (∃ pre b, FirstLostExtraBit c T input pre b) ↔
      2 ^ (8 * totalBytes (totalBits T input)) ≤ refPaddedAcc true T input := by
  rw [le_refPaddedAcc_iff, ← hextra]
  constructor
  · rintro ⟨pre, b, h⟩
    exact le_refAcc_of_firstLost h
  · intro h
    by_contra hno
    have hnone : NoneLost c T 0 input := noneLost_of_no_firstLost fun pre b hlost => hno ⟨pre, b, hlost⟩
    have hlt := foldl_refStep_lt (acc := 0) Nat.one_pos hnone
    rw [Nat.zero_add] at hlt
    exact absurd h (Nat.not_le.mpr hlt)

end Sys2Proof.Machine
end

section
/-! SUPPORT. One encode call on the block (R6, R83): what stands after each SYM, how the call ends, and which command
takes it to FAULT. -/

namespace Sys2Proof.Machine

/-! Runs of commands. -/

theorem deliver_encode (i : Instr) (s : State) :
    deliver (encode i) s = exec i { s with port := [], pc := s.pc + 1 } :=
  performWord_cmd (decode_encode i) _

/-- The block is in FAULT, and has recorded this command for this cause (R100). -/
def FaultedBy (e : ErrCode) (i : Instr) (t : State) : Prop :=
  t.state = .fault ∧ t.err = errBits e ∧ t.errcmd = encode i

/-- In FAULT every command but CLR is delivered in vain (R101). -/
theorem runWords_in_fault {e : ErrCode} {i : Instr} {is : List Instr} (his : .clr ∉ is) {s : State}
    (hs : FaultedBy e i s) : ∃ t, runWords (is.map encode) s = .next t ∧ FaultedBy e i t := by
  induction is generalizing s with
  | nil => exact ⟨s, rfl, hs⟩
  | cons j js ih =>
    have hj : deliver (encode j) s = .next { s with port := [], pc := s.pc + 1 } := by
      rw [deliver_encode]
      exact exec_ignored hs.1 fun hclr => his (hclr ▸ List.mem_cons_self)
    rw [List.map_cons, runWords_cons hj]
    exact ih (fun hmem => his (List.mem_cons_of_mem _ hmem)) hs

/-- So the first command that faults decides how such a run ends. -/
theorem runWords_raise {e : ErrCode} {i : Instr} {is : List Instr} (his : .clr ∉ is) {s u : State}
    (h : deliver (encode i) s = .next (raise e (encode i) u)) :
    ∃ t, runWords ((i :: is).map encode) s = .next t ∧ FaultedBy e i t := by
  rw [List.map_cons, runWords_cons h]
  exact runWords_in_fault his ⟨rfl, rfl, rfl⟩

/-- What remains of a call: a SYM for each byte, and FIN. -/
def restCommands (bs : List Byte) : List Instr := bs.map Instr.sym ++ [.fin]

theorem clr_not_mem_restCommands (bs : List Byte) : .clr ∉ restCommands bs := by
  simp [restCommands]

/-! The state of a call in progress. -/

/-- `s` stands in a call on the build and the table of `s0`, and the stream is what the encode function has accumulated
for the bytes so far (R32, R70). -/
structure InCall (s0 : State) (T : Byte → TblEntry) (pre : List Byte) (s : State) : Prop where
  active : s.state = .active
  cfg : s.cfg = s0.cfg
  tbl : s.tbl = s0.tbl
  total : s.total.toNat = totalBits T pre
  fits : s.outLen.toNat ≤ s0.cfg.outCap.toNat
  stream : stream s = bitsOf (totalBits T pre) (refAcc s0.cfg.maskExtraBit T pre)

theorem inCall_openCall (s0 : State) (T : Byte → TblEntry) : InCall s0 T [] (openCall s0) where
  active := rfl
  cfg := rfl
  tbl := rfl
  total := rfl
  fits := Nat.zero_le _
  stream := rfl

/-- The extra mask bit of the variant, as a bit of the accumulator. -/
theorem withLastOne_bitsOf {x : Bool} {n : Nat} (h : x = true → n ≠ 0) (v : Nat) :
    (if x = true then withLastOne (bitsOf n v) else bitsOf n v) = bitsOf n (v ||| x.toNat) := by
  cases x with
  | false => simp
  | true =>
    obtain ⟨k, rfl⟩ := Nat.exists_eq_succ_of_ne_zero (h rfl)
    exact (bitsOf_or_one k v).symm

/-- How a call ends that is closed: with the bytes of the encode function (R83). -/
def CallClosed (c : Config) (T : Byte → TblEntry) (input : List Byte) (t : State) : Prop :=
  t.state = .done ∧ outBytes t = encodeRef c.maskExtraBit T input ∧
    t.outLen.toNat = (totalBits T input + 7) / 8 ∧ t.total.toNat = totalBits T input ∧
    t.pad.toNat = (8 - totalBits T input % 8) % 8

namespace InCall

variable {s0 s : State} {T : Byte → TblEntry} {pre : List Byte} (h : InCall s0 T pre s)

include h

/-- The bits of the call stand in whole bytes and NBITS more. -/
theorem count : totalBits T pre = 8 * s.outLen.toNat + s.nbits.toNat := by
  rw [← stream_length, h.stream, bitsOf_length]

theorem total_eq_zero_iff : s.total = 0 ↔ totalBits T pre = 0 := by
  rw [← h.total, ← BitVec.toNat_inj]
  rfl

theorem withHost (pc : Nat) (port : List Transaction) : InCall s0 T pre { s with port := port, pc := pc } :=
  ⟨h.active, h.cfg, h.tbl, h.total, h.fits, h.stream⟩

variable {b : Byte}

theorem entry (he : tblEntry s0 b = some (T b)) : tblEntry s b = some (T b) :=
  (tblEntry_of_tbl_eq h.tbl b).trans he

/-- E_COMPAT: the extra mask bit comes up with no bit in the stream (R97). -/
theorem sym_lost (he : tblEntry s0 b = some (T b)) (hlost : extraBit s0.cfg (T b) = true ∧ totalBits T pre = 0) :
    exec (.sym b) s = .next (raise .compat (encode (.sym b)) s) := by
  refine exec_sym_raises h.active (h.entry he) (symFault_eq_compat ?_)
  rwa [h.cfg, h.total_eq_zero_iff]

/-- E_OVF: the bytes completed pass the capacity (R96). -/
theorem sym_full (he : tblEntry s0 b = some (T b)) (hkept : ¬ (extraBit s0.cfg (T b) = true ∧ totalBits T pre = 0))
    (hcap : s0.cfg.outCap.toNat < (totalBits T pre + (T b).len.toNat) / 8) :
    exec (.sym b) s = .next (raise .ovf (encode (.sym b)) s) := by
  have hcount := h.count
  refine exec_sym_raises h.active (h.entry he) (symFault_eq_ovf ?_ ?_)
  · rwa [h.cfg, h.total_eq_zero_iff]
  · rw [h.cfg]
    omega

/-- Else the byte's code joins the stream. -/
theorem sym_appends (he : tblEntry s0 b = some (T b))
    (hkept : ¬ (extraBit s0.cfg (T b) = true ∧ totalBits T pre = 0))
    (hfit : (totalBits T pre + (T b).len.toNat) / 8 ≤ s0.cfg.outCap.toNat) :
    ∃ t, exec (.sym b) s = .next t ∧ InCall s0 T (pre ++ [b]) t := by
  have hcount := h.count
  have hlast : extraBit s0.cfg (T b) = true → totalBits T pre ≠ 0 := fun hx hzero => hkept ⟨hx, hzero⟩
  have hf : symFault (T b) s = none := by
    refine symFault_eq_none ?_ ?_
    · rwa [h.cfg, h.total_eq_zero_iff]
    · rw [h.cfg]
      omega
  obtain ⟨s1, hx⟩ : ∃ s1, applyExtraBit (extraBit s.cfg (T b)) s = .next s1 := by
    refine applyExtraBit_exists fun hxb hn ho => hlast (h.cfg ▸ hxb) ?_
    rw [hcount, hn, ho]
    rfl
  have hframe := applyExtraBit_frame hx
  have houtLen : s1.outLen = s.outLen := by rw [hframe]
  have hnbits : s1.nbits = s.nbits := by rw [hframe]
  refine ⟨_, exec_sym_appends h.active (h.entry he) hf hx, ?active, ?cfg, ?tbl, ?total, ?fits, ?stream⟩
  case active =>
    rw [appendCode_state, hframe]
    exact h.active
  case cfg =>
    rw [appendCode_cfg, hframe]
    exact h.cfg
  case tbl =>
    rw [appendCode_tbl, hframe]
    exact h.tbl
  case total =>
    have htotal : s1.total.toNat = totalBits T pre := by
      rw [hframe]
      exact h.total
    have hcap := s0.cfg.outCap.isLt
    have hlen := (T b).len.isLt
    rw [appendCode_total, htotal, BitVec.toNat_ofNat, totalBits_snoc]
    omega
  case fits =>
    rw [appendCode_outLen_toNat (symFault_none_no_wrap hf hx), houtLen, hnbits]
    omega
  case stream =>
    rw [stream_sym hf hx, stream_applyExtraBit hx, h.stream, h.cfg, withLastOne_bitsOf hlast, totalBits_snoc,
      refAcc_snoc, refStep_eq, shifterWord_eq _ (maskedCode_lt _), bitsOf_mul_add _ (maskedCode_lt _)]

/-- FIN needs a byte past the capacity (R96). -/
theorem fin_full (hcap : s0.cfg.outCap.toNat < (totalBits T pre + 7) / 8) :
    exec .fin s = .next (raise .ovf (encode .fin) s) := by
  have hcount := h.count
  have hfits := h.fits
  have hn := s.nbits.isLt
  refine exec_fin_raises h.active (finFault_eq_ovf (fun hzero => ?_) ?_)
  · have : s.nbits.toNat = 0 := by rw [hzero]; rfl
    omega
  · rw [h.cfg]
    omega

/-- Else it closes the call (R81, R82). -/
theorem fin_closes (hfit : (totalBits T pre + 7) / 8 ≤ s0.cfg.outCap.toNat) :
    ∃ t, exec .fin s = .next t ∧ CallClosed s0.cfg T pre t := by
  have hcount := h.count
  have hn := s.nbits.isLt
  have hf : finFault s = none := by
    refine finFault_eq_none fun hne => ?_
    have hpos : s.nbits.toNat ≠ 0 := fun hzero => hne (BitVec.eq_of_toNat_eq hzero)
    rw [h.cfg]
    omega
  have hpad : padCount s.nbits = refPadding (totalBits T pre) := by
    rw [padCount, refPadding]
    omega
  have hbytes : outBytes (closeCall s) = encodeRef s0.cfg.maskExtraBit T pre := by
    apply byteBits_inj
    rw [byteBits_closeCall hf, h.stream, hpad, byteBits_encodeRef]
  refine ⟨_, exec_fin_closes h.active hf, rfl, hbytes, ?_, ?_, ?_⟩
  · rw [← outBytes_length, hbytes, encodeRef_eq_render, render_length, totalBytes_eq]
  · rw [closeCall_total, h.total]
  · rw [closeCall_pad_toNat, hpad, refPadding]

end InCall

/-! The end of a call. -/

/-- The command that takes a call to FAULT and the cause, counting from `total` bits; nothing for a call that is closed. -/
def callFault (c : Config) (T : Byte → TblEntry) : Nat → List Byte → Option (ErrCode × Instr)
  | total, [] => if c.outCap.toNat < (total + 7) / 8 then some (.ovf, .fin) else none
  | total, b :: bs =>
    if extraBit c (T b) = true ∧ total = 0 then some (.compat, .sym b)
    else if c.outCap.toNat < (total + (T b).len.toNat) / 8 then some (.ovf, .sym b)
    else callFault c T (total + (T b).len.toNat) bs

/-- The end that `callFault` stands for. -/
def CallEnds (c : Config) (T : Byte → TblEntry) (input : List Byte) (t : State) : Option (ErrCode × Instr) → Prop
  | some (e, i) => FaultedBy e i t
  | none => CallClosed c T input t

/-- What remains of a call runs to the end that `callFault` gives. -/
theorem InCall.runs {s0 s : State} {T : Byte → TblEntry} {pre rest : List Byte} (h : InCall s0 T pre s)
    (hT : ∀ b ∈ rest, tblEntry s0 b = some (T b)) :
    ∃ t, runWords ((restCommands rest).map encode) s = .next t ∧
      CallEnds s0.cfg T (pre ++ rest) t (callFault s0.cfg T (totalBits T pre) rest) := by
  induction rest generalizing pre s with
  | nil =>
    have h' := h.withHost (s.pc + 1) []
    rw [callFault, List.append_nil]
    by_cases hcap : s0.cfg.outCap.toNat < (totalBits T pre + 7) / 8
    · rw [if_pos hcap]
      exact runWords_raise List.not_mem_nil ((deliver_encode ..).trans (h'.fin_full hcap))
    · rw [if_neg hcap]
      obtain ⟨t, ht, hclosed⟩ := h'.fin_closes (Nat.not_lt.mp hcap)
      exact ⟨t, runWords_cons ((deliver_encode ..).trans ht) [], hclosed⟩
  | cons b bs ih =>
    have h' := h.withHost (s.pc + 1) []
    obtain ⟨he, hT⟩ := List.forall_mem_cons.mp hT
    have hclr := clr_not_mem_restCommands bs
    rw [callFault]
    by_cases hlost : extraBit s0.cfg (T b) = true ∧ totalBits T pre = 0
    · rw [if_pos hlost]
      exact runWords_raise hclr ((deliver_encode ..).trans (h'.sym_lost he hlost))
    rw [if_neg hlost]
    by_cases hcap : s0.cfg.outCap.toNat < (totalBits T pre + (T b).len.toNat) / 8
    · rw [if_pos hcap]
      exact runWords_raise hclr ((deliver_encode ..).trans (h'.sym_full he hlost hcap))
    · rw [if_neg hcap, ← totalBits_snoc, List.append_cons]
      obtain ⟨u, hu, hin⟩ := h'.sym_appends he hlost (Nat.not_lt.mp hcap)
      obtain ⟨t, ht, hend⟩ := ih hin hT
      exact ⟨t, (runWords_cons ((deliver_encode ..).trans hu) _).trans ht, hend⟩

/-- So does the whole call (R83). -/
theorem call_runs {s : State} (hs : s.state = .idle ∨ s.state = .done) {T : Byte → TblEntry} {input : List Byte}
    (hT : ∀ b ∈ input, tblEntry s b = some (T b)) :
    ∃ t, runWords (callWords input) s = .next t ∧ CallEnds s.cfg T input t (callFault s.cfg T 0 input) := by
  obtain ⟨t, ht, hend⟩ := (inCall_openCall { s with port := [], pc := s.pc + 1 } T).runs hT
  exact ⟨t, (runWords_cons ((deliver_encode ..).trans (exec_start_legal hs)) _).trans ht, hend⟩

/-! Which end it is. -/

/-- Where no extra mask bit is lost, the capacity alone decides, at the command that `firstPastCap` names. -/
theorem callFault_of_noneLost {c : Config} {T : Byte → TblEntry} {total : Nat} {input : List Byte}
    (h : NoneLost c T total input) : callFault c T total input =
      if c.outCap.toNat < (total + totalBits T input + 7) / 8 then
        some (.ovf, firstPastCap c.outCap.toNat T total input)
      else none := by
  induction input generalizing total with
  | nil => rfl
  | cons b bs ih =>
    obtain ⟨hkept, hrest⟩ := h
    rw [callFault, if_neg hkept, firstPastCap, totalBits]
    by_cases hcap : c.outCap.toNat < (total + (T b).len.toNat) / 8
    · rw [if_pos hcap, if_pos hcap, if_pos (by omega)]
    · rw [if_neg hcap, if_neg hcap, ih hrest, Nat.add_assoc total]

/-- The first byte that loses its extra mask bit ends the call: no byte stands before it that could pass the capacity. -/
theorem callFault_of_firstLost {c : Config} {T : Byte → TblEntry} {input pre : List Byte} {b : Byte}
    (h : FirstLostExtraBit c T input pre b) : callFault c T 0 input = some (.compat, .sym b) := by
  obtain ⟨⟨post, rfl⟩, hpre, hx, hfirst⟩ := h
  induction pre with
  | nil => exact if_pos ⟨hx, rfl⟩
  | cons a pre ih =>
    obtain ⟨ha, hfirst⟩ := List.forall_mem_cons.mp hfirst
    obtain ⟨hlen, hpre⟩ := Nat.add_eq_zero_iff.mp hpre
    rw [List.cons_append, callFault, hlen, if_neg (by simp [ha]), if_neg (by simp)]
    exact ih hpre hfirst

end Sys2Proof.Machine
end

section
/-! The statements about encoding (spec/41_encode.md), settled. -/

namespace Sys2Proof.Machine

/-- Settles O23: each operation's observation is a function of the observation before it, so every command
(`sameOutcome_exec`) and every illegal word (`sameOutcome_execIllegal`) does the same to both states. -/
theorem commandsReadNoDraw : Obligations.CommandsReadNoDraw := by
  intro s t w h
  change SameOutcome (performWord w s) (performWord w t)
  cases hd : decode w with
  | cmd i =>
    rw [performWord_cmd hd, performWord_cmd hd]
    exact sameOutcome_exec h i
  | illegal why =>
    rw [performWord_illegal hd, performWord_illegal hd]
    exact sameOutcome_execIllegal h w

/-- Settles O34: each check answers its fault (`exec_sym_raises`); past them the code is appended to what the extra mask
bit leaves (`exec_sym_appends`), whose ACC and OUT are `applyExtraBit_acc_toNat` and `cellRead_applyExtraBit`. -/
theorem symAppendsCode : Obligations.SymAppendsCode := by
  refine fun s b => ⟨fun hs => exec_ignored hs Instr.noConfusion,
    fun w hop hrsv => performWord_illegal_effect (decode_formatS_reserved hop hrsv) s,
    fun hs => exec_errSeq (by rcases hs with hs | hs <;> rw [hs] <;> rfl), fun hs => exec_sym_noent hs, ?_⟩
  intro e hs he len x n a W
  refine ⟨fun hlost => exec_sym_raises hs he (symFault_eq_compat hlost),
    fun hkept hcap => exec_sym_raises hs he (symFault_eq_ovf hkept hcap), fun hkept hfit hpos => ?_⟩
  obtain ⟨s1, hx⟩ := applyExtraBit_exists hpos
  have hf := symFault_eq_none hkept hfit
  have hwrap := symFault_none_no_wrap hf hx
  have hframe := applyExtraBit_frame hx
  have hlen : s1.outLen = s.outLen := by rw [hframe]
  have hnbits : s1.nbits = s.nbits := by rw [hframe]
  have htotal : s1.total = s.total := by rw [hframe]
  have hW : shifterWord s1.acc.toNat len (maskedCode e) = W := by
    rw [applyExtraBit_acc_toNat hx, maskedCode_eq]
    rfl
  have hread := cellRead_appendCode (m := maskedCode e) hwrap
  rw [hlen, hnbits] at hread
  refine ⟨_, exec_sym_appends hs he hf hx, ?outLen, ?nbits, ?acc, ?total, fun j hj => ?octets,
    fun hextra hn => ?extra, fun k hk hne => ?others, ?frame⟩
  case outLen => rw [appendCode_outLen_toNat hwrap, hlen, hnbits]
  case nbits => rw [appendCode_nbits_toNat, hnbits]
  case acc => rw [appendCode_acc_toNat, hW, hnbits]
  case total => rw [appendCode_total, htotal, BitVec.ofNat_add, BitVec.ofNat_toNat, BitVec.setWidth_eq]
  case octets => rw [hread, if_pos (by omega), Nat.add_sub_cancel_left, octet_eq, hW]
  case extra =>
    have := hpos hextra hn
    have hlast : s.outLen.toNat ≠ 0 := fun hzero => this (BitVec.eq_of_toNat_eq hzero)
    rw [hread, if_neg (by omega), cellRead_applyExtraBit hx, if_pos ⟨hextra, hn, by omega⟩]
  case others => rw [hread, if_neg (by omega), cellRead_applyExtraBit hx, if_neg hne]
  case frame =>
    refine (appendCode_frame ..).trans ?_
    rw [hframe]

/-- Settles O36: the check raises `E_OVF` (`exec_fin_raises`), and past it the padded byte of `padByte_eq` goes out, where
one is needed, and the call is closed (`exec_fin_closes`). -/
theorem finPadsAndCloses : Obligations.FinPadsAndCloses := by
  refine fun s => ⟨fun hs => exec_ignored hs Instr.noConfusion,
    fun w hop hrsv => performWord_illegal_effect (decode_formatN_reserved (.inr (.inr (.inl hop))) hrsv) s,
    fun hs => exec_errSeq (by rcases hs with hs | hs <;> rw [hs] <;> rfl), ?_⟩
  intro hs p
  refine ⟨fun hp hcap => ?full, fun hp hfit => ?pads, fun hp => ?closes⟩
  case full => exact exec_fin_raises hs (finFault_eq_ovf (mt (padCount_eq_zero _).mpr hp.ne') hcap)
  case pads =>
    have hclose := closeCall_of_padCount_ne_zero (s := s) hp.ne'
    refine ⟨closeCall s, exec_fin_closes hs (finFault_eq_none fun _ => hfit), ?_, fun k hk => ?_, ?_⟩
    · rw [hclose, ← padByte_eq]
      exact cellRead_cellWrite_same ..
    · rw [hclose]
      exact cellRead_cellWrite_ne _ _ hk
    · rw [hclose]
      rfl
  case closes =>
    have hn := (padCount_eq_zero _).mp hp
    rw [exec_fin_closes hs (finFault_eq_none fun hc => absurd hn hc), closeCall_of_padCount_eq_zero hp]

/-- Settles O42: the parts of the shifter's word do not overlap (`shifterWord_eq`, `shifterWord_lt`), and `val` of a
concatenation is the sum that they make (`valOf_append`). -/
theorem shifterFitsSeventyBits : Obligations.ShifterFitsSeventyBits := by
  intro a nbits len m hn hlen ha hm
  have hlt := shifterWord_lt ha hm
  have hsum := shifterWord_eq a hm
  refine ⟨hlt, lt_of_lt_of_le hlt (Nat.pow_le_pow_right (by omega) (by omega)), hsum, ?_⟩
  rw [hsum, valOf_append, valOf_bitsOf, valOf_bitsOf, bitsOf_length, Nat.mod_eq_of_lt ha, Nat.mod_eq_of_lt hm]

/-- Settles O43: the extra mask bit keeps the pending bits below `2 ^ NBITS`, and from there pushing bit by bit is one append
(`serialAppend_eq_appendCode`, `serialClose_eq_closeCall`). -/
theorem bitSerialFormAgrees : Obligations.BitSerialFormAgrees := by
  refine fun s hs hacc => ⟨fun b e s1 he hf hx => ?_, fun hf => ?_⟩
  · rw [exec_sym_appends hs he hf hx, serialAppend_eq_appendCode (applyExtraBit_acc_lt hacc hx) (maskedCode_lt e)]
  · rw [exec_fin_closes hs hf, serialClose_eq_closeCall hacc]

/-- Settles O44: the bytes of the closed call are those of `byteBits_closeCall`. -/
theorem paddingIsOnes : Obligations.PaddingIsOnes := by
  intro s t hs h ht
  obtain ⟨hf, rfl⟩ := exec_fin_done hs h ht
  rw [closeCall_pad_toNat]
  exact ⟨byteBits_closeCall hf, rfl, Nat.le_of_lt_succ (padCount_lt _)⟩

/-- Settles O45: FIN keeps the invariant (`ExecCase.inv`), whose part for DONE counts the bits (I5). -/
theorem paddingInvariant : Obligations.PaddingInvariant := by
  intro s t hinv h ht _
  obtain ⟨⟨-, -, hcount, -⟩, -⟩ := (seqInv_done ht).mp ((exec_cases h).inv hinv).seqInv
  have := t.pad.isLt
  exact ⟨by omega, by omega, this, exec_fin_total h⟩

/-- Settles O46: the call runs to the end that `callFault` gives (`call_runs`), which is that of the capacity where no extra
mask bit is lost (`callFault_of_noneLost`) and that of the first lost one otherwise (`callFault_of_firstLost`). -/
theorem callComputesEncode : Obligations.CallComputesEncode := by
  intro s T input hs hT
  obtain ⟨t, hrun, hend⟩ := call_runs hs hT
  refine ⟨t, hrun, fun hno => ?kept, fun pre b hlost => ?lost, firstLost_iff_le_refPaddedAcc⟩
  case kept =>
    rw [callFault_of_noneLost (noneLost_of_no_firstLost hno), Nat.zero_add] at hend
    refine ⟨fun hfit => ?_, fun hcap => ?_⟩
    · rwa [if_neg (Nat.not_lt.mpr hfit)] at hend
    · rwa [if_pos hcap] at hend
  case lost => rwa [callFault_of_firstLost hlost] at hend

/-- Settles O33: R93 leaves START to `openCall` in IDLE and DONE, and a reserved bit makes its word illegal
(`decode_formatN_reserved`). -/
theorem startOpensCall : Obligations.StartOpensCall :=
  fun s => ⟨exec_start_legal, fun hs => exec_errSeq (by rw [hs]; rfl),
    fun hs => exec_ignored hs Instr.noConfusion,
    fun w hop hrsv => performWord_illegal_effect (decode_formatN_reserved (.inr (.inl hop)) hrsv) s⟩

/-- Settles O48: the general case renders no byte of the empty input (`encodeRef_eq_render`), and the block's empty call is
the call of `callComputesEncode` without a byte, in which no extra mask bit comes up. -/
theorem emptyInputEncodesToNothing : Obligations.EmptyInputEncodesToNothing := by
  refine ⟨fun extra T => ⟨rfl, (encodeRef_eq_render T extra []).symm⟩, fun s hs => ?_⟩
  obtain ⟨t, hrun, hkept, -⟩ := callComputesEncode s (fun _ => ⟨0, 0⟩) [] hs (by simp)
  have hno : ∀ pre b, ¬ FirstLostExtraBit s.cfg (fun _ => ⟨0, 0⟩) [] pre b := by
    rintro pre b ⟨⟨post, hinput⟩, -⟩
    simp at hinput
  obtain ⟨hdone, hbytes, -, htotal, hpad⟩ := (hkept hno).1 (Nat.zero_le _)
  exact ⟨t, hrun, hdone, hbytes, BitVec.eq_of_toNat_eq htotal, BitVec.eq_of_toNat_eq hpad⟩

end Sys2Proof.Machine
end

section
/-! The statements about control (spec/42_control.md), settled. -/

namespace Sys2Proof.Machine

/-- R93 performs NOP, which has no effect, or ignores it: the state stays either way. -/
theorem exec_nop (s : State) : exec .nop s = .next s := by
  cases hs : s.state with
  | idle | active | done => exact whenLegal_ok (by rw [hs]; rfl)
  | fault => exact exec_ignored hs Instr.noConfusion

/-- Settles O31: NOP answers its own state (`exec_nop`), and a reserved bit makes its word illegal
(`decode_formatN_reserved`). -/
theorem nopHasNoEffect : Obligations.NopHasNoEffect :=
  ⟨exec_nop, fun s _ hop hrsv => (performWord_illegal_effect (decode_formatN_reserved (.inl hop) hrsv) s).1⟩

/-- Settles O37: CLR is legal in every state and answers `clearToIdle` (`exec_clr`), and a reserved bit makes its word
illegal (`decode_formatN_reserved`). -/
theorem clrReturnsToIdle : Obligations.ClrReturnsToIdle :=
  ⟨exec_clr, fun s _ hop hrsv =>
    performWord_illegal_effect (decode_formatN_reserved (.inr (.inr (.inr hop))) hrsv) s⟩

end Sys2Proof.Machine
end

section
/-! SUPPORT. Which words are illegal (R92), when each fault applies (R91 to R97), that a word raises only a fault that
applies to it, and what FAULT lets through (R101, R102). -/

namespace Sys2Proof.Machine

/-! Codes and words. -/

theorem errBits_injective : Function.Injective errBits := by
  intro e e'
  cases e <;> cases e' <;> decide

theorem encode_injective : Function.Injective encode := fun i j h =>
  Decoded.cmd.inj ((decode_encode i).symm.trans ((congrArg decode h).trans (decode_encode j)))

theorem performWord_encode (i : Instr) (s : State) : performWord (encode i) s = exec i s :=
  performWord_cmd (decode_encode i) s

theorem performWord_clr (s : State) : performWord 0x5000000000000000#64 s = .next (clearToIdle s) :=
  (performWord_encode .clr s).trans (exec_clr s)

/-! Illegal words (R92). -/

theorem checked_illegal {p : Prop} [Decidable p] {i : Instr} {r why : Illegal}
    (h : (if p then Decoded.cmd i else .illegal r) = .illegal why) : ¬ p := by
  intro hp
  rw [if_pos hp] at h
  cases h

theorem illegalWord_of_decode {w : CmdWord} {why : Illegal} (h : decode w = .illegal why) : IllegalWord w := by
  unfold decode at h
  split at h
  case h_1 hop => exact .inr (.inl ⟨.inl hop, checked_illegal h⟩)
  case h_2 hop => exact .inr (.inr (.inl ⟨hop, checked_illegal h⟩))
  case h_3 hop => exact .inr (.inl ⟨.inr (.inl hop), checked_illegal h⟩)
  case h_4 hop => exact .inr (.inr (.inr ⟨hop, checked_illegal h⟩))
  case h_5 hop => exact .inr (.inl ⟨.inr (.inr (.inl hop)), checked_illegal h⟩)
  case h_6 hop => exact .inr (.inl ⟨.inr (.inr (.inr hop)), checked_illegal h⟩)
  case h_7 =>
    have hreserved : 6 ≤ (fieldOp w).toNat := by
      simp only [imp_false] at *
      omega
    exact .inl hreserved

theorem IllegalWord.decodes {w : CmdWord} (h : IllegalWord w) : ∃ why, decode w = .illegal why := by
  obtain hop | ⟨hop, hrsv⟩ | ⟨hop, hrsv⟩ | ⟨hop, hrsv⟩ := h
  · exact ⟨_, decode_reserved hop⟩
  · have hfield : fieldOp w = 0 ∨ fieldOp w = 2 ∨ fieldOp w = 4 ∨ fieldOp w = 5 :=
      hop.imp BitVec.eq_of_toNat_eq (.imp BitVec.eq_of_toNat_eq (.imp BitVec.eq_of_toNat_eq BitVec.eq_of_toNat_eq))
    exact ⟨_, decode_formatN_reserved hfield hrsv⟩
  · exact ⟨_, decode_formatT_reserved (BitVec.eq_of_toNat_eq hop) hrsv⟩
  · exact ⟨_, decode_formatS_reserved (BitVec.eq_of_toNat_eq hop) hrsv⟩

theorem decode_illegal_iff {w : CmdWord} : (∃ why, decode w = .illegal why) ↔ IllegalWord w :=
  ⟨fun ⟨_, h⟩ => illegalWord_of_decode h, IllegalWord.decodes⟩

/-- An illegal word raises `E_ILL` outside FAULT, and is ignored in it. -/
theorem IllegalWord.performed {w : CmdWord} (h : IllegalWord w) (s : State) :
    (s.state ≠ .fault → performWord w s = .next (raise .ill w s)) ∧
    (s.state = .fault → performWord w s = .next s) :=
  performWord_illegal_effect h.decodes.choose_spec s

/-! When a fault applies. -/

/-- R93's ignored cells are all in FAULT. -/
theorem legality_ignored {i : Instr} {q : SeqState} (h : legality i q = .ignored) : q = .fault := by
  cases i <;> cases q <;> simp [legality] at h ⊢

/-- `E_SEQ` applies to the words of the commands that R93 refuses. -/
theorem faultApplies_seq_iff {w : CmdWord} {s : State} :
    FaultApplies .seq w s ↔ ∃ i, w = encode i ∧ legality i s.state = .errSeq := by
  constructor
  · rintro (⟨idx, len, code, rfl, hs⟩ | ⟨rfl, hs⟩ | ⟨b, rfl, hs | hs⟩ | ⟨rfl, hs | hs⟩)
    all_goals exact ⟨_, rfl, by rw [hs]; rfl⟩
  · rintro ⟨i, rfl, hl⟩
    obtain ⟨hs, ⟨idx, len, code, rfl⟩ | rfl⟩ | ⟨hs, ⟨b, rfl⟩ | rfl⟩ := legality_errSeq hl
    · exact .inl ⟨idx, len, code, rfl, hs⟩
    · exact .inr (.inl ⟨rfl, hs⟩)
    · exact .inr (.inr (.inl ⟨b, rfl, hs⟩))
    · exact .inr (.inr (.inr ⟨rfl, hs⟩))

/-- Outside FAULT a command to whose word `E_SEQ` does not apply is performed by its rule. -/
theorem legality_ok_of_not_seq {i : Instr} {s : State} (hs : s.state ≠ .fault)
    (hseq : ¬ FaultApplies .seq (encode i) s) : legality i s.state = .ok := by
  cases hl : legality i s.state with
  | ok => rfl
  | errSeq => exact absurd (faultApplies_seq_iff.mpr ⟨i, rfl, hl⟩) hseq
  | ignored => exact absurd (legality_ignored hl) hs

theorem faultApplies_compat_iff {w : CmdWord} {s : State} : FaultApplies .compat w s ↔
    ∃ b e, w = encode (.sym b) ∧ tblEntry s b = some e ∧ extraBit s.cfg e = true ∧ s.total = 0 := by
  simp only [FaultApplies, extraBit, Bool.and_eq_true, and_assoc]

/-- The fault that SYM's own checks find applies to its word. -/
theorem faultApplies_of_symFault {b : Byte} {e : TblEntry} {f : ErrCode} {s : State}
    (he : tblEntry s b = some e) (hf : symFault e s = some f) : FaultApplies f (encode (.sym b)) s := by
  obtain ⟨hc, hlost⟩ | ⟨hc, -, hcap⟩ | ⟨hc, -⟩ := symFault_cases e s <;> cases hf.symm.trans hc
  · exact faultApplies_compat_iff.mpr ⟨b, e, rfl, he, hlost⟩
  · exact .inl ⟨b, e, rfl, he, hcap⟩

theorem faultApplies_of_finFault {s : State} (hf : finFault s = some .ovf) : FaultApplies .ovf (encode .fin) s := by
  obtain ⟨-, hn, hcap⟩ | ⟨hc, -⟩ := finFault_cases s
  · exact .inr ⟨rfl, hn, Nat.le_of_lt_succ hcap⟩
  · cases hf.symm.trans hc

/-! What a word raises. -/

/-- A command that leads to FAULT has raised a fault that applies to it. -/
theorem ExecCase.raised {i : Instr} {s t : State} (h : ExecCase i s t) (hs : s.state ≠ .fault)
    (ht : t.state = .fault) : ∃ e, t = raise e (encode i) s ∧ FaultApplies e (encode i) s := by
  cases h with
  | ignored hfault => exact absurd hfault hs
  | errSeq hl => exact ⟨.seq, rfl, faultApplies_seq_iff.mpr ⟨i, rfl, hl⟩⟩
  | noEntry _ he => exact ⟨.noent, rfl, _, rfl, he⟩
  | wideCode _ hf => exact ⟨.code, rfl, _, _, _, rfl, tblwFault_eq_code_iff.mp hf⟩
  | symFaults _ he hf => exact ⟨_, rfl, faultApplies_of_symFault he hf⟩
  | finFaults _ hf => exact ⟨.ovf, rfl, faultApplies_of_finFault hf⟩
  | nop => exact absurd ht hs
  | tblw => exact absurd ht hs
  | sym _ _ _ hx =>
    rw [applyExtraBit_frame hx, appendCode_state] at ht
    exact absurd ht hs
  | start | fin | clr => simp at ht

/-- So has a word, illegal ones included. -/
theorem performWord_raised {w : CmdWord} {s t : State} (h : performWord w s = .next t) (hs : s.state ≠ .fault)
    (ht : t.state = .fault) : ∃ e, t = raise e w s ∧ FaultApplies e w s := by
  obtain ⟨i, hd, hi⟩ | ⟨why, hd, ⟨hfault, -⟩ | ⟨-, rfl⟩⟩ := performWord_cases h
  · rw [← encode_of_decode hd]
    exact (exec_cases hi).raised hs ht
  · exact absurd hfault hs
  · exact ⟨.ill, rfl, illegalWord_of_decode hd⟩

/-- A command that does not lead to FAULT keeps ERR, or is a CLR and clears it. -/
theorem ExecCase.err_of_not_fault {i : Instr} {s t : State} (h : ExecCase i s t) (ht : t.state ≠ .fault) :
    t.err = s.err ∨ t.err = 0 := by
  cases h with
  | ignored | nop | tblw | start => exact .inl rfl
  | errSeq | noEntry | wideCode | symFaults | finFaults => exact absurd rfl ht
  | sym _ _ _ hx =>
    rw [applyExtraBit_frame hx]
    simp
  | fin => simp
  | clr => exact .inr rfl

/-- R99: the first fault that applies to a word is the one that it raises. -/
theorem performWord_raises_first {e : ErrCode} {w : CmdWord} {s : State} (hs : s.state ≠ .fault)
    (h : FaultApplies e w s) (hfirst : ∀ e', FaultApplies e' w s → faultRank e ≤ faultRank e') :
    performWord w s = .next (raise e w s) := by
  have hpast : ∀ e', faultRank e' < faultRank e → ¬ FaultApplies e' w s :=
    fun e' hlt h' => absurd (hfirst e' h') (Nat.not_le.mpr hlt)
  cases e with
  | ill => exact (IllegalWord.performed h s).1 hs
  | seq =>
    obtain ⟨i, rfl, hl⟩ := faultApplies_seq_iff.mp h
    rw [performWord_encode, exec_errSeq hl]
  | noent =>
    obtain ⟨b, rfl, he⟩ := h
    have hact := (legality_sym_ok b _).mp (legality_ok_of_not_seq hs (hpast .seq (by decide)))
    rw [performWord_encode, exec_sym_noent hact he]
  | code =>
    obtain ⟨idx, len, code, rfl, hwide⟩ := h
    have hopen := (legality_tblw_ok ..).mp (legality_ok_of_not_seq hs (hpast .seq (by decide)))
    rw [performWord_encode, exec_tblw_raises hopen (tblwFault_eq_code_iff.mpr hwide)]
  | compat =>
    obtain ⟨b, e, rfl, he, hlost⟩ := faultApplies_compat_iff.mp h
    have hact := (legality_sym_ok b _).mp (legality_ok_of_not_seq hs (hpast .seq (by decide)))
    rw [performWord_encode, exec_sym_raises hact he (symFault_eq_compat hlost)]
  | ovf =>
    obtain ⟨b, e, rfl, he, hcap⟩ | ⟨rfl, hn, hcap⟩ := h
    · have hact := (legality_sym_ok b _).mp (legality_ok_of_not_seq hs (hpast .seq (by decide)))
      have hkept : ¬ (extraBit s.cfg e = true ∧ s.total = 0) := fun hlost =>
        hpast .compat (by decide) (faultApplies_compat_iff.mpr ⟨b, e, rfl, he, hlost⟩)
      rw [performWord_encode, exec_sym_raises hact he (symFault_eq_ovf hkept hcap)]
    · have hact := (legality_fin_ok _).mp (legality_ok_of_not_seq hs (hpast .seq (by decide)))
      rw [performWord_encode, exec_fin_raises hact (finFault_eq_ovf hn (Nat.lt_succ_of_le hcap))]

/-! In FAULT. -/

/-- R101: every word but exactly CLR is ignored. -/
theorem performWord_ignored {w : CmdWord} {s : State} (hs : s.state = .fault) (hw : w ≠ 0x5000000000000000#64) :
    performWord w s = .next s := by
  cases hd : decode w with
  | cmd i =>
    rw [performWord_cmd hd]
    refine exec_ignored hs fun hclr => hw ?_
    rw [← encode_of_decode hd, hclr]
    rfl
  | illegal why => exact (performWord_illegal_effect hd s).2 hs

/-- A step keeps the record of the fault, or it has performed CLR or a reset and the block is in IDLE (R102, R103). -/
theorem step_from_fault {s t : State} (hs : s.state = .fault) (h : step s = .next t) :
    (t.state = .fault ∧ t.err = s.err ∧ t.errcmd = s.errcmd) ∨
    (t.state = .idle ∧ ∃ rest, s.port = .command 0x5000000000000000#64 :: rest ∨ s.port = .reset :: rest) := by
  obtain ⟨-, rfl⟩ | ⟨w, rest, hp, hw⟩ | ⟨addr, rest, -, rfl⟩ | ⟨rest, hp, rfl⟩ := step_cases h
  · exact .inl ⟨hs, rfl, rfl⟩
  · by_cases hclr : w = 0x5000000000000000#64
    · rw [hclr, performWord_clr] at hw
      cases hw
      exact .inr ⟨rfl, rest, .inl (hclr ▸ hp)⟩
    · have hsame := performWord_ignored (s := { s with port := rest, pc := s.pc + 1 }) hs hclr
      cases hsame.symm.trans hw
      exact .inl ⟨hs, rfl, rfl⟩
  · exact .inl ⟨hs, rfl, rfl⟩
  · exact .inr ⟨rfl, rest, .inr hp⟩

end Sys2Proof.Machine
end

section
/-! The statements about exceptions (spec/60_exceptions.md), settled. -/

namespace Sys2Proof.Machine

/-- Settles O7: the decoder's illegal words are R92's (`decode_illegal_iff`); a legal word raises only faults that
apply to it (`performWord_raised`), so never `E_ILL`, and where it does not fault it keeps or clears ERR. -/
theorem illegalWordsRaiseIll : Obligations.IllegalWordsRaiseIll := by
  refine fun w => ⟨decode_illegal_iff, fun s hs =>
    ⟨fun hill => (hill.performed s).1 hs, fun t hlegal h herr => ?_⟩⟩
  by_cases ht : t.state = .fault
  · obtain ⟨e, rfl, happ⟩ := performWord_raised h hs ht
    have he : e = .ill := errBits_injective herr
    rw [he] at happ
    exact absurd happ hlegal
  · obtain ⟨i, -, hi⟩ | ⟨why, hd, -⟩ := performWord_cases h
    · obtain hkept | hzero := (exec_cases hi).err_of_not_fault ht
      · rw [← hkept, herr]
      · cases herr.symm.trans hzero
    · exact absurd (illegalWord_of_decode hd) hlegal

/-- Settles O24: the first fault that applies is raised (`performWord_raises_first`), and a word that leads to FAULT has
raised one that applies (`performWord_raised`). -/
theorem firstApplicableFaultIsRaised : Obligations.FirstApplicableFaultIsRaised := by
  refine ⟨by decide, fun s w hs => ⟨fun e => performWord_raises_first hs, fun t hnone h ht => ?_⟩,
    fun s w => performWord_ignored⟩
  obtain ⟨e, -, happ⟩ := performWord_raised h hs ht
  exact hnone e happ

/-- Settles O25: a word that leads to FAULT has raised a fault with its own word (`performWord_raised`), and `raise`
changes just the four fields. -/
theorem faultsArePrecise : Obligations.FaultsArePrecise := by
  intro s t w hs h ht
  obtain ⟨e, heq, -⟩ := performWord_raised h hs ht
  exact ⟨e, heq⟩

/-- Settles O26: only CLR's word is performed (`performWord_ignored`), and reads are served in every state
(`step_read`). -/
theorem faultIgnoresAllButClr : Obligations.FaultIgnoresAllButClr :=
  fun _ hs => ⟨fun _ => performWord_ignored hs, fun _ _ hp => ⟨_, step_read hp, rfl⟩⟩

/-- Settles O27: a step that leaves FAULT is one of the two of `step_from_fault`. -/
theorem onlyClrOrResetLeavesFault : Obligations.OnlyClrOrResetLeavesFault :=
  fun s hs => ⟨fun _ h ht => (step_from_fault hs h).resolve_left fun hkept => ht hkept.1, performWord_clr s, rfl⟩

/-- Settles O28: a step that does not end in IDLE has kept the record (`step_from_fault`). -/
theorem firstFaultIsKept : Obligations.FirstFaultIsKept := by
  intro s t hs h ht
  obtain ⟨-, hkept⟩ | ⟨hidle, -⟩ := step_from_fault hs h
  · exact hkept
  · cases ht.symm.trans hidle

/-- Settles O30: each cell is the command's rule past `whenLegal`; the cells with `E_SEQ` are all that raise it, since
the fault raised applies to the command's word (`ExecCase.raised`) and `E_SEQ` applies only there. -/
theorem legalityTableHolds : Obligations.LegalityTableHolds := by
  refine fun s => ⟨fun _ => exec_nop s, fun hs => ?closed, fun hs => ?active, exec_clr s, fun hs => ?fault,
    fun hs w hill => (hill.performed s).1 hs, fun i t hs h ht herr => ?noOther⟩
  case closed =>
    exact ⟨exec_tblw_legal hs, exec_start_legal hs,
      fun b => exec_errSeq (by rcases hs with hs | hs <;> rw [hs] <;> rfl),
      exec_errSeq (by rcases hs with hs | hs <;> rw [hs] <;> rfl)⟩
  case active =>
    exact ⟨fun _ _ _ => exec_errSeq (by rw [hs]; rfl), exec_errSeq (by rw [hs]; rfl),
      fun _ => exec_sym_noent hs, fun _ _ => exec_sym_legal hs, exec_fin_legal hs⟩
  case fault => exact ⟨fun _ => exec_ignored hs, fun w hill => (hill.performed s).2 hs⟩
  case noOther =>
    obtain ⟨e, rfl, happ⟩ := (exec_cases h).raised hs ht
    have he : e = .seq := errBits_injective herr
    rw [he] at happ
    obtain ⟨j, hword, hl⟩ := faultApplies_seq_iff.mp happ
    rw [encode_injective hword]
    exact legality_errSeq hl

end Sys2Proof.Machine
end

section
/-! SUPPORT. Which commands and words change the table (R114), and the read of an output byte that no call has
written (R39). -/

namespace Sys2Proof.Machine

/-- Of the commands only a performed TBLW changes the table (R68). -/
theorem ExecCase.tbl_changed {i : Instr} {s t : State} (h : ExecCase i s t) (hne : t.tbl ≠ s.tbl) :
    ∃ idx len code, i = .tblw idx len code ∧ (s.state = .idle ∨ s.state = .done) ∧
      t = setTbl idx ⟨len, code⟩ s := by
  cases h with
  | tblw hs _ => exact ⟨_, _, _, rfl, hs, rfl⟩
  | ignored | errSeq | noEntry | wideCode | symFaults | finFaults | nop | start | clr => exact absurd rfl hne
  | sym _ _ _ hx =>
    rw [applyExtraBit_frame hx] at hne
    exact absurd (appendCode_tbl _ _ _) hne
  | fin => exact absurd (closeCall_tbl s) hne

/-- So of the words: an illegal one raises or is ignored, and a legal one is its command's own. -/
theorem performWord_tbl_changed {w : CmdWord} {s t : State} (h : performWord w s = .next t) (hne : t.tbl ≠ s.tbl) :
    ∃ idx len code, w = encode (.tblw idx len code) ∧ (s.state = .idle ∨ s.state = .done) ∧
      t = setTbl idx ⟨len, code⟩ s := by
  obtain ⟨i, hd, hi⟩ | ⟨-, -, ⟨-, rfl⟩ | ⟨-, rfl⟩⟩ := performWord_cases h
  · obtain ⟨idx, len, code, rfl, hs, ht⟩ := (exec_cases hi).tbl_changed hne
    exact ⟨idx, len, code, (encode_of_decode hd).symm, hs, ht⟩
  · exact absurd rfl hne
  · exact absurd rfl hne

/-- R39: below OUT_CAP and from OUT_LEN on, the word read at the byte's address is a free draw. -/
theorem readWord_stale {s : State} {k : Nat} (hcap : k < s.cfg.outCap.toNat) (hlen : s.outLen.toNat ≤ k) :
    readWord s (BitVec.ofNat 32 (0x10000000 + k)) = 0#24 ++ Config.freeByte s.draws := by
  have haddr : (BitVec.ofNat 32 (0x10000000 + k)).toNat = 0x10000000 + k := by
    have hbound := s.cfg.outCap.isLt
    rw [BitVec.toNat_ofNat]
    omega
  rw [readWord_outWindow haddr, outWindowWord_stale hcap hlen]

end Sys2Proof.Machine
end

section
/-! The statements about reset and hazards (spec/70_reset_and_hazards.md), settled. -/

namespace Sys2Proof.Machine

/-- Settles O20: by the head of the port, only a word and a reset can change the table, and a word that does is a
TBLW performed in IDLE or DONE (`performWord_tbl_changed`). -/
theorem tableChangesOnlyByTblw : Obligations.TableChangesOnlyByTblw := by
  intro s t h hne
  obtain ⟨-, rfl⟩ | ⟨w, rest, hp, hw⟩ | ⟨addr, rest, -, rfl⟩ | ⟨rest, hp, rfl⟩ := step_cases h
  · exact absurd rfl hne
  · obtain ⟨idx, len, code, rfl, hs, rfl⟩ := performWord_tbl_changed hw hne
    exact .inl ⟨idx, len, code, rest, hp, hs, rfl, rfl⟩
  · exact absurd rfl hne
  · exact .inr ⟨rest, hp, rfl⟩

/-- Settles O15: CLR answers `clearToIdle` (`exec_clr`), of which a reset is the table, OUT and the ghost bit cleared;
both leave OUT_LEN 0, so every byte below OUT_CAP is a free draw (`readWord_stale`). -/
theorem resetAndClrDifferInTable : Obligations.ResetAndClrDifferInTable := fun s =>
  ⟨clearToIdle s, exec_clr s, rfl, rfl, rfl, rfl, rfl, rfl, rfl, rfl, rfl, fun _ => rfl, rfl, rfl, rfl,
    fun k hcap => ⟨readWord_stale (s := resetBlock s) hcap (Nat.zero_le k),
      readWord_stale (s := clearToIdle s) hcap (Nat.zero_le k)⟩, rfl⟩

end Sys2Proof.Machine
end

section
/-! SUPPORT. What every command, word and step keeps besides the invariant: the build (R13), the canonical form of
OUT and of the table, the fault record (R23, R24), the table and the bytes of the call (R31, R114). -/

namespace Sys2Proof.Machine

/-! The build. -/

theorem ExecCase.cfg_eq {i : Instr} {s t : State} (h : ExecCase i s t) : t.cfg = s.cfg := by
  cases h with
  | sym _ _ _ hx => rw [applyExtraBit_frame hx, appendCode_cfg]
  | fin => exact closeCall_cfg s
  | _ => rfl

theorem performWord_cfg {w : CmdWord} {s t : State} (h : performWord w s = .next t) : t.cfg = s.cfg := by
  obtain ⟨i, -, hi⟩ | ⟨-, -, ⟨-, rfl⟩ | ⟨-, rfl⟩⟩ := performWord_cases h
  · exact (exec_cases hi).cfg_eq
  · rfl
  · rfl

/-! The canonical form. -/

/-- OUT and the table are strictly rising lists. -/
def Canonical (s : State) : Prop := Memory.wf s.out ∧ cellsWf s.tbl

theorem applyExtraBit_wf {x : Bool} {s t : State} (h : applyExtraBit x s = .next t) (hs : Memory.wf s.out) :
    Memory.wf t.out := by
  obtain ⟨-, rfl⟩ | ⟨-, -, rfl⟩ | ⟨-, -, -, rfl⟩ := applyExtraBit_cases h
  · exact hs
  · exact hs
  · exact setOut_wf _ _ hs

theorem ExecCase.canonical {i : Instr} {s t : State} (h : ExecCase i s t) (hs : Canonical s) : Canonical t := by
  obtain ⟨hout, htbl⟩ := hs
  cases h with
  | tblw => exact ⟨hout, setTbl_wf _ _ htbl⟩
  | sym _ _ _ hx =>
    refine ⟨emitAll_wf _ (applyExtraBit_wf hx hout), ?_⟩
    rw [appendCode_tbl, applyExtraBit_frame hx]
    exact htbl
  | fin =>
    refine ⟨?_, ?_⟩
    · rw [closeCall_out_eq]
      exact emitAll_wf _ hout
    · rwa [closeCall_tbl]
  | _ => exact ⟨hout, htbl⟩

theorem performWord_canonical {w : CmdWord} {s t : State} (h : performWord w s = .next t) (hs : Canonical s) :
    Canonical t := by
  obtain ⟨i, -, hi⟩ | ⟨-, -, ⟨-, rfl⟩ | ⟨-, rfl⟩⟩ := performWord_cases h
  · exact (exec_cases hi).canonical hs
  · exact hs
  · exact hs

/-! STATE, the fault record and the table. -/

/-- Of the commands that do not fault, only START, FIN and CLR move STATE. -/
theorem ExecCase.state_eq {i : Instr} {s t : State} (h : ExecCase i s t) (hi : i ≠ .start ∧ i ≠ .fin ∧ i ≠ .clr)
    (ht : t.state ≠ .fault) : t.state = s.state := by
  obtain ⟨hstart, hfin, hclr⟩ := hi
  cases h with
  | ignored | nop | tblw => rfl
  | errSeq | noEntry | wideCode | symFaults | finFaults => exact absurd rfl ht
  | sym _ _ _ hx => rw [applyExtraBit_frame hx, appendCode_state]
  | start => exact absurd rfl hstart
  | fin => exact absurd rfl hfin
  | clr => exact absurd rfl hclr

/-- Of the commands that do not fault, only CLR moves the fault record or the ghost bit. -/
theorem ExecCase.record_eq {i : Instr} {s t : State} (h : ExecCase i s t) (hi : i ≠ .clr) (ht : t.state ≠ .fault) :
    t.err = s.err ∧ t.errcmd = s.errcmd ∧ t.faulted = s.faulted := by
  cases h with
  | ignored | nop | tblw | start => exact ⟨rfl, rfl, rfl⟩
  | errSeq | noEntry | wideCode | symFaults | finFaults => exact absurd rfl ht
  | sym _ _ _ hx =>
    rw [applyExtraBit_frame hx, appendCode_err, appendCode_errcmd, appendCode_faulted]
    exact ⟨rfl, rfl, rfl⟩
  | fin => exact ⟨closeCall_err s, closeCall_errcmd s, closeCall_faulted s⟩
  | clr => exact absurd rfl hi

/-- Only TBLW moves the table. -/
theorem ExecCase.tbl_eq {i : Instr} {s t : State} (h : ExecCase i s t) (hi : ∀ idx len code, i ≠ .tblw idx len code) :
    t.tbl = s.tbl := by
  by_contra hne
  obtain ⟨idx, len, code, hword, -⟩ := h.tbl_changed hne
  exact hi idx len code hword

/-! The bytes of OUT under SYM and FIN (R77, R81). -/

/-- SYM leaves OUT as it is, or passes its checks and appends its code. -/
theorem exec_sym_out {s t : State} {b : Byte} (h : exec (.sym b) s = .next t) :
    t.out = s.out ∨ ∃ e s1, tblEntry s b = some e ∧ symFault e s = none ∧
      applyExtraBit (extraBit s.cfg e) s = .next s1 ∧ t = appendCode e.len.toNat (maskedCode e) s1 := by
  cases exec_cases h with
  | ignored | errSeq | noEntry | symFaults => exact .inl rfl
  | sym _ he hf hx => exact .inr ⟨_, _, he, hf, hx, rfl⟩

/-- Outside the bytes that it completes a SYM changes none but the one that the extra mask bit goes to. -/
theorem cellRead_sym_outside {s s1 : State} {e : TblEntry} (hf : symFault e s = none)
    (hx : applyExtraBit (extraBit s.cfg e) s = .next s1) {k : Nat}
    (hk : ¬ (s.outLen.toNat ≤ k ∧ k < s.outLen.toNat + (s.nbits.toNat + e.len.toNat) / 8)) :
    cellRead (appendCode e.len.toNat (maskedCode e) s1).out k =
      if extraBit s.cfg e = true ∧ s.nbits = 0 ∧ k + 1 = s.outLen.toNat then some (outByte s k ||| 1)
      else cellRead s.out k := by
  have hframe := applyExtraBit_frame hx
  have hlen : s1.outLen = s.outLen := by rw [hframe]
  have hnbits : s1.nbits = s.nbits := by rw [hframe]
  rw [cellRead_appendCode (symFault_none_no_wrap hf hx), hlen, hnbits, if_neg hk, cellRead_applyExtraBit hx]

theorem outLen_sym {s s1 : State} {e : TblEntry} (hf : symFault e s = none)
    (hx : applyExtraBit (extraBit s.cfg e) s = .next s1) :
    (appendCode e.len.toNat (maskedCode e) s1).outLen.toNat =
      s.outLen.toNat + (s.nbits.toNat + e.len.toNat) / 8 := by
  rw [appendCode_outLen_toNat (symFault_none_no_wrap hf hx), applyExtraBit_frame hx]

/-- The close changes no byte but the padded one. -/
theorem cellRead_closeCall_outside {s : State} {k : Nat} (hk : ¬ (padCount s.nbits ≠ 0 ∧ k = s.outLen.toNat)) :
    cellRead (closeCall s).out k = cellRead s.out k := by
  by_cases hp : padCount s.nbits = 0
  · rw [closeCall_of_padCount_eq_zero hp]
  · rw [closeCall_of_padCount_ne_zero hp]
    exact cellRead_cellWrite_ne _ _ fun hlast => hk ⟨hp, hlast⟩

/-- OUT_LEN counts the padded byte. -/
theorem outLen_closeCall {s : State} (hf : finFault s = none) :
    (closeCall s).outLen.toNat = s.outLen.toNat + (s.nbits.toNat + padCount s.nbits) / 8 := by
  have hbytes : (finBytes s).length = (s.nbits.toNat + padCount s.nbits) / 8 := by
    rw [← octets_finWord, octets_length]
  have hwrap := finFault_none_no_wrap hf
  rw [closeCall_outLen_eq, emitAll_outLen _ _ (by rwa [hbytes]), hbytes]

/-! Completed bytes (R31). -/

/-- OUT_LEN does not fall; below the old OUT_LEN every byte stays, but for bit 0 of the last where the extra mask bit
may go to it; and no byte from the new OUT_LEN on is written. -/
def BytesStay (s t : State) : Prop :=
  s.outLen.toNat ≤ t.outLen.toNat ∧
  (∀ k < s.outLen.toNat, outByte t k = outByte s k ∨
    (s.cfg.maskExtraBit = true ∧ k + 1 = s.outLen.toNat ∧ outByte t k = outByte s k ||| 1)) ∧
  (∀ k, t.outLen.toNat ≤ k → cellRead t.out k = cellRead s.out k)

theorem bytesStay_of_out_eq {s t : State} (hlen : t.outLen = s.outLen) (hout : t.out = s.out) : BytesStay s t :=
  ⟨(congrArg BitVec.toNat hlen).ge, fun k _ => .inl (outByte_of_out_eq hout k), fun k _ => by rw [hout]⟩

theorem bytesStay_sym {s s1 : State} {e : TblEntry} (hf : symFault e s = none)
    (hx : applyExtraBit (extraBit s.cfg e) s = .next s1) :
    BytesStay s (appendCode e.len.toNat (maskedCode e) s1) := by
  have hlen := outLen_sym hf hx
  refine ⟨by omega, fun k hk => ?_, fun k hk => ?_⟩
  · have hread := cellRead_sym_outside hf hx (k := k) (by omega)
    split at hread
    case isTrue hlast =>
      obtain ⟨hextra, -, hk1⟩ := hlast
      have hmask : s.cfg.maskExtraBit = true := (Bool.and_eq_true_iff.mp hextra).1
      exact .inr ⟨hmask, hk1, outByte_of_some hread⟩
    case isFalse => exact .inl (outByte_of_read_eq hread)
  · rw [cellRead_sym_outside hf hx (by omega), if_neg (by omega)]

theorem bytesStay_closeCall {s : State} (hf : finFault s = none) : BytesStay s (closeCall s) := by
  have hlen := outLen_closeCall hf
  have hpad := nbits_add_padCount s.nbits
  exact ⟨by omega, fun k hk => .inl (outByte_of_read_eq (cellRead_closeCall_outside (by omega))),
    fun k hk => cellRead_closeCall_outside (by omega)⟩

/-- In ACTIVE every command but CLR keeps the completed bytes: SYM and FIN alone write OUT. -/
theorem ExecCase.bytesStay {i : Instr} {s t : State} (h : ExecCase i s t) (hs : s.state = .active) (hi : i ≠ .clr) :
    BytesStay s t := by
  cases h with
  | ignored | errSeq | noEntry | wideCode | symFaults | finFaults | nop | tblw => exact bytesStay_of_out_eq rfl rfl
  | start hq =>
    rw [hs] at hq
    simp at hq
  | sym _ _ hf hx => exact bytesStay_sym hf hx
  | fin _ hf => exact bytesStay_closeCall hf
  | clr => exact absurd rfl hi

/-! A step that finishes (R119). -/

/-- In a state that satisfies the invariant every command answers a next state: where the extra mask bit had no byte
to go to, TOTAL is 0 (I4), and SYM has raised `E_COMPAT`. -/
theorem Inv.exec_next {s : State} (h : Inv s) (i : Instr) : ∃ t, exec i s = .next t := by
  refine (exec_total i s).resolve_right ?_
  rintro ⟨-, b, e, -, hs, -, hf, hextra, hn, ho⟩
  have htotal : s.total = 0 := by
    apply BitVec.eq_of_toNat_eq
    rw [(h.total_bound hs).1, hn, ho]
    rfl
  exact nomatch hf.symm.trans (symFault_eq_compat ⟨hextra, htotal⟩)

theorem Inv.performWord_next {s : State} (h : Inv s) (w : CmdWord) : ∃ t, performWord w s = .next t := by
  cases hd : decode w with
  | cmd i =>
    rw [performWord_cmd hd]
    exact h.exec_next i
  | illegal why =>
    obtain ⟨hraises, hignored⟩ := performWord_illegal_effect hd s
    by_cases hs : s.state = .fault
    · exact ⟨_, hignored hs⟩
    · exact ⟨_, hraises hs⟩

/-- With nothing waiting the block holds its state (R110). -/
theorem step_idle {s : State} (hp : s.port = []) : step s = .next s := by
  simp [step, takeTransaction, hp]

/-- The machine right after reset (R35). -/
theorem inv_resetWith {c : Config} (h : c.wf = true) : Inv (State.resetWith c) :=
  (inv_iff _).mpr ⟨h, tblInv_nil c, outInv_nil c, Nat.one_pos,
    (seqInv_idle rfl).mpr ⟨⟨rfl, rfl, rfl, rfl, rfl⟩, rfl, rfl⟩⟩

end Sys2Proof.Machine
end

section
/-! SUPPORT. A run as a fold of its words (R14), the SYMs of a run that stays in its call (R40), and the source's encode
function under the exact mask (R73, R74). -/

namespace Sys2Proof.Machine

/-! Runs. -/

/-- An outcome, and the next word performed where it is a state: nothing else waits, and the index moves on. -/
def thenWord (r : Result) (w : CmdWord) : Result :=
  match r with
  | .next u => performWord w { u with port := [], pc := u.pc + 1 }
  | .fault f => .fault f
  | .refused why => .refused why

theorem foldl_thenWord_fault (f : Fault) (ws : List CmdWord) : ws.foldl thenWord (.fault f) = .fault f := by
  induction ws with
  | nil => rfl
  | cons w ws ih => exact ih

theorem foldl_thenWord_refused (why : Refusal) (ws : List CmdWord) :
    ws.foldl thenWord (.refused why) = .refused why := by
  induction ws with
  | nil => rfl
  | cons w ws ih => exact ih

theorem runWords_eq_foldl (ws : List CmdWord) (s : State) : runWords ws s = ws.foldl thenWord (.next s) := by
  induction ws generalizing s with
  | nil => rfl
  | cons w ws ih =>
    have hfirst : thenWord (.next s) w = deliver w s := rfl
    rw [runWords, List.foldl_cons, hfirst]
    cases deliver w s with
    | next u => exact ih u
    | fault f => exact (foldl_thenWord_fault f ws).symm
    | refused why => exact (foldl_thenWord_refused why ws).symm

/-- Every word of a run moves the index on by one, and reads nothing. -/
theorem runWords_host {ws : List CmdWord} {s t : State} (h : runWords ws s = .next t) :
    t.pc = s.pc + ws.length ∧ t.replies = s.replies ∧ t.draws = s.draws := by
  induction ws generalizing s with
  | nil =>
    cases h
    exact ⟨rfl, rfl, rfl⟩
  | cons w ws ih =>
    obtain ⟨u, hu, hrest⟩ := runWords_cons_next h
    obtain ⟨hpc, -, hreplies, hdraws⟩ := performWord_host hu
    obtain ⟨hpc', hreplies', hdraws'⟩ := ih hrest
    have hfirst : u.pc = s.pc + 1 := hpc
    refine ⟨?_, hreplies'.trans hreplies, hdraws'.trans hdraws⟩
    rw [hpc', hfirst, List.length_cons]
    omega

/-- A run of commands other than CLR whose first one faults does not end in ACTIVE. -/
theorem runWords_raise_not_active {e : ErrCode} {i : Instr} {is : List Instr} (his : .clr ∉ is) {s t u : State}
    (hraise : deliver (encode i) s = .next (raise e (encode i) u))
    (h : runWords ((i :: is).map encode) s = .next t) : t.state ≠ .active := by
  obtain ⟨t', ht', hfault, -⟩ := runWords_raise his hraise
  cases ht'.symm.trans h
  rw [hfault]
  decide

/-- SYMs that leave the call open have each appended their code. -/
theorem InCall.syms {s0 s t : State} {T : Byte → TblEntry} {pre rest : List Byte} (h : InCall s0 T pre s)
    (hT : ∀ b ∈ rest, tblEntry s0 b = some (T b))
    (hrun : runWords ((rest.map Instr.sym).map encode) s = .next t) (ht : t.state = .active) :
    InCall s0 T (pre ++ rest) t := by
  induction rest generalizing pre s with
  | nil =>
    cases hrun
    rwa [List.append_nil]
  | cons b bs ih =>
    have h' := h.withHost (s.pc + 1) []
    obtain ⟨he, hT⟩ := List.forall_mem_cons.mp hT
    have hclr : Instr.clr ∉ bs.map Instr.sym := by simp
    by_cases hlost : extraBit s0.cfg (T b) = true ∧ totalBits T pre = 0
    · exact absurd ht (runWords_raise_not_active hclr ((deliver_encode ..).trans (h'.sym_lost he hlost)) hrun)
    by_cases hcap : s0.cfg.outCap.toNat < (totalBits T pre + (T b).len.toNat) / 8
    · exact absurd ht (runWords_raise_not_active hclr ((deliver_encode ..).trans (h'.sym_full he hlost hcap)) hrun)
    · obtain ⟨u, hu, hin⟩ := h'.sym_appends he hlost (Nat.not_lt.mp hcap)
      rw [List.map_cons, List.map_cons, runWords_cons ((deliver_encode ..).trans hu)] at hrun
      rw [List.append_cons]
      exact ih hin hT hrun

/-! The encode function under the exact mask. -/

/-- One step under the exact mask is the shifter's word. -/
theorem refStep_exact (T : Byte → TblEntry) (acc : Nat) (b : Byte) :
    refStep false T acc b = shifterWord acc (T b).len.toNat (maskedCode (T b)) := rfl

/-- The accumulator spells the codes in input order (R40). -/
theorem bitsOf_refAcc_exact (T : Byte → TblEntry) (input : List Byte) :
    bitsOf (totalBits T input) (refAcc false T input) =
      input.flatMap fun b => bitsOf (T b).len.toNat ((T b).code.toNat % 2 ^ (T b).len.toNat) := by
  induction input using List.reverseRecOn with
  | nil => rfl
  | append_singleton xs b ih =>
    rw [totalBits_snoc, refAcc_snoc, refStep_exact, shifterWord_eq _ (maskedCode_lt _),
      bitsOf_mul_add _ (maskedCode_lt _), ih, maskedCode_eq, List.flatMap_append, List.flatMap_singleton]

/-- The exact mask has no extra bit to lose. -/
theorem noneLost_exact {c : Config} (h : c.maskExtraBit = false) (T : Byte → TblEntry) (input : List Byte) :
    NoneLost c T 0 input := by
  refine noneLost_of_no_firstLost ?_
  rintro pre b ⟨-, -, hextra, -⟩
  rw [extraBit, h] at hextra
  exact nomatch hextra

/-- So the padded value fits in its bytes (R73). -/
theorem refPaddedAcc_exact_lt (T : Byte → TblEntry) (input : List Byte) :
    refPaddedAcc false T input < 2 ^ (8 * totalBytes (totalBits T input)) := by
  have hacc : refAcc false T input < 2 ^ (0 + totalBits T input) :=
    foldl_refStep_lt (acc := 0) Nat.one_pos (noneLost_exact (c := Config.default) rfl T input)
  rw [Nat.zero_add] at hacc
  exact Nat.not_le.mp (mt (le_refPaddedAcc_iff T false input).mp (Nat.not_le.mpr hacc))

end Sys2Proof.Machine
end

section
/-! The other statements: the encoder and the decoder, steps and runs, what each step and each command keeps, and the
stream under the exact mask, settled. -/

namespace Sys2Proof.Machine

/-- Settles O1: the fields of each command's word are its operands (`decode_encode`). -/
theorem decodeOfEncode : Obligations.DecodeOfEncode := decode_encode

/-- Settles O2: a word is made of its fields, and the reserved one is 0 where it decodes (`encode_of_decode`). -/
theorem encodeOfDecode : Obligations.EncodeOfDecode := fun _ _ => encode_of_decode

/-- Settles O12: the fold of the words is the run (`runWords_eq_foldl`), and each word counts one (`runWords_host`). -/
theorem runCountsItsWords : Obligations.RunCountsItsWords :=
  fun ws s => ⟨runWords_eq_foldl ws s, fun _ => runWords_host⟩

/-- Settles O17: by the head of the port, where a word answers a next state under the invariant
(`Inv.performWord_next`) and the other transactions always do. -/
theorem stepFinishesUnderInv : Obligations.StepFinishesUnderInv := by
  intro s hs
  match hp : s.port with
  | [] => exact ⟨_, step_idle hp⟩
  | .command w :: rest =>
    rw [step_command hp]
    exact (hs.withHost (s.pc + 1) rest s.replies s.draws).performWord_next w
  | .read addr :: rest => exact ⟨_, step_read hp⟩
  | .reset :: rest => exact ⟨_, step_reset hp⟩

/-- Settles O18: every word keeps the form (`performWord_canonical`), a read writes nothing, and a reset leaves both
lists empty. -/
theorem stepKeepsCanonicalForm : Obligations.StepKeepsCanonicalForm := by
  intro s t hout htbl h
  obtain ⟨-, rfl⟩ | ⟨w, rest, -, hw⟩ | ⟨addr, rest, -, rfl⟩ | ⟨rest, -, rfl⟩ := step_cases h
  · exact ⟨hout, htbl⟩
  · exact performWord_canonical hw ⟨hout, htbl⟩
  · exact ⟨hout, htbl⟩
  · exact ⟨.nil, .nil⟩

/-- Settles O19: no word writes the build (`performWord_cfg`), nor does a read or a reset. -/
theorem parametersNeverChange : Obligations.ParametersNeverChange := by
  intro s t h
  obtain ⟨-, rfl⟩ | ⟨w, rest, -, hw⟩ | ⟨addr, rest, -, rfl⟩ | ⟨rest, -, rfl⟩ := step_cases h
  · rfl
  · exact (performWord_cfg hw :)
  · rfl
  · rfl

/-- Settles O22: an illegal word writes no byte, and a command other than CLR keeps the completed ones
(`ExecCase.bytesStay`). -/
theorem completedBytesStay : Obligations.CompletedBytesStay := by
  intro s t w hs hw h
  obtain ⟨i, hd, hi⟩ | ⟨-, -, ⟨-, rfl⟩ | ⟨-, rfl⟩⟩ := performWord_cases h
  · exact (exec_cases hi).bytesStay hs fun hclr => hw (hclr ▸ encode_of_decode hd).symm
  · exact bytesStay_of_out_eq rfl rfl
  · exact bytesStay_of_out_eq rfl rfl

/-- Settles O35: past SYM's checks the extra mask bit has no byte to go to (`applyExtraBit_missing`); under the
invariant every command answers a next state (`Inv.exec_next`). -/
theorem symStopsWithoutStreamByte : Obligations.SymStopsWithoutStreamByte := by
  refine ⟨fun s b e hs he hmask hcode htotal hn ho hfit => ?_, fun s i hinv hstop => ?_⟩
  · have hextra : extraBit s.cfg e = true := Bool.and_eq_true_iff.mpr ⟨hmask, hcode⟩
    have hf : symFault e s = none := by
      refine symFault_eq_none (fun hlost => htotal hlost.2) ?_
      rw [hn, ho]
      simpa using hfit
    rw [exec_sym_legal hs he, hf, orRaise_none, commitSym, hextra, applyExtraBit_missing hn ho]
  · obtain ⟨t, ht⟩ := hinv.exec_next i
    exact nomatch ht.symm.trans hstop

/-- Settles O38: what all commands keep (`ExecCase.cfg_eq`, `ExecCase.host`), and command by command STATE, the fault
record and the table (`ExecCase.state_eq`, `ExecCase.record_eq`, `ExecCase.tbl_eq`) and the bytes of OUT. -/
theorem commandFrames : Obligations.CommandFrames := by
  intro i s t h
  have hcase := exec_cases h
  refine ⟨⟨hcase.cfg_eq, hcase.host⟩, ?_⟩
  cases i with
  | nop =>
    cases (exec_nop s).symm.trans h
    rfl
  | tblw idx len code =>
    have hkept := fun ht => And.intro (hcase.state_eq (by simp) ht) (hcase.record_eq (by simp) ht)
    cases hcase with
    | ignored | errSeq | wideCode => exact ⟨rfl, rfl, rfl, rfl, rfl, rfl, fun _ _ => rfl, hkept⟩
    | tblw => exact ⟨rfl, rfl, rfl, rfl, rfl, rfl, fun _ hj => tblEntry_setTbl_ne hj .., hkept⟩
  | start =>
    refine ⟨hcase.tbl_eq (by simp), ?_, hcase.record_eq (by simp)⟩
    cases hcase <;> rfl
  | sym b =>
    refine ⟨hcase.tbl_eq (by simp), ?pad, fun ht => ⟨hcase.state_eq (by simp) ht, hcase.record_eq (by simp) ht⟩,
      fun e k he hout hlast => ?bytes, fun hnone => ?noEntry⟩
    case pad =>
      cases hcase with
      | sym _ _ _ hx => rw [appendCode_pad, applyExtraBit_frame hx]
      | _ => rfl
    case bytes =>
      obtain hsame | ⟨e', s1, he', hf, hx, rfl⟩ := exec_sym_out h
      · rw [hsame]
      · cases he.symm.trans he'
        rw [cellRead_sym_outside hf hx hout, if_neg]
        exact fun hc => hlast ⟨hc.1, hc.2.1, Nat.eq_sub_of_add_eq hc.2.2⟩
    case noEntry =>
      obtain hsame | ⟨e, -, he, -⟩ := exec_sym_out h
      · exact hsame
      · exact nomatch hnone.symm.trans he
  | fin =>
    refine ⟨hcase.tbl_eq (by simp), exec_fin_total h, hcase.record_eq (by simp), fun k hk => ?_⟩
    cases hcase with
    | fin => exact cellRead_closeCall_outside hk
    | _ => rfl
  | clr =>
    cases (exec_clr s).symm.trans h
    exact ⟨rfl, rfl, rfl⟩

/-- Settles O40: SYMs that leave the call open have each appended their code (`InCall.syms`), and under the exact mask
what is accumulated spells the codes (`bitsOf_refAcc_exact`). -/
theorem streamIsConcatenation : Obligations.StreamIsConcatenation := by
  intro s t T input hs hexact hT hrun ht
  obtain ⟨u, hu, hrest⟩ := runWords_cons_next hrun
  have hstart := exec_start_legal (s := { s with port := [], pc := s.pc + 1 }) hs
  cases hstart.symm.trans hu
  have hin := (inCall_openCall { s with port := [], pc := s.pc + 1 } T).syms hT hrest ht
  have hstream : stream t = bitsOf (totalBits T input) (refAcc false T input) := hexact ▸ hin.stream
  refine ⟨hstream.trans (bitsOf_refAcc_exact T input), ?_⟩
  rw [hstream, bitsOf_length]
  exact hin.total.symm

/-- Settles O47: the value fits (`refPaddedAcc_exact_lt`), so its rendering spells it with no bit cut off
(`byteBits_render`, `valOf_bitsOf`). -/
theorem encodeRendersExactly : Obligations.EncodeRendersExactly := by
  intro T input
  have hfits := refPaddedAcc_exact_lt T input
  refine ⟨hfits, ?_, ?_⟩
  · rw [encodeRef_eq_render, render_length, totalBytes_eq]
  · rw [encodeRef_eq_render, byteBits_render, valOf_bitsOf, Nat.mod_eq_of_lt hfits]

/-- Settles O6: seven fixed words, computed. -/
theorem specWordsDecode : Obligations.SpecWordsDecode := by
  unfold Obligations.SpecWordsDecode
  decide

/-- Settles O9: a delivered word is performed (`step_command`), as the command that it decodes to. -/
theorem stepRunsDecodedCommand : Obligations.StepRunsDecodedCommand :=
  fun _ _ _ _ hp hd => (step_command hp).trans (performWord_cmd hd _)

/-- Settles O10: one lemma for each head of the port. -/
theorem stepOnOtherTransactions : Obligations.StepOnOtherTransactions :=
  fun _ _ => ⟨fun _ _ hp hd => (step_command hp).trans (performWord_illegal hd _), fun _ => step_read, step_reset,
    step_idle⟩

/-- Settles O14: each part of the invariant holds of empty lists and a cleared datapath (`inv_resetWith`). -/
theorem resetSatisfiesInv : Obligations.ResetSatisfiesInv := ⟨fun _ => inv_resetWith, inv_resetWith (by decide)⟩

end Sys2Proof.Machine
end
